-- ==== Sys2Proof/Word.lean ====
section
/-! DEFINITION. The widths every other file is written in: a 32-bit word, a byte, a register number
(spec/00_scope.md R7 `XLEN`, R14; spec/10_state.md R21). -/

namespace Sys2Proof

/-- A general register, a PSR image, a bus address or an instruction word: 32 bits (R7, R14). -/
abbrev Word := BitVec 32

/-- The smallest addressable unit of memory (R60). -/
abbrev Byte := BitVec 8

/-- A register number of an instruction, 0 to 15 (R21). -/
abbrev Reg := Fin 16

end Sys2Proof
end

