-- ==== Sys2Proof/Syntax.lean ====
section
/-! DEFINITION. The instruction set as syntax: the condition, the operand forms, and `Instr`, one constructor
per row of spec/opcode_table.json (spec/30_encoding.md R92 to R121). A field the decoder ignores (Rn of MOV
and MVN, Rd of a compare, Rn of MUL: R116) stays a field, because the table gives it bits. -/

namespace Sys2Proof

/-- The sixteen condition codes, in the order of R150. -/
inductive Cond where
  | eq | ne | cs | cc | mi | pl | vs | vc | hi | ls | ge | lt | gt | le | al | nv
deriving DecidableEq, Repr

/-- The four encoded shift kinds (R113). -/
inductive ShiftKind where
  | lsl | lsr | asr | ror
deriving DecidableEq, Repr

/-- The sixteen data-processing operations, in the numbering of R112. -/
inductive DpOp where
  | and | eor | sub | rsb | add | adc | sbc | rsc | tst | teq | cmp | cmn | orr | mov | bic | mvn
deriving DecidableEq, Repr

/-- TST, TEQ, CMP, CMN: "comparison-only", Rd is not written (R200, R226). -/
def DpOp.isCompare : DpOp → Bool
  | .tst | .teq | .cmp | .cmn => true
  | .and | .eor | .sub | .rsb | .add | .adc | .sbc | .rsc | .orr | .mov | .bic | .mvn => false

/-- The three operand2 forms (R95, R96). -/
inductive Operand2 where
  /-- An 8-bit immediate rotated right by twice `rot`. -/
  | imm (rot : BitVec 4) (imm8 : BitVec 8)
  /-- A register shifted by the immediate amount `amount5`. -/
  | shiftImm (amount5 : BitVec 5) (kind : ShiftKind) (rm : Reg)
  /-- A register shifted by the low byte of `rs`. -/
  | shiftReg (rs : Reg) (kind : ShiftKind) (rm : Reg)
deriving DecidableEq, Repr

/-- The offset of a word or byte transfer (R104). -/
inductive WordOffset where
  | imm (offset12 : BitVec 12)
  | reg (amount5 : BitVec 5) (kind : ShiftKind) (rm : Reg)
deriving DecidableEq, Repr

/-- The offset of a halfword or signed transfer (R102, R103). -/
inductive HalfOffset where
  | imm (hi lo : BitVec 4)
  | reg (rm : Reg)
deriving DecidableEq, Repr

/-- The four single data transfers, told apart by the bits L and B (R104). -/
inductive SingleOp where
  | str | ldr | strb | ldrb
deriving DecidableEq, Repr

/-- The four halfword and signed transfers, told apart by the bits L and SH (R102). -/
inductive HalfOp where
  | strh | ldrh | ldrsb | ldrsh
deriving DecidableEq, Repr

/-- One instruction. Every constructor carries its condition (R91) and then the fields its row of
spec/opcode_table.json names, from bit 27 down. `sb` is the S bit; `p u w` the addressing bits. -/
inductive Instr where
  -- DataProcessing, R94 to R96
  | andImm (c : Cond) (sb : Bool) (rn rd : Reg) (rot : BitVec 4) (imm8 : BitVec 8)
  | andShiftImm (c : Cond) (sb : Bool) (rn rd : Reg) (amount5 : BitVec 5) (kind : ShiftKind) (rm : Reg)
  | andShiftReg (c : Cond) (sb : Bool) (rn rd rs : Reg) (kind : ShiftKind) (rm : Reg)
  | eorImm (c : Cond) (sb : Bool) (rn rd : Reg) (rot : BitVec 4) (imm8 : BitVec 8)
  | eorShiftImm (c : Cond) (sb : Bool) (rn rd : Reg) (amount5 : BitVec 5) (kind : ShiftKind) (rm : Reg)
  | eorShiftReg (c : Cond) (sb : Bool) (rn rd rs : Reg) (kind : ShiftKind) (rm : Reg)
  | subImm (c : Cond) (sb : Bool) (rn rd : Reg) (rot : BitVec 4) (imm8 : BitVec 8)
  | subShiftImm (c : Cond) (sb : Bool) (rn rd : Reg) (amount5 : BitVec 5) (kind : ShiftKind) (rm : Reg)
  | subShiftReg (c : Cond) (sb : Bool) (rn rd rs : Reg) (kind : ShiftKind) (rm : Reg)
  | rsbImm (c : Cond) (sb : Bool) (rn rd : Reg) (rot : BitVec 4) (imm8 : BitVec 8)
  | rsbShiftImm (c : Cond) (sb : Bool) (rn rd : Reg) (amount5 : BitVec 5) (kind : ShiftKind) (rm : Reg)
  | rsbShiftReg (c : Cond) (sb : Bool) (rn rd rs : Reg) (kind : ShiftKind) (rm : Reg)
  | addImm (c : Cond) (sb : Bool) (rn rd : Reg) (rot : BitVec 4) (imm8 : BitVec 8)
  | addShiftImm (c : Cond) (sb : Bool) (rn rd : Reg) (amount5 : BitVec 5) (kind : ShiftKind) (rm : Reg)
  | addShiftReg (c : Cond) (sb : Bool) (rn rd rs : Reg) (kind : ShiftKind) (rm : Reg)
  | adcImm (c : Cond) (sb : Bool) (rn rd : Reg) (rot : BitVec 4) (imm8 : BitVec 8)
  | adcShiftImm (c : Cond) (sb : Bool) (rn rd : Reg) (amount5 : BitVec 5) (kind : ShiftKind) (rm : Reg)
  | adcShiftReg (c : Cond) (sb : Bool) (rn rd rs : Reg) (kind : ShiftKind) (rm : Reg)
  | sbcImm (c : Cond) (sb : Bool) (rn rd : Reg) (rot : BitVec 4) (imm8 : BitVec 8)
  | sbcShiftImm (c : Cond) (sb : Bool) (rn rd : Reg) (amount5 : BitVec 5) (kind : ShiftKind) (rm : Reg)
  | sbcShiftReg (c : Cond) (sb : Bool) (rn rd rs : Reg) (kind : ShiftKind) (rm : Reg)
  | rscImm (c : Cond) (sb : Bool) (rn rd : Reg) (rot : BitVec 4) (imm8 : BitVec 8)
  | rscShiftImm (c : Cond) (sb : Bool) (rn rd : Reg) (amount5 : BitVec 5) (kind : ShiftKind) (rm : Reg)
  | rscShiftReg (c : Cond) (sb : Bool) (rn rd rs : Reg) (kind : ShiftKind) (rm : Reg)
  | tstImm (c : Cond) (rn rd : Reg) (rot : BitVec 4) (imm8 : BitVec 8)
  | tstShiftImm (c : Cond) (rn rd : Reg) (amount5 : BitVec 5) (kind : ShiftKind) (rm : Reg)
  | tstShiftReg (c : Cond) (rn rd rs : Reg) (kind : ShiftKind) (rm : Reg)
  | teqImm (c : Cond) (rn rd : Reg) (rot : BitVec 4) (imm8 : BitVec 8)
  | teqShiftImm (c : Cond) (rn rd : Reg) (amount5 : BitVec 5) (kind : ShiftKind) (rm : Reg)
  | teqShiftReg (c : Cond) (rn rd rs : Reg) (kind : ShiftKind) (rm : Reg)
  | cmpImm (c : Cond) (rn rd : Reg) (rot : BitVec 4) (imm8 : BitVec 8)
  | cmpShiftImm (c : Cond) (rn rd : Reg) (amount5 : BitVec 5) (kind : ShiftKind) (rm : Reg)
  | cmpShiftReg (c : Cond) (rn rd rs : Reg) (kind : ShiftKind) (rm : Reg)
  | cmnImm (c : Cond) (rn rd : Reg) (rot : BitVec 4) (imm8 : BitVec 8)
  | cmnShiftImm (c : Cond) (rn rd : Reg) (amount5 : BitVec 5) (kind : ShiftKind) (rm : Reg)
  | cmnShiftReg (c : Cond) (rn rd rs : Reg) (kind : ShiftKind) (rm : Reg)
  | orrImm (c : Cond) (sb : Bool) (rn rd : Reg) (rot : BitVec 4) (imm8 : BitVec 8)
  | orrShiftImm (c : Cond) (sb : Bool) (rn rd : Reg) (amount5 : BitVec 5) (kind : ShiftKind) (rm : Reg)
  | orrShiftReg (c : Cond) (sb : Bool) (rn rd rs : Reg) (kind : ShiftKind) (rm : Reg)
  | movImm (c : Cond) (sb : Bool) (rn rd : Reg) (rot : BitVec 4) (imm8 : BitVec 8)
  | movShiftImm (c : Cond) (sb : Bool) (rn rd : Reg) (amount5 : BitVec 5) (kind : ShiftKind) (rm : Reg)
  | movShiftReg (c : Cond) (sb : Bool) (rn rd rs : Reg) (kind : ShiftKind) (rm : Reg)
  | bicImm (c : Cond) (sb : Bool) (rn rd : Reg) (rot : BitVec 4) (imm8 : BitVec 8)
  | bicShiftImm (c : Cond) (sb : Bool) (rn rd : Reg) (amount5 : BitVec 5) (kind : ShiftKind) (rm : Reg)
  | bicShiftReg (c : Cond) (sb : Bool) (rn rd rs : Reg) (kind : ShiftKind) (rm : Reg)
  | mvnImm (c : Cond) (sb : Bool) (rn rd : Reg) (rot : BitVec 4) (imm8 : BitVec 8)
  | mvnShiftImm (c : Cond) (sb : Bool) (rn rd : Reg) (amount5 : BitVec 5) (kind : ShiftKind) (rm : Reg)
  | mvnShiftReg (c : Cond) (sb : Bool) (rn rd rs : Reg) (kind : ShiftKind) (rm : Reg)
  -- PsrTransfer, R97
  | mrs (c : Cond) (ps : Bool) (rd : Reg)
  | msrCpsr (c : Cond) (rm : Reg)
  | msrSpsr (c : Cond) (rm : Reg)
  | msrFlagsReg (c : Cond) (pd : Bool) (rm : Reg)
  | msrFlagsImm (c : Cond) (pd : Bool) (rot : BitVec 4) (imm8 : BitVec 8)
  -- Multiply, R98
  | mul (c : Cond) (sb : Bool) (rd rn rs rm : Reg)
  | mla (c : Cond) (sb : Bool) (rd rn rs rm : Reg)
  -- MultiplyLong, R99
  | umull (c : Cond) (sb : Bool) (rdHi rdLo rs rm : Reg)
  | umlal (c : Cond) (sb : Bool) (rdHi rdLo rs rm : Reg)
  | smull (c : Cond) (sb : Bool) (rdHi rdLo rs rm : Reg)
  | smlal (c : Cond) (sb : Bool) (rdHi rdLo rs rm : Reg)
  -- SingleDataSwap, R100
  | swp (c : Cond) (rn rd rm : Reg)
  | swpb (c : Cond) (rn rd rm : Reg)
  -- BranchExchange, R101
  | bx (c : Cond) (rn : Reg)
  -- HalfwordTransferReg and HalfwordTransferImm, R102, R103
  | strhReg (c : Cond) (p u w : Bool) (rn rd rm : Reg)
  | strhImm (c : Cond) (p u w : Bool) (rn rd : Reg) (hi lo : BitVec 4)
  | ldrhReg (c : Cond) (p u w : Bool) (rn rd rm : Reg)
  | ldrhImm (c : Cond) (p u w : Bool) (rn rd : Reg) (hi lo : BitVec 4)
  | ldrsbReg (c : Cond) (p u w : Bool) (rn rd rm : Reg)
  | ldrsbImm (c : Cond) (p u w : Bool) (rn rd : Reg) (hi lo : BitVec 4)
  | ldrshReg (c : Cond) (p u w : Bool) (rn rd rm : Reg)
  | ldrshImm (c : Cond) (p u w : Bool) (rn rd : Reg) (hi lo : BitVec 4)
  -- SingleDataTransfer, R104
  | strImm (c : Cond) (p u w : Bool) (rn rd : Reg) (offset12 : BitVec 12)
  | strReg (c : Cond) (p u w : Bool) (rn rd : Reg) (amount5 : BitVec 5) (kind : ShiftKind) (rm : Reg)
  | ldrImm (c : Cond) (p u w : Bool) (rn rd : Reg) (offset12 : BitVec 12)
  | ldrReg (c : Cond) (p u w : Bool) (rn rd : Reg) (amount5 : BitVec 5) (kind : ShiftKind) (rm : Reg)
  | strbImm (c : Cond) (p u w : Bool) (rn rd : Reg) (offset12 : BitVec 12)
  | strbReg (c : Cond) (p u w : Bool) (rn rd : Reg) (amount5 : BitVec 5) (kind : ShiftKind) (rm : Reg)
  | ldrbImm (c : Cond) (p u w : Bool) (rn rd : Reg) (offset12 : BitVec 12)
  | ldrbReg (c : Cond) (p u w : Bool) (rn rd : Reg) (amount5 : BitVec 5) (kind : ShiftKind) (rm : Reg)
  -- BlockDataTransfer, R106
  | stm (c : Cond) (p u sb w : Bool) (rn : Reg) (list : BitVec 16)
  | ldm (c : Cond) (p u sb w : Bool) (rn : Reg) (list : BitVec 16)
  -- Branch, R107
  | b (c : Cond) (offset24 : BitVec 24)
  | bl (c : Cond) (offset24 : BitVec 24)
  -- CoprocessorTransfer, CoprocessorOp, CoprocessorRegTransfer, R108 to R110
  | stc (c : Cond) (p u n w : Bool) (rn : Reg) (crd cpNum : BitVec 4) (offset8 : BitVec 8)
  | ldc (c : Cond) (p u n w : Bool) (rn : Reg) (crd cpNum : BitVec 4) (offset8 : BitVec 8)
  | cdp (c : Cond) (opc crn crd cpNum : BitVec 4) (cp : BitVec 3) (crm : BitVec 4)
  | mcr (c : Cond) (opc : BitVec 3) (crn : BitVec 4) (rd : Reg) (cpNum : BitVec 4) (cp : BitVec 3) (crm : BitVec 4)
  | mrc (c : Cond) (opc : BitVec 3) (crn : BitVec 4) (rd : Reg) (cpNum : BitVec 4) (cp : BitVec 3) (crm : BitVec 4)
  -- SoftwareInterrupt, R111
  | swi (c : Cond) (comment : BitVec 24)
  -- Undefined, R105: bits 27:0 of a word that holds no instruction, kept so that it can be encoded again
  | undefined (c : Cond) (body : BitVec 28)
deriving DecidableEq, Repr

/-- The condition field of an instruction (R91). -/
def Instr.cond : Instr → Cond
  | .andImm c _ _ _ _ _ => c
  | .andShiftImm c _ _ _ _ _ _ => c
  | .andShiftReg c _ _ _ _ _ _ => c
  | .eorImm c _ _ _ _ _ => c
  | .eorShiftImm c _ _ _ _ _ _ => c
  | .eorShiftReg c _ _ _ _ _ _ => c
  | .subImm c _ _ _ _ _ => c
  | .subShiftImm c _ _ _ _ _ _ => c
  | .subShiftReg c _ _ _ _ _ _ => c
  | .rsbImm c _ _ _ _ _ => c
  | .rsbShiftImm c _ _ _ _ _ _ => c
  | .rsbShiftReg c _ _ _ _ _ _ => c
  | .addImm c _ _ _ _ _ => c
  | .addShiftImm c _ _ _ _ _ _ => c
  | .addShiftReg c _ _ _ _ _ _ => c
  | .adcImm c _ _ _ _ _ => c
  | .adcShiftImm c _ _ _ _ _ _ => c
  | .adcShiftReg c _ _ _ _ _ _ => c
  | .sbcImm c _ _ _ _ _ => c
  | .sbcShiftImm c _ _ _ _ _ _ => c
  | .sbcShiftReg c _ _ _ _ _ _ => c
  | .rscImm c _ _ _ _ _ => c
  | .rscShiftImm c _ _ _ _ _ _ => c
  | .rscShiftReg c _ _ _ _ _ _ => c
  | .tstImm c _ _ _ _ => c
  | .tstShiftImm c _ _ _ _ _ => c
  | .tstShiftReg c _ _ _ _ _ => c
  | .teqImm c _ _ _ _ => c
  | .teqShiftImm c _ _ _ _ _ => c
  | .teqShiftReg c _ _ _ _ _ => c
  | .cmpImm c _ _ _ _ => c
  | .cmpShiftImm c _ _ _ _ _ => c
  | .cmpShiftReg c _ _ _ _ _ => c
  | .cmnImm c _ _ _ _ => c
  | .cmnShiftImm c _ _ _ _ _ => c
  | .cmnShiftReg c _ _ _ _ _ => c
  | .orrImm c _ _ _ _ _ => c
  | .orrShiftImm c _ _ _ _ _ _ => c
  | .orrShiftReg c _ _ _ _ _ _ => c
  | .movImm c _ _ _ _ _ => c
  | .movShiftImm c _ _ _ _ _ _ => c
  | .movShiftReg c _ _ _ _ _ _ => c
  | .bicImm c _ _ _ _ _ => c
  | .bicShiftImm c _ _ _ _ _ _ => c
  | .bicShiftReg c _ _ _ _ _ _ => c
  | .mvnImm c _ _ _ _ _ => c
  | .mvnShiftImm c _ _ _ _ _ _ => c
  | .mvnShiftReg c _ _ _ _ _ _ => c
  | .mrs c _ _ => c
  | .msrCpsr c _ => c
  | .msrSpsr c _ => c
  | .msrFlagsReg c _ _ => c
  | .msrFlagsImm c _ _ _ => c
  | .mul c _ _ _ _ _ => c
  | .mla c _ _ _ _ _ => c
  | .umull c _ _ _ _ _ => c
  | .umlal c _ _ _ _ _ => c
  | .smull c _ _ _ _ _ => c
  | .smlal c _ _ _ _ _ => c
  | .swp c _ _ _ => c
  | .swpb c _ _ _ => c
  | .bx c _ => c
  | .strhReg c _ _ _ _ _ _ => c
  | .strhImm c _ _ _ _ _ _ _ => c
  | .ldrhReg c _ _ _ _ _ _ => c
  | .ldrhImm c _ _ _ _ _ _ _ => c
  | .ldrsbReg c _ _ _ _ _ _ => c
  | .ldrsbImm c _ _ _ _ _ _ _ => c
  | .ldrshReg c _ _ _ _ _ _ => c
  | .ldrshImm c _ _ _ _ _ _ _ => c
  | .strImm c _ _ _ _ _ _ => c
  | .strReg c _ _ _ _ _ _ _ _ => c
  | .ldrImm c _ _ _ _ _ _ => c
  | .ldrReg c _ _ _ _ _ _ _ _ => c
  | .strbImm c _ _ _ _ _ _ => c
  | .strbReg c _ _ _ _ _ _ _ _ => c
  | .ldrbImm c _ _ _ _ _ _ => c
  | .ldrbReg c _ _ _ _ _ _ _ _ => c
  | .stm c _ _ _ _ _ _ => c
  | .ldm c _ _ _ _ _ _ => c
  | .b c _ => c
  | .bl c _ => c
  | .stc c _ _ _ _ _ _ _ _ => c
  | .ldc c _ _ _ _ _ _ _ _ => c
  | .cdp c _ _ _ _ _ _ => c
  | .mcr c _ _ _ _ _ _ => c
  | .mrc c _ _ _ _ _ _ => c
  | .swi c _ => c
  | .undefined c _ => c

end Sys2Proof
end

