-- ==== Sys2Proof/WellFormed.lean ====
section
/-! DEFINITION. Which terms of `Instr` a word can hold. The field types already bound every field, so the
only check is that the bits of an `undefined` are those of a word without an instruction, as
spec/30_encoding.md R105 lists them: (a) the architected undefined space, (b) the Undefined rows of R120,
(c) the last row of R121. The check is written from those rules and not from the decoder. -/

namespace Sys2Proof

/-- R105 (a), R93 step 5: bits 27:25 = 011 and bit 4 = 1. -/
def architectedUndefined (b : BitVec 28) : Bool :=
  b.extractLsb' 25 3 == 0b011#3 && b.getLsbD 4

/-- The extension space of R93 step 1: bits 27:25 = 000, bit 7 = 1, bit 4 = 1. -/
def inExtensionSpace (b : BitVec 28) : Bool :=
  b.extractLsb' 25 3 == 0b000#3 && b.getLsbD 7 && b.getLsbD 4

/-- R105 (b): the Undefined rows of R120 (bits 6:5 = 00 outside multiply, long multiply and swap; a signed
store; a register-offset halfword transfer with bits 11:8 not 0). -/
def extensionUndefined (b : BitVec 28) : Bool :=
  inExtensionSpace b &&
    if b.extractLsb' 5 2 == 0b00#2 then
      b.extractLsb' 22 3 == 0b001#3 || b.extractLsb' 23 2 == 0b11#2
        || (b.extractLsb' 23 2 == 0b10#2
            && (b.extractLsb' 20 2 != 0b00#2 || b.extractLsb' 8 4 != 0b0000#4))
    else
      (!b.getLsbD 20 && b.extractLsb' 5 2 != 0b01#2)
        || (!b.getLsbD 22 && b.extractLsb' 8 4 != 0b0000#4)

/-- The PSR space of R93 step 3, less the words steps 1 and 2 take (the extension space and BX). -/
def inPsrSpace (b : BitVec 28) : Bool :=
  !inExtensionSpace b && b.extractLsb' 4 24 != 0x012FFF1#24
    && b.extractLsb' 26 2 == 0b00#2 && b.extractLsb' 23 2 == 0b10#2 && !b.getLsbD 20

/-- R105 (c): a word of the PSR space that is none of MRS, MSR from a register, MSR from an immediate (R121). -/
def psrUndefined (b : BitVec 28) : Bool :=
  inPsrSpace b
    && !(!b.getLsbD 25 && b.extractLsb' 16 6 == 0b001111#6 && b.extractLsb' 0 12 == 0#12)
    && !(!b.getLsbD 25 && b.extractLsb' 17 5 == 0b10100#5 && b.extractLsb' 12 4 == 0b1111#4
          && b.extractLsb' 4 8 == 0#8)
    && !(b.getLsbD 25 && b.extractLsb' 16 6 == 0b101000#6 && b.extractLsb' 12 4 == 0b1111#4)

/-- Bits 27:0 of a word that holds no instruction (R105, R115). -/
def undefinedBits (b : BitVec 28) : Bool :=
  architectedUndefined b || extensionUndefined b || psrUndefined b

/-- Can a word hold this instruction? Only `undefined` restricts its field. -/
def Instr.wellFormed : Instr → Bool
  | .undefined _ body => undefinedBits body
  | .andImm .. | .andShiftImm .. | .andShiftReg .. | .eorImm .. | .eorShiftImm .. | .eorShiftReg ..
  | .subImm .. | .subShiftImm .. | .subShiftReg .. | .rsbImm .. | .rsbShiftImm .. | .rsbShiftReg ..
  | .addImm .. | .addShiftImm .. | .addShiftReg .. | .adcImm .. | .adcShiftImm .. | .adcShiftReg ..
  | .sbcImm .. | .sbcShiftImm .. | .sbcShiftReg .. | .rscImm .. | .rscShiftImm .. | .rscShiftReg ..
  | .tstImm .. | .tstShiftImm .. | .tstShiftReg .. | .teqImm .. | .teqShiftImm .. | .teqShiftReg ..
  | .cmpImm .. | .cmpShiftImm .. | .cmpShiftReg .. | .cmnImm .. | .cmnShiftImm .. | .cmnShiftReg ..
  | .orrImm .. | .orrShiftImm .. | .orrShiftReg .. | .movImm .. | .movShiftImm .. | .movShiftReg ..
  | .bicImm .. | .bicShiftImm .. | .bicShiftReg .. | .mvnImm .. | .mvnShiftImm .. | .mvnShiftReg .. | .mrs ..
  | .msrCpsr .. | .msrSpsr .. | .msrFlagsReg .. | .msrFlagsImm .. | .mul .. | .mla .. | .umull .. | .umlal ..
  | .smull .. | .smlal .. | .swp .. | .swpb .. | .bx .. | .strhReg .. | .strhImm .. | .ldrhReg .. | .ldrhImm ..
  | .ldrsbReg .. | .ldrsbImm .. | .ldrshReg .. | .ldrshImm .. | .strImm .. | .strReg .. | .ldrImm ..
  | .ldrReg .. | .strbImm .. | .strbReg .. | .ldrbImm .. | .ldrbReg .. | .stm .. | .ldm .. | .b .. | .bl ..
  | .stc .. | .ldc .. | .cdp .. | .mcr .. | .mrc .. | .swi .. => true

end Sys2Proof
end

