-- ==== Sys2Proof/Decode.lean ====
section
/-! DEFINITION. The decoder, total on every 32-bit word, in the order of spec/30_encoding.md R93, R120, R121;
the byte-level decoder over it, which rejects by name; and the encoder, written from the format tables
R94 to R111. Decoding reads no state and never looks at the condition to choose a variant (R91, R92, R142). -/

namespace Sys2Proof

/-! ## Numbers of the encoded names -/

/-- The condition numbers of R150. -/
def Cond.bits : Cond → BitVec 4
  | .eq => 0 | .ne => 1 | .cs => 2 | .cc => 3 | .mi => 4 | .pl => 5 | .vs => 6 | .vc => 7
  | .hi => 8 | .ls => 9 | .ge => 10 | .lt => 11 | .gt => 12 | .le => 13 | .al => 14 | .nv => 15

/-- The condition a number names (R150). -/
def Cond.ofBits (b : BitVec 4) : Cond :=
  match b.toNat with
  | 0 => .eq | 1 => .ne | 2 => .cs | 3 => .cc | 4 => .mi | 5 => .pl | 6 => .vs | 7 => .vc
  | 8 => .hi | 9 => .ls | 10 => .ge | 11 => .lt | 12 => .gt | 13 => .le | 14 => .al | _ => .nv

/-- The shift kind numbers of R113. -/
def ShiftKind.bits : ShiftKind → BitVec 2
  | .lsl => 0 | .lsr => 1 | .asr => 2 | .ror => 3

/-- The shift kind a number names (R113). -/
def ShiftKind.ofBits (b : BitVec 2) : ShiftKind :=
  match b.toNat with
  | 0 => .lsl | 1 => .lsr | 2 => .asr | _ => .ror

/-- The opcode numbers of R112. -/
def DpOp.bits : DpOp → BitVec 4
  | .and => 0 | .eor => 1 | .sub => 2 | .rsb => 3 | .add => 4 | .adc => 5 | .sbc => 6 | .rsc => 7
  | .tst => 8 | .teq => 9 | .cmp => 10 | .cmn => 11 | .orr => 12 | .mov => 13 | .bic => 14 | .mvn => 15

/-- The operation an opcode number names (R112). -/
def DpOp.ofBits (b : BitVec 4) : DpOp :=
  match b.toNat with
  | 0 => .and | 1 => .eor | 2 => .sub | 3 => .rsb | 4 => .add | 5 => .adc | 6 => .sbc | 7 => .rsc
  | 8 => .tst | 9 => .teq | 10 => .cmp | 11 => .cmn | 12 => .orr | 13 => .mov | 14 => .bic | _ => .mvn

/-- Bits `lo + len - 1` down to `lo` of a word, written `w[hi:lo]` in R14. -/
def bits (w : Word) (lo len : Nat) : BitVec len := w.extractLsb' lo len

/-- Bit `i` of a word, written `w[i]` in R14. -/
def bit (w : Word) (i : Nat) : Bool := w.getLsbD i

/-- The register number in the four bits from `lo` up. -/
def regAt (w : Word) (lo : Nat) : Reg := (bits w lo 4).toFin

/-! ## From an operation and its operand form to the table's row -/

/-- The data-processing instruction of an operation and an operand2 form. The S bit of a compare is always 1
and is no field (R226). -/
def Instr.ofDp (op : DpOp) (c : Cond) (sb : Bool) (rn rd : Reg) (o : Operand2) : Instr :=
  match op, o with
  | .and, .imm rot imm8 => .andImm c sb rn rd rot imm8
  | .and, .shiftImm amount5 kind rm => .andShiftImm c sb rn rd amount5 kind rm
  | .and, .shiftReg rs kind rm => .andShiftReg c sb rn rd rs kind rm
  | .eor, .imm rot imm8 => .eorImm c sb rn rd rot imm8
  | .eor, .shiftImm amount5 kind rm => .eorShiftImm c sb rn rd amount5 kind rm
  | .eor, .shiftReg rs kind rm => .eorShiftReg c sb rn rd rs kind rm
  | .sub, .imm rot imm8 => .subImm c sb rn rd rot imm8
  | .sub, .shiftImm amount5 kind rm => .subShiftImm c sb rn rd amount5 kind rm
  | .sub, .shiftReg rs kind rm => .subShiftReg c sb rn rd rs kind rm
  | .rsb, .imm rot imm8 => .rsbImm c sb rn rd rot imm8
  | .rsb, .shiftImm amount5 kind rm => .rsbShiftImm c sb rn rd amount5 kind rm
  | .rsb, .shiftReg rs kind rm => .rsbShiftReg c sb rn rd rs kind rm
  | .add, .imm rot imm8 => .addImm c sb rn rd rot imm8
  | .add, .shiftImm amount5 kind rm => .addShiftImm c sb rn rd amount5 kind rm
  | .add, .shiftReg rs kind rm => .addShiftReg c sb rn rd rs kind rm
  | .adc, .imm rot imm8 => .adcImm c sb rn rd rot imm8
  | .adc, .shiftImm amount5 kind rm => .adcShiftImm c sb rn rd amount5 kind rm
  | .adc, .shiftReg rs kind rm => .adcShiftReg c sb rn rd rs kind rm
  | .sbc, .imm rot imm8 => .sbcImm c sb rn rd rot imm8
  | .sbc, .shiftImm amount5 kind rm => .sbcShiftImm c sb rn rd amount5 kind rm
  | .sbc, .shiftReg rs kind rm => .sbcShiftReg c sb rn rd rs kind rm
  | .rsc, .imm rot imm8 => .rscImm c sb rn rd rot imm8
  | .rsc, .shiftImm amount5 kind rm => .rscShiftImm c sb rn rd amount5 kind rm
  | .rsc, .shiftReg rs kind rm => .rscShiftReg c sb rn rd rs kind rm
  | .tst, .imm rot imm8 => .tstImm c rn rd rot imm8
  | .tst, .shiftImm amount5 kind rm => .tstShiftImm c rn rd amount5 kind rm
  | .tst, .shiftReg rs kind rm => .tstShiftReg c rn rd rs kind rm
  | .teq, .imm rot imm8 => .teqImm c rn rd rot imm8
  | .teq, .shiftImm amount5 kind rm => .teqShiftImm c rn rd amount5 kind rm
  | .teq, .shiftReg rs kind rm => .teqShiftReg c rn rd rs kind rm
  | .cmp, .imm rot imm8 => .cmpImm c rn rd rot imm8
  | .cmp, .shiftImm amount5 kind rm => .cmpShiftImm c rn rd amount5 kind rm
  | .cmp, .shiftReg rs kind rm => .cmpShiftReg c rn rd rs kind rm
  | .cmn, .imm rot imm8 => .cmnImm c rn rd rot imm8
  | .cmn, .shiftImm amount5 kind rm => .cmnShiftImm c rn rd amount5 kind rm
  | .cmn, .shiftReg rs kind rm => .cmnShiftReg c rn rd rs kind rm
  | .orr, .imm rot imm8 => .orrImm c sb rn rd rot imm8
  | .orr, .shiftImm amount5 kind rm => .orrShiftImm c sb rn rd amount5 kind rm
  | .orr, .shiftReg rs kind rm => .orrShiftReg c sb rn rd rs kind rm
  | .mov, .imm rot imm8 => .movImm c sb rn rd rot imm8
  | .mov, .shiftImm amount5 kind rm => .movShiftImm c sb rn rd amount5 kind rm
  | .mov, .shiftReg rs kind rm => .movShiftReg c sb rn rd rs kind rm
  | .bic, .imm rot imm8 => .bicImm c sb rn rd rot imm8
  | .bic, .shiftImm amount5 kind rm => .bicShiftImm c sb rn rd amount5 kind rm
  | .bic, .shiftReg rs kind rm => .bicShiftReg c sb rn rd rs kind rm
  | .mvn, .imm rot imm8 => .mvnImm c sb rn rd rot imm8
  | .mvn, .shiftImm amount5 kind rm => .mvnShiftImm c sb rn rd amount5 kind rm
  | .mvn, .shiftReg rs kind rm => .mvnShiftReg c sb rn rd rs kind rm

/-- The single data transfer of an operation and an offset form (R104). -/
def Instr.ofSingle (op : SingleOp) (c : Cond) (p u w : Bool) (rn rd : Reg) (o : WordOffset) : Instr :=
  match op, o with
  | .str, .imm offset12 => .strImm c p u w rn rd offset12
  | .str, .reg amount5 kind rm => .strReg c p u w rn rd amount5 kind rm
  | .ldr, .imm offset12 => .ldrImm c p u w rn rd offset12
  | .ldr, .reg amount5 kind rm => .ldrReg c p u w rn rd amount5 kind rm
  | .strb, .imm offset12 => .strbImm c p u w rn rd offset12
  | .strb, .reg amount5 kind rm => .strbReg c p u w rn rd amount5 kind rm
  | .ldrb, .imm offset12 => .ldrbImm c p u w rn rd offset12
  | .ldrb, .reg amount5 kind rm => .ldrbReg c p u w rn rd amount5 kind rm

/-- The halfword or signed transfer of an operation and an offset form (R102, R103). -/
def Instr.ofHalf (op : HalfOp) (c : Cond) (p u w : Bool) (rn rd : Reg) (o : HalfOffset) : Instr :=
  match op, o with
  | .strh, .imm hi lo => .strhImm c p u w rn rd hi lo
  | .strh, .reg rm => .strhReg c p u w rn rd rm
  | .ldrh, .imm hi lo => .ldrhImm c p u w rn rd hi lo
  | .ldrh, .reg rm => .ldrhReg c p u w rn rd rm
  | .ldrsb, .imm hi lo => .ldrsbImm c p u w rn rd hi lo
  | .ldrsb, .reg rm => .ldrsbReg c p u w rn rd rm
  | .ldrsh, .imm hi lo => .ldrshImm c p u w rn rd hi lo
  | .ldrsh, .reg rm => .ldrshReg c p u w rn rd rm

/-! ## The decoder -/

/-- The variant Undefined of R105, with the bits it was read from. -/
def decodeUndefined (c : Cond) (w : Word) : Instr := .undefined c (bits w 0 28)

/-- Multiply (R98): bit 21 is A. -/
def decodeMultiply (c : Cond) (w : Word) : Instr :=
  if bit w 21 then .mla c (bit w 20) (regAt w 16) (regAt w 12) (regAt w 8) (regAt w 0)
  else .mul c (bit w 20) (regAt w 16) (regAt w 12) (regAt w 8) (regAt w 0)

/-- MultiplyLong (R99): bit 22 is U (1 signed), bit 21 is A. -/
def decodeMultiplyLong (c : Cond) (w : Word) : Instr :=
  match bit w 22, bit w 21 with
  | false, false => .umull c (bit w 20) (regAt w 16) (regAt w 12) (regAt w 8) (regAt w 0)
  | false, true  => .umlal c (bit w 20) (regAt w 16) (regAt w 12) (regAt w 8) (regAt w 0)
  | true,  false => .smull c (bit w 20) (regAt w 16) (regAt w 12) (regAt w 8) (regAt w 0)
  | true,  true  => .smlal c (bit w 20) (regAt w 16) (regAt w 12) (regAt w 8) (regAt w 0)

/-- SingleDataSwap (R100): bit 22 is B. -/
def decodeSwap (c : Cond) (w : Word) : Instr :=
  if bit w 22 then .swpb c (regAt w 16) (regAt w 12) (regAt w 0)
  else .swp c (regAt w 16) (regAt w 12) (regAt w 0)

/-- The halfword or signed transfer named by L and SH (R102); SH is not 00 where this is called, and a
signed store was taken out before (R120). -/
def HalfOp.ofBits (l : Bool) (sh : BitVec 2) : HalfOp :=
  if l then (if sh = 0b01#2 then .ldrh else if sh = 0b10#2 then .ldrsb else .ldrsh) else .strh

/-- A halfword or signed transfer with the given offset form (R102, R103). -/
def decodeHalf (c : Cond) (w : Word) (o : HalfOffset) : Instr :=
  Instr.ofHalf (HalfOp.ofBits (bit w 20) (bits w 5 2)) c (bit w 24) (bit w 23) (bit w 21)
    (regAt w 16) (regAt w 12) o

/-- The extension space, first match of R120. -/
def decodeExtension (c : Cond) (w : Word) : Instr :=
  if bits w 5 2 = 0b00#2 then
    if bits w 22 3 = 0b000#3 then decodeMultiply c w
    else if bits w 23 2 = 0b01#2 then decodeMultiplyLong c w
    else if bits w 23 2 = 0b10#2 ∧ bits w 20 2 = 0b00#2 ∧ bits w 8 4 = 0b0000#4 then decodeSwap c w
    else decodeUndefined c w
  else if bit w 20 = false ∧ bits w 5 2 ≠ 0b01#2 then decodeUndefined c w
  else if bit w 22 = false then
    if bits w 8 4 = 0b0000#4 then decodeHalf c w (.reg (regAt w 0))
    else decodeUndefined c w
  else decodeHalf c w (.imm (bits w 8 4) (bits w 0 4))

/-- The PSR space, first match of R121. -/
def decodePsr (c : Cond) (w : Word) : Instr :=
  if bit w 25 = false ∧ bits w 16 6 = 0b001111#6 ∧ bits w 0 12 = 0#12 then
    .mrs c (bit w 22) (regAt w 12)
  else if bit w 25 = false ∧ bits w 17 5 = 0b10100#5 ∧ bits w 12 4 = 0b1111#4 ∧ bits w 4 8 = 0#8 then
    if bit w 16 then
      if bit w 22 then .msrSpsr c (regAt w 0) else .msrCpsr c (regAt w 0)
    else .msrFlagsReg c (bit w 22) (regAt w 0)
  else if bit w 25 = true ∧ bits w 16 6 = 0b101000#6 ∧ bits w 12 4 = 0b1111#4 then
    .msrFlagsImm c (bit w 22) (bits w 8 4) (bits w 0 8)
  else decodeUndefined c w

/-- The operand2 form of a data-processing word (R94 to R96): I is bit 25, and bit 4 selects the source of
the amount. -/
def decodeOperand2 (w : Word) : Operand2 :=
  if bit w 25 then .imm (bits w 8 4) (bits w 0 8)
  else if bit w 4 then .shiftReg (regAt w 8) (ShiftKind.ofBits (bits w 5 2)) (regAt w 0)
  else .shiftImm (bits w 7 5) (ShiftKind.ofBits (bits w 5 2)) (regAt w 0)

/-- DataProcessing (R94). -/
def decodeDp (c : Cond) (w : Word) : Instr :=
  Instr.ofDp (DpOp.ofBits (bits w 21 4)) c (bit w 20) (regAt w 16) (regAt w 12) (decodeOperand2 w)

/-- The single data transfer named by L (bit 20) and B (bit 22) (R104). -/
def SingleOp.ofBits (l b : Bool) : SingleOp :=
  match l, b with
  | false, false => .str
  | true,  false => .ldr
  | false, true  => .strb
  | true,  true  => .ldrb

/-- SingleDataTransfer (R104): here I = 1 is the register offset. -/
def decodeSingle (c : Cond) (w : Word) : Instr :=
  Instr.ofSingle (SingleOp.ofBits (bit w 20) (bit w 22)) c (bit w 24) (bit w 23) (bit w 21)
    (regAt w 16) (regAt w 12)
    (if bit w 25 then .reg (bits w 7 5) (ShiftKind.ofBits (bits w 5 2)) (regAt w 0)
     else .imm (bits w 0 12))

/-- BlockDataTransfer (R106). -/
def decodeBlock (c : Cond) (w : Word) : Instr :=
  if bit w 20 then .ldm c (bit w 24) (bit w 23) (bit w 22) (bit w 21) (regAt w 16) (bits w 0 16)
  else .stm c (bit w 24) (bit w 23) (bit w 22) (bit w 21) (regAt w 16) (bits w 0 16)

/-- Branch (R107): bit 24 is L. -/
def decodeBranch (c : Cond) (w : Word) : Instr :=
  if bit w 24 then .bl c (bits w 0 24) else .b c (bits w 0 24)

/-- CoprocessorTransfer (R108): bit 20 is L. -/
def decodeCopTransfer (c : Cond) (w : Word) : Instr :=
  if bit w 20 then
    .ldc c (bit w 24) (bit w 23) (bit w 22) (bit w 21) (regAt w 16) (bits w 12 4) (bits w 8 4) (bits w 0 8)
  else
    .stc c (bit w 24) (bit w 23) (bit w 22) (bit w 21) (regAt w 16) (bits w 12 4) (bits w 8 4) (bits w 0 8)

/-- CoprocessorOp (R109). -/
def decodeCopOp (c : Cond) (w : Word) : Instr :=
  .cdp c (bits w 20 4) (bits w 16 4) (bits w 12 4) (bits w 8 4) (bits w 5 3) (bits w 0 4)

/-- CoprocessorRegTransfer (R110): bit 20 is L. -/
def decodeCopReg (c : Cond) (w : Word) : Instr :=
  if bit w 20 then .mrc c (bits w 21 3) (bits w 16 4) (regAt w 12) (bits w 8 4) (bits w 5 3) (bits w 0 4)
  else .mcr c (bits w 21 3) (bits w 16 4) (regAt w 12) (bits w 8 4) (bits w 5 3) (bits w 0 4)

/-- The decoder of one word: the first test of R93 that holds. Never fails (R92). -/
def decodeWord (w : Word) : Instr :=
  let c := Cond.ofBits (bits w 28 4)
  if bits w 25 3 = 0b000#3 ∧ bit w 7 = true ∧ bit w 4 = true then decodeExtension c w
  else if bits w 4 24 = 0x012FFF1#24 then .bx c (regAt w 0)
  else if bits w 26 2 = 0b00#2 ∧ bits w 23 2 = 0b10#2 ∧ bit w 20 = false then decodePsr c w
  else if bits w 26 2 = 0b00#2 then decodeDp c w
  else if bits w 25 3 = 0b011#3 ∧ bit w 4 = true then decodeUndefined c w
  else if bits w 26 2 = 0b01#2 then decodeSingle c w
  else if bits w 25 3 = 0b100#3 then decodeBlock c w
  else if bits w 25 3 = 0b101#3 then decodeBranch c w
  else if bits w 25 3 = 0b110#3 then decodeCopTransfer c w
  else if bits w 24 4 = 0b1110#4 ∧ bit w 4 = false then decodeCopOp c w
  else if bits w 24 4 = 0b1110#4 then decodeCopReg c w
  else .swi c (bits w 0 24)

/-- Why bytes hold no instruction. -/
inductive DecodeError where
  /-- Fewer than the four bytes of a word (R90). No run of the machine meets it: `step` fetches whole words. -/
  | truncated
deriving DecidableEq, Repr

/-- The word four bytes make, the first at the lowest address: little-endian (R64). -/
def wordOfBytes (b0 b1 b2 b3 : Byte) : Word := b3 ++ b2 ++ b1 ++ b0

/-- The four bytes of a word, lowest address first (R64). -/
def bytesOfWord (w : Word) : List Byte := [w.extractLsb' 0 8, w.extractLsb' 8 8, w.extractLsb' 16 8, w.extractLsb' 24 8]

/-- One instruction from the front of a list of bytes, with the bytes after it. -/
def decode : List Byte → Except DecodeError (Instr × List Byte)
  | b0 :: b1 :: b2 :: b3 :: rest => .ok (decodeWord (wordOfBytes b0 b1 b2 b3), rest)
  | _ => .error .truncated

/-- The instruction the decoder reads from an instruction whose bits are `w`, numbered as
spec/opcode_table.json numbers them; every bit above `nbits` is 0. -/
def decodeTableWord (nbits w : Nat) : Option Instr :=
  match decode (bytesOfWord (BitVec.ofNat 32 (w % 2 ^ nbits))) with
  | .ok (i, _) => some i
  | .error _ => none

/-! ## The encoder -/

/-- A register number as a field. -/
def regBits (r : Reg) : BitVec 4 := BitVec.ofFin r

/-- A one-bit field. -/
def flag (b : Bool) : BitVec 1 := BitVec.ofBool b

/-- DataProcessing (R94 to R96). -/
def encodeDp (op : DpOp) (c : Cond) (sb : Bool) (rn rd : Reg) (o : Operand2) : Word :=
  match o with
  | .imm rot imm8 =>
    c.bits ++ 0b001#3 ++ op.bits ++ flag sb ++ regBits rn ++ regBits rd ++ rot ++ imm8
  | .shiftImm amount5 kind rm =>
    c.bits ++ 0b000#3 ++ op.bits ++ flag sb ++ regBits rn ++ regBits rd ++ amount5 ++ kind.bits ++ 0#1 ++ regBits rm
  | .shiftReg rs kind rm =>
    c.bits ++ 0b000#3 ++ op.bits ++ flag sb ++ regBits rn ++ regBits rd ++ regBits rs ++ 0#1 ++ kind.bits ++ 1#1
      ++ regBits rm

/-- MSR from a register (R97): `full` is bit 16. -/
def encodeMsrReg (c : Cond) (pd full : Bool) (rm : Reg) : Word :=
  c.bits ++ 0b00010#5 ++ flag pd ++ 0b10100#5 ++ flag full ++ 0b1111#4 ++ 0#8 ++ regBits rm

/-- Multiply (R98). -/
def encodeMultiply (c : Cond) (a sb : Bool) (rd rn rs rm : Reg) : Word :=
  c.bits ++ 0b000000#6 ++ flag a ++ flag sb ++ regBits rd ++ regBits rn ++ regBits rs ++ 0b1001#4 ++ regBits rm

/-- MultiplyLong (R99). -/
def encodeMultiplyLong (c : Cond) (u a sb : Bool) (rdHi rdLo rs rm : Reg) : Word :=
  c.bits ++ 0b00001#5 ++ flag u ++ flag a ++ flag sb ++ regBits rdHi ++ regBits rdLo ++ regBits rs ++ 0b1001#4
    ++ regBits rm

/-- SingleDataSwap (R100). -/
def encodeSwap (c : Cond) (b : Bool) (rn rd rm : Reg) : Word :=
  c.bits ++ 0b00010#5 ++ flag b ++ 0b00#2 ++ regBits rn ++ regBits rd ++ 0b00001001#8 ++ regBits rm

/-- The bit L of a halfword or signed transfer (R102). -/
def HalfOp.load : HalfOp → Bool
  | .strh => false
  | .ldrh | .ldrsb | .ldrsh => true

/-- The field SH of a halfword or signed transfer (R102). -/
def HalfOp.sh : HalfOp → BitVec 2
  | .strh | .ldrh => 0b01
  | .ldrsb => 0b10
  | .ldrsh => 0b11

/-- HalfwordTransferReg and HalfwordTransferImm (R102, R103). -/
def encodeHalf (op : HalfOp) (c : Cond) (p u w : Bool) (rn rd : Reg) (o : HalfOffset) : Word :=
  match o with
  | .reg rm =>
    c.bits ++ 0b000#3 ++ flag p ++ flag u ++ 0#1 ++ flag w ++ flag op.load ++ regBits rn ++ regBits rd ++ 0#4 ++ 1#1
      ++ op.sh ++ 1#1 ++ regBits rm
  | .imm hi lo =>
    c.bits ++ 0b000#3 ++ flag p ++ flag u ++ 1#1 ++ flag w ++ flag op.load ++ regBits rn ++ regBits rd ++ hi ++ 1#1
      ++ op.sh ++ 1#1 ++ lo

/-- The bit L of a single data transfer (R104). -/
def SingleOp.load : SingleOp → Bool
  | .str | .strb => false
  | .ldr | .ldrb => true

/-- The bit B of a single data transfer (R104). -/
def SingleOp.byte : SingleOp → Bool
  | .str | .ldr => false
  | .strb | .ldrb => true

/-- SingleDataTransfer (R104). -/
def encodeSingle (op : SingleOp) (c : Cond) (p u w : Bool) (rn rd : Reg) (o : WordOffset) : Word :=
  match o with
  | .imm offset12 =>
    c.bits ++ 0b010#3 ++ flag p ++ flag u ++ flag op.byte ++ flag w ++ flag op.load ++ regBits rn ++ regBits rd
      ++ offset12
  | .reg amount5 kind rm =>
    c.bits ++ 0b011#3 ++ flag p ++ flag u ++ flag op.byte ++ flag w ++ flag op.load ++ regBits rn ++ regBits rd
      ++ amount5 ++ kind.bits ++ 0#1 ++ regBits rm

/-- BlockDataTransfer (R106). -/
def encodeBlock (c : Cond) (p u sb w l : Bool) (rn : Reg) (list : BitVec 16) : Word :=
  c.bits ++ 0b100#3 ++ flag p ++ flag u ++ flag sb ++ flag w ++ flag l ++ regBits rn ++ list

/-- CoprocessorTransfer (R108). -/
def encodeCopTransfer (c : Cond) (p u n w l : Bool) (rn : Reg) (crd cpNum : BitVec 4) (offset8 : BitVec 8) : Word :=
  c.bits ++ 0b110#3 ++ flag p ++ flag u ++ flag n ++ flag w ++ flag l ++ regBits rn ++ crd ++ cpNum ++ offset8

/-- CoprocessorRegTransfer (R110). -/
def encodeCopReg (c : Cond) (l : Bool) (opc : BitVec 3) (crn : BitVec 4) (rd : Reg) (cpNum : BitVec 4)
    (cp : BitVec 3) (crm : BitVec 4) : Word :=
  c.bits ++ 0b1110#4 ++ opc ++ flag l ++ crn ++ regBits rd ++ cpNum ++ cp ++ 1#1 ++ crm

/-- The word of an instruction, from the format tables R94 to R111. -/
def encode : Instr → Word
  | .andImm c sb rn rd rot imm8 => encodeDp .and c sb rn rd (.imm rot imm8)
  | .andShiftImm c sb rn rd amount5 kind rm => encodeDp .and c sb rn rd (.shiftImm amount5 kind rm)
  | .andShiftReg c sb rn rd rs kind rm => encodeDp .and c sb rn rd (.shiftReg rs kind rm)
  | .eorImm c sb rn rd rot imm8 => encodeDp .eor c sb rn rd (.imm rot imm8)
  | .eorShiftImm c sb rn rd amount5 kind rm => encodeDp .eor c sb rn rd (.shiftImm amount5 kind rm)
  | .eorShiftReg c sb rn rd rs kind rm => encodeDp .eor c sb rn rd (.shiftReg rs kind rm)
  | .subImm c sb rn rd rot imm8 => encodeDp .sub c sb rn rd (.imm rot imm8)
  | .subShiftImm c sb rn rd amount5 kind rm => encodeDp .sub c sb rn rd (.shiftImm amount5 kind rm)
  | .subShiftReg c sb rn rd rs kind rm => encodeDp .sub c sb rn rd (.shiftReg rs kind rm)
  | .rsbImm c sb rn rd rot imm8 => encodeDp .rsb c sb rn rd (.imm rot imm8)
  | .rsbShiftImm c sb rn rd amount5 kind rm => encodeDp .rsb c sb rn rd (.shiftImm amount5 kind rm)
  | .rsbShiftReg c sb rn rd rs kind rm => encodeDp .rsb c sb rn rd (.shiftReg rs kind rm)
  | .addImm c sb rn rd rot imm8 => encodeDp .add c sb rn rd (.imm rot imm8)
  | .addShiftImm c sb rn rd amount5 kind rm => encodeDp .add c sb rn rd (.shiftImm amount5 kind rm)
  | .addShiftReg c sb rn rd rs kind rm => encodeDp .add c sb rn rd (.shiftReg rs kind rm)
  | .adcImm c sb rn rd rot imm8 => encodeDp .adc c sb rn rd (.imm rot imm8)
  | .adcShiftImm c sb rn rd amount5 kind rm => encodeDp .adc c sb rn rd (.shiftImm amount5 kind rm)
  | .adcShiftReg c sb rn rd rs kind rm => encodeDp .adc c sb rn rd (.shiftReg rs kind rm)
  | .sbcImm c sb rn rd rot imm8 => encodeDp .sbc c sb rn rd (.imm rot imm8)
  | .sbcShiftImm c sb rn rd amount5 kind rm => encodeDp .sbc c sb rn rd (.shiftImm amount5 kind rm)
  | .sbcShiftReg c sb rn rd rs kind rm => encodeDp .sbc c sb rn rd (.shiftReg rs kind rm)
  | .rscImm c sb rn rd rot imm8 => encodeDp .rsc c sb rn rd (.imm rot imm8)
  | .rscShiftImm c sb rn rd amount5 kind rm => encodeDp .rsc c sb rn rd (.shiftImm amount5 kind rm)
  | .rscShiftReg c sb rn rd rs kind rm => encodeDp .rsc c sb rn rd (.shiftReg rs kind rm)
  | .tstImm c rn rd rot imm8 => encodeDp .tst c true rn rd (.imm rot imm8)
  | .tstShiftImm c rn rd amount5 kind rm => encodeDp .tst c true rn rd (.shiftImm amount5 kind rm)
  | .tstShiftReg c rn rd rs kind rm => encodeDp .tst c true rn rd (.shiftReg rs kind rm)
  | .teqImm c rn rd rot imm8 => encodeDp .teq c true rn rd (.imm rot imm8)
  | .teqShiftImm c rn rd amount5 kind rm => encodeDp .teq c true rn rd (.shiftImm amount5 kind rm)
  | .teqShiftReg c rn rd rs kind rm => encodeDp .teq c true rn rd (.shiftReg rs kind rm)
  | .cmpImm c rn rd rot imm8 => encodeDp .cmp c true rn rd (.imm rot imm8)
  | .cmpShiftImm c rn rd amount5 kind rm => encodeDp .cmp c true rn rd (.shiftImm amount5 kind rm)
  | .cmpShiftReg c rn rd rs kind rm => encodeDp .cmp c true rn rd (.shiftReg rs kind rm)
  | .cmnImm c rn rd rot imm8 => encodeDp .cmn c true rn rd (.imm rot imm8)
  | .cmnShiftImm c rn rd amount5 kind rm => encodeDp .cmn c true rn rd (.shiftImm amount5 kind rm)
  | .cmnShiftReg c rn rd rs kind rm => encodeDp .cmn c true rn rd (.shiftReg rs kind rm)
  | .orrImm c sb rn rd rot imm8 => encodeDp .orr c sb rn rd (.imm rot imm8)
  | .orrShiftImm c sb rn rd amount5 kind rm => encodeDp .orr c sb rn rd (.shiftImm amount5 kind rm)
  | .orrShiftReg c sb rn rd rs kind rm => encodeDp .orr c sb rn rd (.shiftReg rs kind rm)
  | .movImm c sb rn rd rot imm8 => encodeDp .mov c sb rn rd (.imm rot imm8)
  | .movShiftImm c sb rn rd amount5 kind rm => encodeDp .mov c sb rn rd (.shiftImm amount5 kind rm)
  | .movShiftReg c sb rn rd rs kind rm => encodeDp .mov c sb rn rd (.shiftReg rs kind rm)
  | .bicImm c sb rn rd rot imm8 => encodeDp .bic c sb rn rd (.imm rot imm8)
  | .bicShiftImm c sb rn rd amount5 kind rm => encodeDp .bic c sb rn rd (.shiftImm amount5 kind rm)
  | .bicShiftReg c sb rn rd rs kind rm => encodeDp .bic c sb rn rd (.shiftReg rs kind rm)
  | .mvnImm c sb rn rd rot imm8 => encodeDp .mvn c sb rn rd (.imm rot imm8)
  | .mvnShiftImm c sb rn rd amount5 kind rm => encodeDp .mvn c sb rn rd (.shiftImm amount5 kind rm)
  | .mvnShiftReg c sb rn rd rs kind rm => encodeDp .mvn c sb rn rd (.shiftReg rs kind rm)
  | .mrs c ps rd => c.bits ++ 0b00010#5 ++ flag ps ++ 0b001111#6 ++ regBits rd ++ 0#12
  | .msrCpsr c rm => encodeMsrReg c false true rm
  | .msrSpsr c rm => encodeMsrReg c true true rm
  | .msrFlagsReg c pd rm => encodeMsrReg c pd false rm
  | .msrFlagsImm c pd rot imm8 => c.bits ++ 0b00110#5 ++ flag pd ++ 0b101000#6 ++ 0b1111#4 ++ rot ++ imm8
  | .mul c sb rd rn rs rm => encodeMultiply c false sb rd rn rs rm
  | .mla c sb rd rn rs rm => encodeMultiply c true sb rd rn rs rm
  | .umull c sb rdHi rdLo rs rm => encodeMultiplyLong c false false sb rdHi rdLo rs rm
  | .umlal c sb rdHi rdLo rs rm => encodeMultiplyLong c false true sb rdHi rdLo rs rm
  | .smull c sb rdHi rdLo rs rm => encodeMultiplyLong c true false sb rdHi rdLo rs rm
  | .smlal c sb rdHi rdLo rs rm => encodeMultiplyLong c true true sb rdHi rdLo rs rm
  | .swp c rn rd rm => encodeSwap c false rn rd rm
  | .swpb c rn rd rm => encodeSwap c true rn rd rm
  | .bx c rn => c.bits ++ 0x012FFF1#24 ++ regBits rn
  | .strhReg c p u w rn rd rm => encodeHalf .strh c p u w rn rd (.reg rm)
  | .strhImm c p u w rn rd hi lo => encodeHalf .strh c p u w rn rd (.imm hi lo)
  | .ldrhReg c p u w rn rd rm => encodeHalf .ldrh c p u w rn rd (.reg rm)
  | .ldrhImm c p u w rn rd hi lo => encodeHalf .ldrh c p u w rn rd (.imm hi lo)
  | .ldrsbReg c p u w rn rd rm => encodeHalf .ldrsb c p u w rn rd (.reg rm)
  | .ldrsbImm c p u w rn rd hi lo => encodeHalf .ldrsb c p u w rn rd (.imm hi lo)
  | .ldrshReg c p u w rn rd rm => encodeHalf .ldrsh c p u w rn rd (.reg rm)
  | .ldrshImm c p u w rn rd hi lo => encodeHalf .ldrsh c p u w rn rd (.imm hi lo)
  | .strImm c p u w rn rd offset12 => encodeSingle .str c p u w rn rd (.imm offset12)
  | .strReg c p u w rn rd amount5 kind rm => encodeSingle .str c p u w rn rd (.reg amount5 kind rm)
  | .ldrImm c p u w rn rd offset12 => encodeSingle .ldr c p u w rn rd (.imm offset12)
  | .ldrReg c p u w rn rd amount5 kind rm => encodeSingle .ldr c p u w rn rd (.reg amount5 kind rm)
  | .strbImm c p u w rn rd offset12 => encodeSingle .strb c p u w rn rd (.imm offset12)
  | .strbReg c p u w rn rd amount5 kind rm => encodeSingle .strb c p u w rn rd (.reg amount5 kind rm)
  | .ldrbImm c p u w rn rd offset12 => encodeSingle .ldrb c p u w rn rd (.imm offset12)
  | .ldrbReg c p u w rn rd amount5 kind rm => encodeSingle .ldrb c p u w rn rd (.reg amount5 kind rm)
  | .stm c p u sb w rn list => encodeBlock c p u sb w false rn list
  | .ldm c p u sb w rn list => encodeBlock c p u sb w true rn list
  | .b c offset24 => c.bits ++ 0b101#3 ++ flag false ++ offset24
  | .bl c offset24 => c.bits ++ 0b101#3 ++ flag true ++ offset24
  | .stc c p u n w rn crd cpNum offset8 => encodeCopTransfer c p u n w false rn crd cpNum offset8
  | .ldc c p u n w rn crd cpNum offset8 => encodeCopTransfer c p u n w true rn crd cpNum offset8
  | .cdp c opc crn crd cpNum cp crm => c.bits ++ 0b1110#4 ++ opc ++ crn ++ crd ++ cpNum ++ cp ++ 0#1 ++ crm
  | .mcr c opc crn rd cpNum cp crm => encodeCopReg c false opc crn rd cpNum cp crm
  | .mrc c opc crn rd cpNum cp crm => encodeCopReg c true opc crn rd cpNum cp crm
  | .swi c comment => c.bits ++ 0b1111#4 ++ comment
  | .undefined c body => c.bits ++ body

end Sys2Proof
end

