-- ==== Sys2Proof/Config.lean ====
section
/-! DEFINITION. What is fixed for the machine: the parameters of spec/00_scope.md R7 at the values the
spec gives them, the platform's region bases, and the free values (opaque: nothing is known of them).

Two parameters of R7 have one value and no alternative meaning in the spec, so no definition branches on
them: `BIG_ENDIAN = false` (the byte order is written once, in the `read16/read32/write16/write32` of
Machine/Ops.lean) and `COPROCESSOR_PRESENT = false` (Machine/System.lean). -/

namespace Sys2Proof

/-- The two settings of the parameter `NONCORE_EXEC` (R7, R145). -/
inductive NoncoreExec where
  /-- The non-core groups run by spec files 44 to 48. -/
  | arch
  /-- The non-core groups end in `Unmodelled(NonCoreGroup)`. -/
  | refuse
deriving DecidableEq, Repr

/-- `NONCORE_EXEC`, the value the spec fixes (R7, D22; log entry 12). -/
def Config.noncoreExec : NoncoreExec := .arch

/-- `USR_CPSR_CONTROL_WRITABLE`: may a full-form MSR to the CPSR in USR mode change I, F, T, M? (R7,
R257; log entry 12). -/
def Config.usrCpsrControlWritable : Bool := false

/-- `NV_EXECUTES`: does condition 1111 execute? (R7, R152). -/
def Config.nvExecutes : Bool := false

/-- `STORE_PC_OFFSET`: what a store of R15 adds to the held R15 (R7, R306, R348; log entry 12). -/
def Config.storePcOffset : Word := 4

/-- `PC_READ_SKEW`: what the environment adds to the fetch address before it writes R15 (R7, R146). -/
def Config.pcReadSkew : Word := 8

/-- `PSR_IMPL`, the mask of the implemented PSR bits N, Z, C, V, I, F, T, M (R29). -/
def Config.psrImpl : Word := 0xF00000FF

/-- `PSR_FLAGS`, the mask of the flag bits N, Z, C, V (R29). -/
def Config.psrFlags : Word := 0xF0000000

/-- FREE VALUE. `MulCarry`: the C flag after a flag-setting multiply, any bit (R7, R282, D32). It is applied
to the draw counter of the state and to the two factors, so two multiplies of the same factors need not
agree (log entry 3). -/
opaque Config.mulCarry : Nat → Word → Word → Bool

/-- FREE VALUE. `MulOverflow`: the V flag after a flag-setting long multiply, any bit (R7, R282, D32; log
entry 3). -/
opaque Config.mulOverflow : Nat → Word → Word → Bool

/-- The platform's regions, of which the spec gives the base address and nothing else (R63). The block never
inspects an address for its region (R63), so no operation of the model reads this table. -/
inductive Region where
  | bios | boardWram | chipWram | io | palette | vram | oam | cartridge
deriving DecidableEq, Repr

/-- The base address of each region (R63). -/
def Region.base : Region → Word
  | .bios      => 0x00000000
  | .boardWram => 0x02000000
  | .chipWram  => 0x03000000
  | .io        => 0x04000000
  | .palette   => 0x05000000
  | .vram      => 0x06000000
  | .oam       => 0x07000000
  | .cartridge => 0x08000000

end Sys2Proof
end

