-- ==== Sys2Proof/Machine/State.lean ====
section
/-! DEFINITION. The state of the machine as plain data, the reasons a step can stop, and the state after
reset. The block's own state is spec/10_state.md R20 (31 general registers, the CPSR, five SPSRs); beside it
stand what spec/40_dispatch_and_condition.md R149 and spec/60_exceptions.md R395 give the reference
environment (the fetch address A and the two interrupt requests), the memory behind the bus
(spec/20_memory.md R60), and the model's own draw counter (log entry 3). -/

namespace Sys2Proof.Machine

/-- The seven legal modes (R30). -/
inductive Mode where
  | usr | fiq | irq | svc | abt | und | sys
deriving DecidableEq, Repr

/-- A PSR: "a bit-structured value" of eight fields (R29). The reserved bits 27:8 hold no state (R39), so
they have no field. `μ` is what the mode field holds. -/
structure Psr (μ : Type) where
  n : Bool
  z : Bool
  c : Bool
  v : Bool
  i : Bool
  f : Bool
  t : Bool
  m : μ
deriving DecidableEq, Repr

/-- The CPSR: its mode field is always one of the seven legal values (R37). -/
abbrev Cpsr := Psr Mode

/-- An SPSR: its mode field is any 5-bit value (R34, R37). -/
abbrev Spsr := Psr (BitVec 5)

/-- The 31 general registers by bank (R20, R22). -/
structure RegFile where
  /-- R0 to R15 of the user bank. -/
  usr : Vector Word 16
  /-- R8_fiq to R14_fiq. -/
  fiq : Vector Word 7
  /-- R13_irq, R14_irq. -/
  irq : Vector Word 2
  /-- R13_svc, R14_svc. -/
  svc : Vector Word 2
  /-- R13_abt, R14_abt. -/
  abt : Vector Word 2
  /-- R13_und, R14_und. -/
  und : Vector Word 2
deriving DecidableEq, Repr

/-- A physical register: the bank and the place in it (R22). -/
inductive PhysReg where
  /-- Rk of the user bank. -/
  | usr (k : Fin 16)
  /-- R(8+k)_fiq. -/
  | fiq (k : Fin 7)
  /-- R(13+k)_irq. -/
  | irq (k : Fin 2)
  /-- R(13+k)_svc. -/
  | svc (k : Fin 2)
  /-- R(13+k)_abt. -/
  | abt (k : Fin 2)
  /-- R(13+k)_und. -/
  | und (k : Fin 2)
deriving DecidableEq, Repr

/-- The five SPSRs (R20, R35). -/
structure SpsrFile where
  fiq : Spsr
  irq : Spsr
  svc : Spsr
  abt : Spsr
  und : Spsr
deriving DecidableEq, Repr

/-- The five modes that have an SPSR, each the name of its SPSR (R35). -/
inductive SpsrBank where
  | fiq | irq | svc | abt | und
deriving DecidableEq, Repr

/-- Memory behind the bus: bytes by address, in the canonical form of `Memory.wf` (Machine/Ops.lean). An
address that is not listed reads as `Memory.unlisted` (log entry 2). -/
abbrev Memory := List Host.Cell

/-- The whole state. -/
structure State where
  /-- The general registers (R20 to R27). -/
  regs : RegFile
  /-- The CPSR (R31). -/
  cpsr : Cpsr
  /-- The five SPSRs (R35). -/
  spsr : SpsrFile
  /-- Memory behind the bus (R60 to R64). -/
  mem : Memory
  /-- The environment's fetch address A: the address of the instruction being executed, between steps of the
  next one (R147, R149). -/
  fetchAddr : Word
  /-- Is FIQ requested? An input of the environment, level sensitive (R395). -/
  fiqRequest : Bool
  /-- Is IRQ requested? An input of the environment, level sensitive (R395). -/
  irqRequest : Bool
  /-- The model's own: how many draws `MulCarry`, `MulOverflow` have been made (R282; log entry 3). -/
  drawCount : Nat
deriving DecidableEq, Repr

/-- The errors of the block (R10). -/
inductive ExecError where
  /-- "decoded word matches no legal encoding; non-fatal, surfaced to caller". -/
  | undefinedInstruction
  /-- "SPSR read/write attempted while in USR/SYS mode". -/
  | invalidModeAccess
  /-- "an attempt to set `mode` to a value outside the 7 legal encodings; fatal to the instruction". -/
  | illegalMode
deriving DecidableEq, Repr

/-- Why the spec gives a step no meaning (R10). -/
inductive UnmodelledReason where
  | thumbState
  | nonCoreGroup
  | unpredictableForm
deriving DecidableEq, Repr

/-- The outcome of one step of the block (R10). Only `ok` carries a state: every other outcome leaves every
register, every PSR and memory unchanged (R11). -/
inductive StepResult where
  /-- `Ok(pc_written)`. -/
  | ok (s : State) (pcWritten : Bool)
  /-- `Err(...)`. -/
  | err (e : ExecError)
  /-- `Trap(SoftwareInterrupt, comment)`. -/
  | trap (comment : BitVec 24)
  /-- `Unmodelled(reason)`. -/
  | unmodelled (r : UnmodelledReason)
deriving DecidableEq, Repr

/-- Why the machine stops with a fault. The reference environment stops the run on these outcomes (R149,
R381): the processor has no trap for them. -/
inductive Fault where
  /-- `Err(InvalidModeAccess)`: MRS or MSR of the SPSR, a data-processing instruction with Rd = 15 and S = 1, or
  LDM with R15 and S = 1, in USR or SYS mode (R33, R34, R380). Safe: the machine stops where hardware is
  undefined. -/
  | invalidModeAccess
  /-- `Err(IllegalMode)`: MSR of the whole CPSR outside USR mode, or a restore of the CPSR from an SPSR, with a
  mode field outside the seven legal values (R36, R40, R380). Safe: the machine stops where hardware is
  unpredictable. -/
  | illegalMode
deriving DecidableEq, Repr

/-- Why the machine gives a step no meaning. -/
inductive Refusal where
  /-- Raised by an arm of `exec` whose instruction has no meaning yet. Safe. -/
  | notModelled (mnemonic : String)
  /-- `Unmodelled(ThumbState)`: raised by `step` when CPSR.T = 1 (R141). Safe: THUMB state is out of scope. -/
  | thumbState
  /-- `Unmodelled(NonCoreGroup)`: raised by a non-core instruction under `NONCORE_EXEC = refuse` (R145), which is
  not the value the spec fixes, so no run meets it. Safe. -/
  | nonCoreGroup
  /-- `Unmodelled(UnpredictableForm)`: raised by the register and operand combinations of R281, R304, R330, R344,
  which the architecture calls unpredictable. Safe. -/
  | unpredictableForm
deriving DecidableEq, Repr

/-- What an instruction's meaning answers. -/
abbrev Answer := Host.Outcome State Fault Refusal

/-- A PSR of zeros with the given mode field. -/
def Psr.zero {μ : Type} (m : μ) : Psr μ :=
  { n := false, z := false, c := false, v := false, i := false, f := false, t := false, m := m }

/-- The state right after reset (R41, R420): SVC mode, I = F = 1, T = 0, first fetch address 0, R15 preloaded
with 8. The flags, every other register and every SPSR are draws in the spec (R421): here they are 0 (log
entry 1). No interrupt is requested and memory lists nothing. -/
def State.reset : State where
  regs := { usr := (Vector.replicate 16 0).set 15 8, fiq := Vector.replicate 7 0, irq := Vector.replicate 2 0,
            svc := Vector.replicate 2 0, abt := Vector.replicate 2 0, und := Vector.replicate 2 0 }
  cpsr := { Psr.zero Mode.svc with i := true, f := true }
  spsr := { fiq := Psr.zero 0, irq := Psr.zero 0, svc := Psr.zero 0, abt := Psr.zero 0, und := Psr.zero 0 }
  mem := []
  fetchAddr := 0
  fiqRequest := false
  irqRequest := false
  drawCount := 0

end Sys2Proof.Machine
end

