-- ==== Sys2Proof/Machine/Ops.lean ====
section
/-! DEFINITION. The named operations over memory, registers and status registers, taking an exception, and
what the reference environment does before and after a step of the block. -/

namespace Sys2Proof.Machine

/-! ## Memory: the bus calls of spec/20_memory.md -/

/-- What a byte of memory that nothing has written reads as (log entry 2). -/
def Memory.unlisted : Byte := 0

/-- One byte at an address (R60). -/
def Memory.read : Memory → Nat → Byte
  | [], _ => Memory.unlisted
  | (k, b) :: m, a => if k = a then b else Memory.read m a

/-- One byte written, keeping the canonical form: writing what an unlisted address reads as removes the
entry. -/
def Memory.write : Memory → Nat → Byte → Memory
  | [], a, x => if x = Memory.unlisted then [] else [(a, x)]
  | (k, b) :: m, a, x =>
    if a < k then (if x = Memory.unlisted then (k, b) :: m else (a, x) :: (k, b) :: m)
    else if a = k then (if x = Memory.unlisted then m else (a, x) :: m)
    else (k, b) :: Memory.write m a x

/-- The canonical form from an address up: addresses strictly rising and below 2^32 (R60), no entry that reads
as an unlisted address does. -/
def Memory.wfFrom : Nat → Memory → Bool
  | _, [] => true
  | lo, (k, b) :: m => decide (lo ≤ k) && decide (k < 2 ^ 32) && (b != Memory.unlisted) && Memory.wfFrom (k + 1) m

/-- The canonical form of a memory. -/
def Memory.wf (m : Memory) : Bool := Memory.wfFrom 0 m

/-- `read8` (R61). -/
def State.read8 (s : State) (a : Word) : Byte := Memory.read s.mem a.toNat

/-- `read16`, little-endian (R61, R64). -/
def State.read16 (s : State) (a : Word) : BitVec 16 := s.read8 (a + 1) ++ s.read8 a

/-- `read32`, little-endian (R61, R64). -/
def State.read32 (s : State) (a : Word) : Word :=
  s.read8 (a + 3) ++ s.read8 (a + 2) ++ s.read8 (a + 1) ++ s.read8 a

/-- `write8` (R61). -/
def State.write8 (s : State) (a : Word) (x : Byte) : State := { s with mem := Memory.write s.mem a.toNat x }

/-- `write16`, little-endian (R61, R64). -/
def State.write16 (s : State) (a : Word) (x : BitVec 16) : State :=
  (s.write8 a (x.extractLsb' 0 8)).write8 (a + 1) (x.extractLsb' 8 8)

/-- `write32`, little-endian (R61, R64). -/
def State.write32 (s : State) (a : Word) (x : Word) : State :=
  (((s.write8 a (x.extractLsb' 0 8)).write8 (a + 1) (x.extractLsb' 8 8)).write8 (a + 2) (x.extractLsb' 16 8)).write8
    (a + 3) (x.extractLsb' 24 8)

/-- `ea AND NOT 3`, the address of a word access (R65). -/
def alignWord (a : Word) : Word := a &&& ~~~(3#32)

/-! ## General registers: spec/10_state.md R22 to R26 -/

/-- The place of R13 or R14 in a two-register bank. -/
def pairIndex (n : Reg) : Option (Fin 2) :=
  if n = 13 then some 0 else if n = 14 then some 1 else none

/-- The place of R8 to R14 in the FIQ bank. -/
def fiqIndex (n : Reg) : Option (Fin 7) :=
  if h : 8 ≤ n.val ∧ n.val ≤ 14 then some ⟨n.val - 8, by omega⟩ else none

/-- `phys(m, n)`: the physical register that number `n` reaches in mode `m` (R22, R23). -/
def phys (m : Mode) (n : Reg) : PhysReg :=
  match m with
  | .usr | .sys => .usr n
  | .fiq => (fiqIndex n).elim (.usr n) .fiq
  | .irq => (pairIndex n).elim (.usr n) .irq
  | .svc => (pairIndex n).elim (.usr n) .svc
  | .abt => (pairIndex n).elim (.usr n) .abt
  | .und => (pairIndex n).elim (.usr n) .und

/-- The content of a physical register. -/
def RegFile.get (r : RegFile) : PhysReg → Word
  | .usr k => r.usr[k]
  | .fiq k => r.fiq[k]
  | .irq k => r.irq[k]
  | .svc k => r.svc[k]
  | .abt k => r.abt[k]
  | .und k => r.und[k]

/-- A physical register set to a value. -/
def RegFile.set (r : RegFile) (p : PhysReg) (x : Word) : RegFile :=
  match p with
  | .usr k => { r with usr := r.usr.set k x }
  | .fiq k => { r with fiq := r.fiq.set k x }
  | .irq k => { r with irq := r.irq.set k x }
  | .svc k => { r with svc := r.svc.set k x }
  | .abt k => { r with abt := r.abt.set k x }
  | .und k => { r with und := r.und.set k x }

/-- `x[n]`: a register through the current mode's bank; for 15 the held R15 and nothing else (R24). -/
def State.readReg (s : State) (n : Reg) : Word := s.regs.get (phys s.cpsr.m n)

/-- `x[n] <- v` (R25). Where `n` can be 15 the caller reports `pc_written`. -/
def State.writeReg (s : State) (n : Reg) (x : Word) : State :=
  { s with regs := s.regs.set (phys s.cpsr.m n) x }

/-- `x_usr[n]` (R26). -/
def State.readUserReg (s : State) (n : Reg) : Word := s.regs.get (phys .usr n)

/-- `x_usr[n] <- v` (R26). -/
def State.writeUserReg (s : State) (n : Reg) (x : Word) : State :=
  { s with regs := s.regs.set (phys .usr n) x }

/-- R15 as held, which no mode banks (R27). -/
def State.pc (s : State) : Word := s.readUserReg 15

/-- `pc <- target` (R15 of the notation, R25). -/
def State.writePc (s : State) (x : Word) : State := s.writeUserReg 15 x

/-! ## Status registers: spec/10_state.md R29 to R40 -/

/-- The mode numbers of R30. -/
def Mode.bits : Mode → BitVec 5
  | .usr => 0b10000 | .fiq => 0b10001 | .irq => 0b10010 | .svc => 0b10011
  | .abt => 0b10111 | .und => 0b11011 | .sys => 0b11111

/-- The mode a 5-bit value names; the other 25 values are illegal (R30). -/
def Mode.ofBits (b : BitVec 5) : Option Mode :=
  if b = 0b10000#5 then some .usr
  else if b = 0b10001#5 then some .fiq
  else if b = 0b10010#5 then some .irq
  else if b = 0b10011#5 then some .svc
  else if b = 0b10111#5 then some .abt
  else if b = 0b11011#5 then some .und
  else if b = 0b11111#5 then some .sys
  else none

/-- `image(p)`, reserved bits 0 (R29, R39). -/
def Psr.image (p : Spsr) : Word :=
  BitVec.ofBool p.n ++ BitVec.ofBool p.z ++ BitVec.ofBool p.c ++ BitVec.ofBool p.v ++ 0#20
    ++ BitVec.ofBool p.i ++ BitVec.ofBool p.f ++ BitVec.ofBool p.t ++ p.m

/-- The PSR of an image: bits 27:8 are dropped (R29, R39). -/
def Psr.ofImage (w : Word) : Spsr :=
  { n := w.getLsbD 31, z := w.getLsbD 30, c := w.getLsbD 29, v := w.getLsbD 28,
    i := w.getLsbD 7, f := w.getLsbD 6, t := w.getLsbD 5, m := w.extractLsb' 0 5 }

/-- A CPSR as the SPSR that would save it. -/
def Psr.toSpsr (p : Cpsr) : Spsr :=
  { n := p.n, z := p.z, c := p.c, v := p.v, i := p.i, f := p.f, t := p.t, m := p.m.bits }

/-- A saved PSR as a CPSR, if its mode field is legal (R36, R40). -/
def Psr.toCpsr (p : Spsr) : Option Cpsr :=
  (Mode.ofBits p.m).map fun m => { n := p.n, z := p.z, c := p.c, v := p.v, i := p.i, f := p.f, t := p.t, m := m }

/-- `image(CPSR)` (R29). -/
def State.cpsrImage (s : State) : Word := s.cpsr.toSpsr.image

/-- A masked write of a PSR image, `(old AND NOT m) OR (value AND m)` with `m = mask AND PSR_IMPL` (R34, R40). -/
def maskedImage (old value mask : Word) : Word :=
  (old &&& ~~~(mask &&& Config.psrImpl)) ||| (value &&& (mask &&& Config.psrImpl))

/-- The SPSR of a mode; USR and SYS have none (R35). -/
def Mode.spsrBank : Mode → Option SpsrBank
  | .usr | .sys => none
  | .fiq => some .fiq
  | .irq => some .irq
  | .svc => some .svc
  | .abt => some .abt
  | .und => some .und

/-- One SPSR. -/
def SpsrFile.get (f : SpsrFile) : SpsrBank → Spsr
  | .fiq => f.fiq
  | .irq => f.irq
  | .svc => f.svc
  | .abt => f.abt
  | .und => f.und

/-- One SPSR set. -/
def SpsrFile.set (f : SpsrFile) (b : SpsrBank) (p : Spsr) : SpsrFile :=
  match b with
  | .fiq => { f with fiq := p }
  | .irq => { f with irq := p }
  | .svc => { f with svc := p }
  | .abt => { f with abt := p }
  | .und => { f with und := p }

/-- `read_spsr()` (R33). -/
def State.readSpsr (s : State) : Except ExecError Spsr :=
  match s.cpsr.m.spsrBank with
  | none => .error .invalidModeAccess
  | some b => .ok (s.spsr.get b)

/-- `write_spsr(value, mask)`: the mode field is stored unchecked (R34). -/
def State.writeSpsr (s : State) (value mask : Word) : Except ExecError State :=
  match s.cpsr.m.spsrBank with
  | none => .error .invalidModeAccess
  | some b => .ok { s with spsr := s.spsr.set b (Psr.ofImage (maskedImage (s.spsr.get b).image value mask)) }

/-- `set_mode(new_mode)` (R36). -/
def State.setMode (s : State) (m : BitVec 5) : Except ExecError State :=
  match Mode.ofBits m with
  | none => .error .illegalMode
  | some m' => .ok { s with cpsr := { s.cpsr with m := m' } }

/-- `WriteCPSR(value, mask)`: an illegal mode field writes nothing (R40). -/
def State.writeCpsr (s : State) (value mask : Word) : Except ExecError State :=
  match (Psr.ofImage (maskedImage s.cpsrImage value mask)).toCpsr with
  | none => .error .illegalMode
  | some p => .ok { s with cpsr := p }

/-- "CPSR is instead fully replaced by the current mode's SPSR": the restore of an exception return (R205, R346,
R397). Both errors come before any write. -/
def State.restoreCpsr (s : State) : Except ExecError State :=
  match s.readSpsr with
  | .error e => .error e
  | .ok p => s.writeCpsr p.image Config.psrImpl

/-! ## Exceptions: spec/60_exceptions.md -/

/-- The exception kinds of R390 but Reset, which is `State.applyReset`. -/
inductive ExceptionKind where
  | undefined | swi | prefetchAbort | dataAbort | irq | fiq
deriving DecidableEq, Repr

/-- The vector address (R390). -/
def ExceptionKind.vector : ExceptionKind → Word
  | .undefined => 0x00000004
  | .swi => 0x00000008
  | .prefetchAbort => 0x0000000C
  | .dataAbort => 0x00000010
  | .irq => 0x00000018
  | .fiq => 0x0000001C

/-- The mode entered (R390). -/
def ExceptionKind.mode : ExceptionKind → Mode
  | .undefined => .und
  | .swi => .svc
  | .prefetchAbort | .dataAbort => .abt
  | .irq => .irq
  | .fiq => .fiq

/-- What is added to `A` to give R14 of the new mode (R390). -/
def ExceptionKind.linkOffset : ExceptionKind → Word
  | .dataAbort => 8
  | .undefined | .swi | .prefetchAbort | .irq | .fiq => 4

/-- Does entry set F? (R390). -/
def ExceptionKind.masksFiq : ExceptionKind → Bool
  | .fiq => true
  | .undefined | .swi | .prefetchAbort | .dataAbort | .irq => false

/-- The SPSR an exception saves into (R35, R390, R391). -/
def ExceptionKind.spsrBank : ExceptionKind → SpsrBank
  | .undefined => .und
  | .swi => .svc
  | .prefetchAbort | .dataAbort => .abt
  | .irq => .irq
  | .fiq => .fiq

/-- `TakeException(kind, A)` (R391): the old CPSR goes to the SPSR of the new mode, R14 of the new mode gets the
return address, T is cleared, I is set, F is set for FIQ, and the next fetch address is the vector. The flags
and memory are untouched. -/
def takeException (k : ExceptionKind) (a : Word) (s : State) : State :=
  { s with
    regs := s.regs.set (phys k.mode 14) (a + k.linkOffset)
    spsr := s.spsr.set k.spsrBank s.cpsr.toSpsr
    cpsr := { s.cpsr with m := k.mode, t := false, i := true, f := s.cpsr.f || k.masksFiq }
    fetchAddr := k.vector }

/-- The values reset leaves unspecified (R421): every flag, register and SPSR. -/
structure ResetDraws where
  regs : RegFile
  spsr : SpsrFile
  n : Bool
  z : Bool
  c : Bool
  v : Bool
deriving DecidableEq, Repr

/-- `Reset()` with its draws (R420, R421): memory and the interrupt requests are not touched. -/
def State.applyReset (d : ResetDraws) (s : State) : State :=
  { s with
    regs := d.regs.set (.usr 15) (0 + Config.pcReadSkew)
    spsr := d.spsr
    cpsr := { n := d.n, z := d.z, c := d.c, v := d.v, i := true, f := true, t := false, m := .svc }
    fetchAddr := 0 }

/-! ## The reference environment: spec/40_dispatch_and_condition.md R146 to R149 -/

/-- The environment's two interrupt inputs set from outside, between steps (R395). -/
def State.withRequests (s : State) (fiq irq : Bool) : State := { s with fiqRequest := fiq, irqRequest := irq }

/-- The interrupt taken before the next fetch, if any: FIQ first (R395, R396). -/
def State.pendingInterrupt (s : State) : Option ExceptionKind :=
  if s.fiqRequest && !s.cpsr.f then some .fiq
  else if s.irqRequest && !s.cpsr.i then some .irq
  else none

/-- The interrupts sampled before the fetch (R149, R395). -/
def State.acceptInterrupt (s : State) : State :=
  match s.pendingInterrupt with
  | some k => takeException k s.fetchAddr s
  | none => s

/-- R15 written with the fetch address plus `PC_READ_SKEW`, which does not count as `pc_written` (R146, R149). -/
def State.preloadPc (s : State) : State := s.writePc (s.fetchAddr + Config.pcReadSkew)

/-- The word fetched from `A AND NOT 3` (R149). -/
def State.fetchWord (s : State) : Word := s.read32 (alignWord s.fetchAddr)

/-- What the reference environment makes of an outcome of the block executed at `s.fetchAddr` (R147, R149, R392):
after `Ok(true)` the next fetch is at R15 with bits 1:0 cleared, after `Ok(false)` at `A + 4`; an undefined
instruction and a software interrupt are taken as exceptions from the unchanged state (R11); everything else
stops the run. -/
def environment (s : State) : StepResult → Answer
  | .ok t true => .next { t with fetchAddr := alignWord t.pc }
  | .ok t false => .next { t with fetchAddr := s.fetchAddr + 4 }
  | .err .undefinedInstruction => .next (takeException .undefined s.fetchAddr s)
  | .err .invalidModeAccess => .fault .invalidModeAccess
  | .err .illegalMode => .fault .illegalMode
  | .trap _ => .next (takeException .swi s.fetchAddr s)
  | .unmodelled .thumbState => .refused .thumbState
  | .unmodelled .nonCoreGroup => .refused .nonCoreGroup
  | .unmodelled .unpredictableForm => .refused .unpredictableForm

/-- An outcome of the block from a computation that may fail: `k` says what follows (R382). -/
def StepResult.ofExcept (r : Except ExecError State) (k : State → StepResult) : StepResult :=
  match r with
  | .ok t => k t
  | .error e => .err e

/-- A group whose behaviour the document does not define (R5, R145). -/
def nonCore (r : StepResult) : StepResult :=
  match Config.noncoreExec with
  | .arch => r
  | .refuse => .unmodelled .nonCoreGroup

/-- A form without meaning (R281, R304, R330, R344): `r` unless the form is bad, and then nothing is done. -/
def unlessForm (bad : Bool) (r : StepResult) : StepResult :=
  if bad then .unmodelled .unpredictableForm else r

end Sys2Proof.Machine
end

