-- ==== Sys2Proof/Machine/Operands.lean ====
section
/-! DEFINITION. The operand forms: the barrel shifter and operand2 (spec/41_barrel_shifter.md), the offsets and
addressing of the transfers (spec/46_single_transfer.md R301 to R303), the addresses of a block transfer
(spec/47_block_transfer.md R341, R342), and what a load makes of memory and a store of a register. -/

namespace Sys2Proof.Machine

/-! ## The barrel shifter -/

/-- The kinds of the shifter: the four encoded ones and RRX (R170). -/
inductive BarrelOp where
  | lsl | lsr | asr | ror | rrx
deriving DecidableEq, Repr

/-- `Shift(value, kind, n, carry_in)`: the result, and the carry-out where the form defines one (R170 to R178). -/
def shift (x : Word) (k : BarrelOp) (n : Nat) (cin : Bool) : Word × Option Bool :=
  match k with
  | .rrx => (BitVec.ofBool cin ++ x.extractLsb' 1 31, some (x.getLsbD 0))
  | .lsl =>
    if n = 0 then (x, none)
    else if n < 32 then (x <<< n, some (x.getLsbD (32 - n)))
    else if n = 32 then (0, some (x.getLsbD 0))
    else (0, some false)
  | .lsr =>
    if n = 0 then (x, none)
    else if n < 32 then (x >>> n, some (x.getLsbD (n - 1)))
    else if n = 32 then (0, some (x.getLsbD 31))
    else (0, some false)
  | .asr =>
    if n = 0 then (x, none)
    else if n < 32 then (x.sshiftRight n, some (x.getLsbD (n - 1)))
    else (if x.getLsbD 31 then 0xFFFFFFFF else 0, some (x.getLsbD 31))
  | .ror =>
    if n = 0 then (x, none)
    else if n % 32 = 0 then (x, some (x.getLsbD 31))
    else (x.rotateRight (n % 32), some (x.getLsbD (n % 32 - 1)))

/-- The shifter kind of an encoded kind with a register amount, which is never read as 32 or RRX (R177). -/
def ShiftKind.toBarrel : ShiftKind → BarrelOp
  | .lsl => .lsl
  | .lsr => .lsr
  | .asr => .asr
  | .ror => .ror

/-- An immediate amount read per kind: LSR #0 and ASR #0 are 32, ROR #0 is RRX (R180). -/
def immAmount (k : ShiftKind) (amount5 : BitVec 5) : BarrelOp × Nat :=
  if amount5 = 0 then
    match k with
    | .lsl => (.lsl, 0)
    | .lsr => (.lsr, 32)
    | .asr => (.asr, 32)
    | .ror => (.rrx, 0)
  else (ShiftKind.toBarrel k, amount5.toNat)

/-- A register shifted by an immediate amount (R179, R180). -/
def shiftByImm (amount5 : BitVec 5) (kind : ShiftKind) (rm : Reg) (s : State) : Word × Option Bool :=
  shift (s.readReg rm) (immAmount kind amount5).1 (immAmount kind amount5).2 s.cpsr.c

/-- The amount a register gives: its low byte (R177). -/
def regAmount (rs : Reg) (s : State) : Nat := ((s.readReg rs).extractLsb' 0 8).toNat

/-- A rotated immediate, `ROR32(zext_8(imm8), 2 * rot)` (R181). -/
def rotatedImm (rot : BitVec 4) (imm8 : BitVec 8) : Word := (imm8.zeroExtend 32).rotateRight (2 * rot.toNat)

/-- `Operand2`: the second operand and the shifter's carry-out (R179, R181). -/
def operand2 (o : Operand2) (s : State) : Word × Option Bool :=
  match o with
  | .imm rot imm8 => (rotatedImm rot imm8, if rot = 0 then none else some ((rotatedImm rot imm8).getLsbD 31))
  | .shiftImm amount5 kind rm => shiftByImm amount5 kind rm s
  | .shiftReg rs kind rm => shift (s.readReg rm) (ShiftKind.toBarrel kind) (regAmount rs s) s.cpsr.c

/-! ## Addressing of the single transfers -/

/-- The offset of LDR, STR, LDRB, STRB; the shifter's carry-out is dropped (R302). -/
def wordOffset (o : WordOffset) (s : State) : Word :=
  match o with
  | .imm offset12 => offset12.zeroExtend 32
  | .reg amount5 kind rm => (shiftByImm amount5 kind rm s).1

/-- The offset of LDRH, STRH, LDRSB, LDRSH (R303). -/
def halfOffset (o : HalfOffset) (s : State) : Word :=
  match o with
  | .imm hi lo => (hi ++ lo).zeroExtend 32
  | .reg rm => s.readReg rm

/-- Is R15 the offset register? (R304). -/
def WordOffset.usesPc : WordOffset → Bool
  | .imm _ => false
  | .reg _ _ rm => rm = 15

/-- Is R15 the offset register? (R304). -/
def HalfOffset.usesPc : HalfOffset → Bool
  | .imm _ _ => false
  | .reg rm => rm = 15

/-- `idx`: the base with the offset added or subtracted (R301). -/
def indexed (u : Bool) (base off : Word) : Word := if u then base + off else base - off

/-- `ea`: pre-indexed uses `idx`, post-indexed the base (R301). -/
def effectiveAddr (p u : Bool) (base off : Word) : Word := if p then indexed u base off else base

/-- `wb`: post-indexed always writes back, pre-indexed with W (R301). -/
def writesBack (p w : Bool) : Bool := !p || w

/-! ## What a transfer moves -/

/-- `LoadWordRotated(ea)` (R66). -/
def State.loadWordRotated (s : State) (ea : Word) : Word :=
  (s.read32 (alignWord ea)).rotateRight (8 * (ea.extractLsb' 0 2).toNat)

/-- The widths and extensions of the loads (R67). -/
inductive LoadKind where
  | word | byte | half | signedByte | signedHalf
deriving DecidableEq, Repr

/-- The value a load gives its destination (R305, R307, R315, R317, R318). -/
def State.loadValue (s : State) (k : LoadKind) (ea : Word) : Word :=
  match k with
  | .word => s.loadWordRotated ea
  | .byte => (s.read8 ea).zeroExtend 32
  | .half => (s.read16 ea).zeroExtend 32
  | .signedByte => (s.read8 ea).signExtend 32
  | .signedHalf => (s.read16 ea).signExtend 32

/-- The widths of the stores (R67). -/
inductive StoreKind where
  | word | byte | half
deriving DecidableEq, Repr

/-- The memory write of a store; a word goes to `ea AND NOT 3` unrotated (R306, R308, R316). -/
def State.storeValue (s : State) (k : StoreKind) (ea x : Word) : State :=
  match k with
  | .word => s.write32 (alignWord ea) x
  | .byte => s.write8 ea (x.extractLsb' 0 8)
  | .half => s.write16 ea (x.extractLsb' 0 16)

/-- The register a store of register `n` writes: R15 with `STORE_PC_OFFSET` added (R306, R348). -/
def State.storedReg (s : State) (n : Reg) : Word :=
  if n = 15 then s.pc + Config.storePcOffset else s.readReg n

/-! ## Block transfers -/

/-- `regs`: the ascending sequence of the registers of a list (R341). -/
def listRegs (list : BitVec 16) : List Reg := (List.finRange 16).filter fun i => list.getLsbD i.val

/-- `4n` as a word, for a list of `n` registers (R342). -/
def blockSize (list : BitVec 16) : Word := BitVec.ofNat 32 (4 * (listRegs list).length)

/-- `start` of the table of R342. -/
def blockStart (p u : Bool) (base : Word) (list : BitVec 16) : Word :=
  match p, u with
  | false, true  => base
  | true,  true  => base + 4
  | false, false => base - blockSize list + 4
  | true,  false => base - blockSize list

/-- The value written back when W = 1 (R342). -/
def blockWriteback (u : Bool) (base : Word) (list : BitVec 16) : Word :=
  if u then base + blockSize list else base - blockSize list

/-- The registers with their word addresses: the `k`-th at `(start + 4k) AND NOT 3` (R342). -/
def blockSlots (start : Word) : List Reg → List (Reg × Word)
  | [] => []
  | r :: rs => (r, alignWord start) :: blockSlots (start + 4) rs

/-- `s` with register-value pairs written in order, into the user bank if `user` (R343, R345). -/
def State.writeRegs (user : Bool) (s : State) : List (Reg × Word) → State
  | [] => s
  | (r, x) :: rest => State.writeRegs user (if user then s.writeUserReg r x else s.writeReg r x) rest

/-- `s` with address-value pairs written to memory in order (R343). -/
def State.writeWords (s : State) : List (Word × Word) → State
  | [] => s
  | (a, x) :: rest => State.writeWords (s.write32 a x) rest

/-- The values an LDM reads, all before any write (R343). -/
def State.loadBlock (s : State) (start : Word) (list : BitVec 16) : List (Reg × Word) :=
  (blockSlots start (listRegs list)).map fun q => (q.1, s.read32 q.2)

/-- The register an STM stores: from the user bank if `user`, R15 with `STORE_PC_OFFSET` added (R345, R348). -/
def State.blockStored (user : Bool) (s : State) (n : Reg) : Word :=
  if n = 15 then s.pc + Config.storePcOffset else if user then s.readUserReg n else s.readReg n

/-- The words an STM writes, all read before any write (R343). -/
def State.storeBlock (user : Bool) (s : State) (start : Word) (list : BitVec 16) : List (Word × Word) :=
  (blockSlots start (listRegs list)).map fun q => (q.2, State.blockStored user s q.1)

/-- Is register `n` in the list? -/
def inList (list : BitVec 16) (n : Reg) : Bool := list.getLsbD n.val

/-- Is register `n` the lowest of the list? (R344). -/
def isLowest (list : BitVec 16) (n : Reg) : Bool := (listRegs list).head? = some n

end Sys2Proof.Machine
end

