-- ==== Sys2Proof/Machine/Flags.lean ====
section
/-! DEFINITION. The condition evaluator (spec/40_dispatch_and_condition.md R151), the ALU and its flags
(spec/42_data_processing.md R201 to R204), the flags of the multiplies (spec/45_multiply.md R282), and the
wrapper that makes every instruction conditional (R143). -/

namespace Sys2Proof.Machine

/-- `should_execute(cond, N, Z, C, V)` (R151, R152). -/
def shouldExecute (k : Cond) (n z c v : Bool) : Bool :=
  match k with
  | .eq => z
  | .ne => !z
  | .cs => c
  | .cc => !c
  | .mi => n
  | .pl => !n
  | .vs => v
  | .vc => !v
  | .hi => c && !z
  | .ls => !c || z
  | .ge => n == v
  | .lt => n != v
  | .gt => !z && (n == v)
  | .le => z || (n != v)
  | .al => true
  | .nv => Config.nvExecutes

/-- Does the condition pass in this state? -/
def State.passes (s : State) (k : Cond) : Bool := shouldExecute k s.cpsr.n s.cpsr.z s.cpsr.c s.cpsr.v

/-- An instruction under its condition, in the reference environment: a failed condition is `Ok(false)` with no
change (R140 steps 3 to 7, R143). -/
def conditionally (k : Cond) (s : State) (r : StepResult) : Answer :=
  environment s (if s.passes k then r else .ok s false)

/-! ## The ALU -/

/-- `AddWithCarry(a, b, c)`: result, carry, overflow (R202). -/
def addWithCarry (a b : Word) (c : Bool) : Word × Bool × Bool :=
  let sum := a.toNat + b.toNat + c.toNat
  let r := BitVec.ofNat 32 sum
  (r, decide (2 ^ 32 ≤ sum), (a.getLsbD 31 == b.getLsbD 31) && (r.getLsbD 31 != a.getLsbD 31))

/-- What the ALU gives: a logical operation produces no carry and no overflow (R201). -/
inductive AluOut where
  | logical (r : Word)
  | arith (r : Word) (c v : Bool)
deriving DecidableEq, Repr

/-- The result of the ALU. -/
def AluOut.value : AluOut → Word
  | .logical r => r
  | .arith r _ _ => r

/-- An arithmetic operation as one addition (R201). -/
def adder (a b : Word) (c : Bool) : AluOut :=
  .arith (addWithCarry a b c).1 (addWithCarry a b c).2.1 (addWithCarry a b c).2.2

/-- `Alu(opcode, rn, v2, cin)` (R201). -/
def alu (op : DpOp) (rn v2 : Word) (cin : Bool) : AluOut :=
  match op with
  | .and | .tst => .logical (rn &&& v2)
  | .eor | .teq => .logical (rn ^^^ v2)
  | .orr => .logical (rn ||| v2)
  | .mov => .logical v2
  | .bic => .logical (rn &&& ~~~v2)
  | .mvn => .logical (~~~v2)
  | .sub | .cmp => adder rn (~~~v2) true
  | .rsb => adder v2 (~~~rn) true
  | .add | .cmn => adder rn v2 false
  | .adc => adder rn v2 cin
  | .sbc => adder rn (~~~v2) cin
  | .rsc => adder v2 (~~~rn) cin

/-- The flags after an instruction with S = 1: a logical operation keeps V, and keeps C where the shifter
defines none (R203); an arithmetic one takes both from the adder (R204). -/
def flagsAfter (out : AluOut) (shiftCarry : Option Bool) (p : Cpsr) : Cpsr :=
  match out with
  | .logical r => { p with n := r.getLsbD 31, z := r == 0, c := shiftCarry.getD p.c }
  | .arith r c v => { p with n := r.getLsbD 31, z := r == 0, c := c, v := v }

/-! ## The multiplies -/

/-- MUL and MLA with S = 1: C is a draw, V is unchanged (R282). The draw is made at the state's draw counter,
which advances (log entry 3). -/
def State.setMultiplyFlags (s : State) (sb : Bool) (r a b : Word) : State :=
  if sb then
    { s with
      cpsr := { s.cpsr with n := r.getLsbD 31, z := r == 0, c := Config.mulCarry s.drawCount a b }
      drawCount := s.drawCount + 1 }
  else s

/-- The long multiplies with S = 1: C and V are draws (R282). -/
def State.setLongFlags (s : State) (sb : Bool) (r : BitVec 64) (a b : Word) : State :=
  if sb then
    { s with
      cpsr := { s.cpsr with n := r.getLsbD 63, z := r == 0, c := Config.mulCarry s.drawCount a b,
                            v := Config.mulOverflow s.drawCount a b }
      drawCount := s.drawCount + 1 }
  else s

end Sys2Proof.Machine
end

