-- ==== Sys2Proof/Machine/Block.lean ====
section
/-! DEFINITION. LDM and STM (spec/47_block_transfer.md). -/

namespace Sys2Proof.Machine

/-- Is this LDM a CPSR restore: S = 1 with R15 in the list? (R346). -/
def isRestore (sb : Bool) (list : BitVec 16) : Bool := sb && inList list 15

/-- A user-bank transfer without meaning: with write-back, or in USR or SYS mode (R344). -/
def badUserBank (w : Bool) (s : State) : Bool :=
  w || s.cpsr.m = .usr || s.cpsr.m = .sys

/-- The forms of LDM without meaning (R344). -/
def badLoadBlock (sb w : Bool) (rn : Reg) (list : BitVec 16) (s : State) : Bool :=
  list = 0 || rn = 15 || (w && inList list rn) || (sb && !inList list 15 && badUserBank w s)

/-- The forms of STM without meaning (R344). -/
def badStoreBlock (sb w : Bool) (rn : Reg) (list : BitVec 16) (s : State) : Bool :=
  list = 0 || rn = 15 || (w && inList list rn && !isLowest list rn) || (sb && badUserBank w s)

/-- The registers after an LDM: the write-back, then the loaded registers, in the bank of the mode the
instruction started in, or in the user bank (R343, R345, R346). -/
def loadedBlock (p u sb w : Bool) (rn : Reg) (list : BitVec 16) (s : State) : State :=
  let base := s.readReg rn
  let t := if w then s.writeReg rn (blockWriteback u base list) else s
  State.writeRegs (sb && !inList list 15) t (s.loadBlock (blockStart p u base list) list)

/-- LDM after the form checks (R347). A restore takes the SPSR of the mode the instruction started in, and its
errors come before any bus call (R346). -/
def loadMultiple (p u sb w : Bool) (rn : Reg) (list : BitVec 16) (s : State) : StepResult :=
  if isRestore sb list then
    StepResult.ofExcept s.restoreCpsr fun t =>
      .ok { loadedBlock p u sb w rn list s with cpsr := t.cpsr } true
  else .ok (loadedBlock p u sb w rn list s) (inList list 15)

/-- STM after the form checks: the values are read before anything is written (R343, R348). -/
def storeMultiple (p u sb w : Bool) (rn : Reg) (list : BitVec 16) (s : State) : StepResult :=
  let base := s.readReg rn
  let t := s.writeWords (State.storeBlock sb s (blockStart p u base list) list)
  .ok (if w then t.writeReg rn (blockWriteback u base list) else t) false

/-- STM (R348). -/
def execStm (c : Cond) (p u sb w : Bool) (rn : Reg) (list : BitVec 16) (s : State) : Answer :=
  conditionally c s (nonCore (unlessForm (badStoreBlock sb w rn list s) (storeMultiple p u sb w rn list s)))

/-- LDM (R347). -/
def execLdm (c : Cond) (p u sb w : Bool) (rn : Reg) (list : BitVec 16) (s : State) : Answer :=
  conditionally c s (nonCore (unlessForm (badLoadBlock sb w rn list s) (loadMultiple p u sb w rn list s)))

end Sys2Proof.Machine
end

