-- ==== Sys2Proof/Machine/Branch.lean ====
section
/-! DEFINITION. B, BL, BX (spec/44_branch.md). -/

namespace Sys2Proof.Machine

/-- The branch target: the held R15 plus `sext_24(offset24) * 4` (R271, R272). -/
def branchTarget (offset24 : BitVec 24) (s : State) : Word := s.pc + offset24.signExtend 32 * 4

/-- BX after its condition: T from bit 0, R15 without it (R273). -/
def branchExchange (rn : Reg) (s : State) : StepResult :=
  let x := s.readReg rn
  .ok ({ s with cpsr := { s.cpsr with t := x.getLsbD 0 } }.writePc (x &&& ~~~(1#32))) true

/-- BX (R273). -/
def execBx (c : Cond) (rn : Reg) (s : State) : Answer :=
  conditionally c s (nonCore (branchExchange rn s))

/-- B (R271). -/
def execB (c : Cond) (offset24 : BitVec 24) (s : State) : Answer :=
  conditionally c s (nonCore (.ok (s.writePc (branchTarget offset24 s)) true))

/-- BL: R14 of the current mode gets the address of the next instruction (R272). -/
def execBl (c : Cond) (offset24 : BitVec 24) (s : State) : Answer :=
  conditionally c s (nonCore (.ok ((s.writeReg 14 (s.pc - 4)).writePc (branchTarget offset24 s)) true))

end Sys2Proof.Machine
end

