-- ==== Sys2Proof/Machine/DataProcessing.lean ====
section
/-! DEFINITION. The data-processing instructions (spec/42_data_processing.md): one shared execution and one
meaning per row of the opcode table. -/

namespace Sys2Proof.Machine

/-- Execution of a data-processing instruction whose condition passed (R200). With S = 1 and Rd = 15 the CPSR is
replaced by the SPSR of the current mode, R15 gets the result unless the operation is a compare, and the flags
are not computed from the result (R205); with S = 0 and Rd = 15 it is a branch (R206). Every source is read
before a write (R208). -/
def dataProcessing (op : DpOp) (sb : Bool) (rn rd : Reg) (o : Operand2) (s : State) : StepResult :=
  let sh := operand2 o s
  let out := alu op (s.readReg rn) sh.1 s.cpsr.c
  if sb && rd = 15 then
    StepResult.ofExcept s.restoreCpsr fun t =>
      if op.isCompare then .ok t false else .ok (t.writePc out.value) true
  else
    let t := if op.isCompare then s else s.writeReg rd out.value
    .ok (if sb then { t with cpsr := flagsAfter out sh.2 s.cpsr } else t) (!op.isCompare && rd = 15)

/-- AND, immediate operand2 (R210). -/
def execAndImm (c : Cond) (sb : Bool) (rn rd : Reg) (rot : BitVec 4) (imm8 : BitVec 8) (s : State) : Answer :=
  conditionally c s (dataProcessing .and sb rn rd (.imm rot imm8) s)

/-- AND, register operand2 with an immediate shift amount (R210). -/
def execAndShiftImm (c : Cond) (sb : Bool) (rn rd : Reg) (amount5 : BitVec 5) (kind : ShiftKind) (rm : Reg) (s : State) : Answer :=
  conditionally c s (dataProcessing .and sb rn rd (.shiftImm amount5 kind rm) s)

/-- AND, register operand2 with a register shift amount (R210). -/
def execAndShiftReg (c : Cond) (sb : Bool) (rn rd rs : Reg) (kind : ShiftKind) (rm : Reg) (s : State) : Answer :=
  conditionally c s (dataProcessing .and sb rn rd (.shiftReg rs kind rm) s)

/-- EOR, immediate operand2 (R211). -/
def execEorImm (c : Cond) (sb : Bool) (rn rd : Reg) (rot : BitVec 4) (imm8 : BitVec 8) (s : State) : Answer :=
  conditionally c s (dataProcessing .eor sb rn rd (.imm rot imm8) s)

/-- EOR, register operand2 with an immediate shift amount (R211). -/
def execEorShiftImm (c : Cond) (sb : Bool) (rn rd : Reg) (amount5 : BitVec 5) (kind : ShiftKind) (rm : Reg) (s : State) : Answer :=
  conditionally c s (dataProcessing .eor sb rn rd (.shiftImm amount5 kind rm) s)

/-- EOR, register operand2 with a register shift amount (R211). -/
def execEorShiftReg (c : Cond) (sb : Bool) (rn rd rs : Reg) (kind : ShiftKind) (rm : Reg) (s : State) : Answer :=
  conditionally c s (dataProcessing .eor sb rn rd (.shiftReg rs kind rm) s)

/-- SUB, immediate operand2 (R212). -/
def execSubImm (c : Cond) (sb : Bool) (rn rd : Reg) (rot : BitVec 4) (imm8 : BitVec 8) (s : State) : Answer :=
  conditionally c s (dataProcessing .sub sb rn rd (.imm rot imm8) s)

/-- SUB, register operand2 with an immediate shift amount (R212). -/
def execSubShiftImm (c : Cond) (sb : Bool) (rn rd : Reg) (amount5 : BitVec 5) (kind : ShiftKind) (rm : Reg) (s : State) : Answer :=
  conditionally c s (dataProcessing .sub sb rn rd (.shiftImm amount5 kind rm) s)

/-- SUB, register operand2 with a register shift amount (R212). -/
def execSubShiftReg (c : Cond) (sb : Bool) (rn rd rs : Reg) (kind : ShiftKind) (rm : Reg) (s : State) : Answer :=
  conditionally c s (dataProcessing .sub sb rn rd (.shiftReg rs kind rm) s)

/-- RSB, immediate operand2 (R213). -/
def execRsbImm (c : Cond) (sb : Bool) (rn rd : Reg) (rot : BitVec 4) (imm8 : BitVec 8) (s : State) : Answer :=
  conditionally c s (dataProcessing .rsb sb rn rd (.imm rot imm8) s)

/-- RSB, register operand2 with an immediate shift amount (R213). -/
def execRsbShiftImm (c : Cond) (sb : Bool) (rn rd : Reg) (amount5 : BitVec 5) (kind : ShiftKind) (rm : Reg) (s : State) : Answer :=
  conditionally c s (dataProcessing .rsb sb rn rd (.shiftImm amount5 kind rm) s)

/-- RSB, register operand2 with a register shift amount (R213). -/
def execRsbShiftReg (c : Cond) (sb : Bool) (rn rd rs : Reg) (kind : ShiftKind) (rm : Reg) (s : State) : Answer :=
  conditionally c s (dataProcessing .rsb sb rn rd (.shiftReg rs kind rm) s)

/-- ADD, immediate operand2 (R214). -/
def execAddImm (c : Cond) (sb : Bool) (rn rd : Reg) (rot : BitVec 4) (imm8 : BitVec 8) (s : State) : Answer :=
  conditionally c s (dataProcessing .add sb rn rd (.imm rot imm8) s)

/-- ADD, register operand2 with an immediate shift amount (R214). -/
def execAddShiftImm (c : Cond) (sb : Bool) (rn rd : Reg) (amount5 : BitVec 5) (kind : ShiftKind) (rm : Reg) (s : State) : Answer :=
  conditionally c s (dataProcessing .add sb rn rd (.shiftImm amount5 kind rm) s)

/-- ADD, register operand2 with a register shift amount (R214). -/
def execAddShiftReg (c : Cond) (sb : Bool) (rn rd rs : Reg) (kind : ShiftKind) (rm : Reg) (s : State) : Answer :=
  conditionally c s (dataProcessing .add sb rn rd (.shiftReg rs kind rm) s)

/-- ADC, immediate operand2 (R215). -/
def execAdcImm (c : Cond) (sb : Bool) (rn rd : Reg) (rot : BitVec 4) (imm8 : BitVec 8) (s : State) : Answer :=
  conditionally c s (dataProcessing .adc sb rn rd (.imm rot imm8) s)

/-- ADC, register operand2 with an immediate shift amount (R215). -/
def execAdcShiftImm (c : Cond) (sb : Bool) (rn rd : Reg) (amount5 : BitVec 5) (kind : ShiftKind) (rm : Reg) (s : State) : Answer :=
  conditionally c s (dataProcessing .adc sb rn rd (.shiftImm amount5 kind rm) s)

/-- ADC, register operand2 with a register shift amount (R215). -/
def execAdcShiftReg (c : Cond) (sb : Bool) (rn rd rs : Reg) (kind : ShiftKind) (rm : Reg) (s : State) : Answer :=
  conditionally c s (dataProcessing .adc sb rn rd (.shiftReg rs kind rm) s)

/-- SBC, immediate operand2 (R216). -/
def execSbcImm (c : Cond) (sb : Bool) (rn rd : Reg) (rot : BitVec 4) (imm8 : BitVec 8) (s : State) : Answer :=
  conditionally c s (dataProcessing .sbc sb rn rd (.imm rot imm8) s)

/-- SBC, register operand2 with an immediate shift amount (R216). -/
def execSbcShiftImm (c : Cond) (sb : Bool) (rn rd : Reg) (amount5 : BitVec 5) (kind : ShiftKind) (rm : Reg) (s : State) : Answer :=
  conditionally c s (dataProcessing .sbc sb rn rd (.shiftImm amount5 kind rm) s)

/-- SBC, register operand2 with a register shift amount (R216). -/
def execSbcShiftReg (c : Cond) (sb : Bool) (rn rd rs : Reg) (kind : ShiftKind) (rm : Reg) (s : State) : Answer :=
  conditionally c s (dataProcessing .sbc sb rn rd (.shiftReg rs kind rm) s)

/-- RSC, immediate operand2 (R217). -/
def execRscImm (c : Cond) (sb : Bool) (rn rd : Reg) (rot : BitVec 4) (imm8 : BitVec 8) (s : State) : Answer :=
  conditionally c s (dataProcessing .rsc sb rn rd (.imm rot imm8) s)

/-- RSC, register operand2 with an immediate shift amount (R217). -/
def execRscShiftImm (c : Cond) (sb : Bool) (rn rd : Reg) (amount5 : BitVec 5) (kind : ShiftKind) (rm : Reg) (s : State) : Answer :=
  conditionally c s (dataProcessing .rsc sb rn rd (.shiftImm amount5 kind rm) s)

/-- RSC, register operand2 with a register shift amount (R217). -/
def execRscShiftReg (c : Cond) (sb : Bool) (rn rd rs : Reg) (kind : ShiftKind) (rm : Reg) (s : State) : Answer :=
  conditionally c s (dataProcessing .rsc sb rn rd (.shiftReg rs kind rm) s)

/-- TST, immediate operand2 (R218). -/
def execTstImm (c : Cond) (rn rd : Reg) (rot : BitVec 4) (imm8 : BitVec 8) (s : State) : Answer :=
  conditionally c s (dataProcessing .tst true rn rd (.imm rot imm8) s)

/-- TST, register operand2 with an immediate shift amount (R218). -/
def execTstShiftImm (c : Cond) (rn rd : Reg) (amount5 : BitVec 5) (kind : ShiftKind) (rm : Reg) (s : State) : Answer :=
  conditionally c s (dataProcessing .tst true rn rd (.shiftImm amount5 kind rm) s)

/-- TST, register operand2 with a register shift amount (R218). -/
def execTstShiftReg (c : Cond) (rn rd rs : Reg) (kind : ShiftKind) (rm : Reg) (s : State) : Answer :=
  conditionally c s (dataProcessing .tst true rn rd (.shiftReg rs kind rm) s)

/-- TEQ, immediate operand2 (R219). -/
def execTeqImm (c : Cond) (rn rd : Reg) (rot : BitVec 4) (imm8 : BitVec 8) (s : State) : Answer :=
  conditionally c s (dataProcessing .teq true rn rd (.imm rot imm8) s)

/-- TEQ, register operand2 with an immediate shift amount (R219). -/
def execTeqShiftImm (c : Cond) (rn rd : Reg) (amount5 : BitVec 5) (kind : ShiftKind) (rm : Reg) (s : State) : Answer :=
  conditionally c s (dataProcessing .teq true rn rd (.shiftImm amount5 kind rm) s)

/-- TEQ, register operand2 with a register shift amount (R219). -/
def execTeqShiftReg (c : Cond) (rn rd rs : Reg) (kind : ShiftKind) (rm : Reg) (s : State) : Answer :=
  conditionally c s (dataProcessing .teq true rn rd (.shiftReg rs kind rm) s)

/-- CMP, immediate operand2 (R220). -/
def execCmpImm (c : Cond) (rn rd : Reg) (rot : BitVec 4) (imm8 : BitVec 8) (s : State) : Answer :=
  conditionally c s (dataProcessing .cmp true rn rd (.imm rot imm8) s)

/-- CMP, register operand2 with an immediate shift amount (R220). -/
def execCmpShiftImm (c : Cond) (rn rd : Reg) (amount5 : BitVec 5) (kind : ShiftKind) (rm : Reg) (s : State) : Answer :=
  conditionally c s (dataProcessing .cmp true rn rd (.shiftImm amount5 kind rm) s)

/-- CMP, register operand2 with a register shift amount (R220). -/
def execCmpShiftReg (c : Cond) (rn rd rs : Reg) (kind : ShiftKind) (rm : Reg) (s : State) : Answer :=
  conditionally c s (dataProcessing .cmp true rn rd (.shiftReg rs kind rm) s)

/-- CMN, immediate operand2 (R221). -/
def execCmnImm (c : Cond) (rn rd : Reg) (rot : BitVec 4) (imm8 : BitVec 8) (s : State) : Answer :=
  conditionally c s (dataProcessing .cmn true rn rd (.imm rot imm8) s)

/-- CMN, register operand2 with an immediate shift amount (R221). -/
def execCmnShiftImm (c : Cond) (rn rd : Reg) (amount5 : BitVec 5) (kind : ShiftKind) (rm : Reg) (s : State) : Answer :=
  conditionally c s (dataProcessing .cmn true rn rd (.shiftImm amount5 kind rm) s)

/-- CMN, register operand2 with a register shift amount (R221). -/
def execCmnShiftReg (c : Cond) (rn rd rs : Reg) (kind : ShiftKind) (rm : Reg) (s : State) : Answer :=
  conditionally c s (dataProcessing .cmn true rn rd (.shiftReg rs kind rm) s)

/-- ORR, immediate operand2 (R222). -/
def execOrrImm (c : Cond) (sb : Bool) (rn rd : Reg) (rot : BitVec 4) (imm8 : BitVec 8) (s : State) : Answer :=
  conditionally c s (dataProcessing .orr sb rn rd (.imm rot imm8) s)

/-- ORR, register operand2 with an immediate shift amount (R222). -/
def execOrrShiftImm (c : Cond) (sb : Bool) (rn rd : Reg) (amount5 : BitVec 5) (kind : ShiftKind) (rm : Reg) (s : State) : Answer :=
  conditionally c s (dataProcessing .orr sb rn rd (.shiftImm amount5 kind rm) s)

/-- ORR, register operand2 with a register shift amount (R222). -/
def execOrrShiftReg (c : Cond) (sb : Bool) (rn rd rs : Reg) (kind : ShiftKind) (rm : Reg) (s : State) : Answer :=
  conditionally c s (dataProcessing .orr sb rn rd (.shiftReg rs kind rm) s)

/-- MOV, immediate operand2 (R223). -/
def execMovImm (c : Cond) (sb : Bool) (rn rd : Reg) (rot : BitVec 4) (imm8 : BitVec 8) (s : State) : Answer :=
  conditionally c s (dataProcessing .mov sb rn rd (.imm rot imm8) s)

/-- MOV, register operand2 with an immediate shift amount (R223). -/
def execMovShiftImm (c : Cond) (sb : Bool) (rn rd : Reg) (amount5 : BitVec 5) (kind : ShiftKind) (rm : Reg) (s : State) : Answer :=
  conditionally c s (dataProcessing .mov sb rn rd (.shiftImm amount5 kind rm) s)

/-- MOV, register operand2 with a register shift amount (R223). -/
def execMovShiftReg (c : Cond) (sb : Bool) (rn rd rs : Reg) (kind : ShiftKind) (rm : Reg) (s : State) : Answer :=
  conditionally c s (dataProcessing .mov sb rn rd (.shiftReg rs kind rm) s)

/-- BIC, immediate operand2 (R224). -/
def execBicImm (c : Cond) (sb : Bool) (rn rd : Reg) (rot : BitVec 4) (imm8 : BitVec 8) (s : State) : Answer :=
  conditionally c s (dataProcessing .bic sb rn rd (.imm rot imm8) s)

/-- BIC, register operand2 with an immediate shift amount (R224). -/
def execBicShiftImm (c : Cond) (sb : Bool) (rn rd : Reg) (amount5 : BitVec 5) (kind : ShiftKind) (rm : Reg) (s : State) : Answer :=
  conditionally c s (dataProcessing .bic sb rn rd (.shiftImm amount5 kind rm) s)

/-- BIC, register operand2 with a register shift amount (R224). -/
def execBicShiftReg (c : Cond) (sb : Bool) (rn rd rs : Reg) (kind : ShiftKind) (rm : Reg) (s : State) : Answer :=
  conditionally c s (dataProcessing .bic sb rn rd (.shiftReg rs kind rm) s)

/-- MVN, immediate operand2 (R225). -/
def execMvnImm (c : Cond) (sb : Bool) (rn rd : Reg) (rot : BitVec 4) (imm8 : BitVec 8) (s : State) : Answer :=
  conditionally c s (dataProcessing .mvn sb rn rd (.imm rot imm8) s)

/-- MVN, register operand2 with an immediate shift amount (R225). -/
def execMvnShiftImm (c : Cond) (sb : Bool) (rn rd : Reg) (amount5 : BitVec 5) (kind : ShiftKind) (rm : Reg) (s : State) : Answer :=
  conditionally c s (dataProcessing .mvn sb rn rd (.shiftImm amount5 kind rm) s)

/-- MVN, register operand2 with a register shift amount (R225). -/
def execMvnShiftReg (c : Cond) (sb : Bool) (rn rd rs : Reg) (kind : ShiftKind) (rm : Reg) (s : State) : Answer :=
  conditionally c s (dataProcessing .mvn sb rn rd (.shiftReg rs kind rm) s)

end Sys2Proof.Machine
end

