-- ==== Sys2Proof/Machine/Multiply.lean ====
section
/-! DEFINITION. The multiplies MUL, MLA and the long multiplies (spec/45_multiply.md). -/

namespace Sys2Proof.Machine

/-- The forms of MUL and MLA without meaning: Rd = Rm, or R15 as an operand (Rn counts for MLA only) (R281). -/
def badMultiply (accumulate : Bool) (rd rn rs rm : Reg) : Bool :=
  rd = rm || rd = 15 || rm = 15 || rs = 15 || (accumulate && rn = 15)

/-- MUL and MLA: the low 32 bits of the product, plus `acc` (R283, R284). -/
def multiply (sb : Bool) (rd rs rm : Reg) (acc : Word) (s : State) : StepResult :=
  let a := s.readReg rm
  let b := s.readReg rs
  let r := a * b + acc
  .ok ((s.writeReg rd r).setMultiplyFlags sb r a b) false

/-- The forms of a long multiply without meaning (R281). -/
def badLong (rdHi rdLo rs rm : Reg) : Bool :=
  rdHi = rdLo || rdHi = rm || rdLo = rm || rdHi = 15 || rdLo = 15 || rm = 15 || rs = 15

/-- The accumulate value `x[RdHi] * 2^32 + x[RdLo]` (R285). -/
def longAcc (rdHi rdLo : Reg) (s : State) : BitVec 64 := s.readReg rdHi ++ s.readReg rdLo

/-- The unsigned 64-bit product (R286). -/
def productU (a b : Word) : BitVec 64 := a.zeroExtend 64 * b.zeroExtend 64

/-- The two's-complement 64-bit product (R288). -/
def productS (a b : Word) : BitVec 64 := a.signExtend 64 * b.signExtend 64

/-- The write of a 64-bit result and its flags (R285). -/
def writeLong (sb : Bool) (rdHi rdLo rs rm : Reg) (r : BitVec 64) (s : State) : StepResult :=
  .ok (((s.writeReg rdLo (r.extractLsb' 0 32)).writeReg rdHi (r.extractLsb' 32 32)).setLongFlags sb r
    (s.readReg rm) (s.readReg rs)) false

/-- A long multiply of the result `r` (R281, R285). -/
def multiplyLong (sb : Bool) (rdHi rdLo rs rm : Reg) (r : BitVec 64) (s : State) : StepResult :=
  nonCore (unlessForm (badLong rdHi rdLo rs rm) (writeLong sb rdHi rdLo rs rm r s))

/-- MUL; Rn is ignored (R283). -/
def execMul (c : Cond) (sb : Bool) (rd rn rs rm : Reg) (s : State) : Answer :=
  conditionally c s (nonCore (unlessForm (badMultiply false rd rn rs rm) (multiply sb rd rs rm 0 s)))

/-- MLA (R284). -/
def execMla (c : Cond) (sb : Bool) (rd rn rs rm : Reg) (s : State) : Answer :=
  conditionally c s (nonCore (unlessForm (badMultiply true rd rn rs rm) (multiply sb rd rs rm (s.readReg rn) s)))

/-- UMULL (R286). -/
def execUmull (c : Cond) (sb : Bool) (rdHi rdLo rs rm : Reg) (s : State) : Answer :=
  conditionally c s (multiplyLong sb rdHi rdLo rs rm (productU (s.readReg rm) (s.readReg rs)) s)

/-- UMLAL (R287). -/
def execUmlal (c : Cond) (sb : Bool) (rdHi rdLo rs rm : Reg) (s : State) : Answer :=
  conditionally c s (multiplyLong sb rdHi rdLo rs rm (productU (s.readReg rm) (s.readReg rs) + longAcc rdHi rdLo s) s)

/-- SMULL (R288). -/
def execSmull (c : Cond) (sb : Bool) (rdHi rdLo rs rm : Reg) (s : State) : Answer :=
  conditionally c s (multiplyLong sb rdHi rdLo rs rm (productS (s.readReg rm) (s.readReg rs)) s)

/-- SMLAL (R289). -/
def execSmlal (c : Cond) (sb : Bool) (rdHi rdLo rs rm : Reg) (s : State) : Answer :=
  conditionally c s (multiplyLong sb rdHi rdLo rs rm (productS (s.readReg rm) (s.readReg rs) + longAcc rdHi rdLo s) s)

end Sys2Proof.Machine
end

