-- ==== Sys2Proof/Machine/Psr.lean ====
section
/-! DEFINITION. PSR transfer: MRS and the four MSR forms (spec/43_psr_transfer.md). -/

namespace Sys2Proof.Machine

/-- The mask of a full-form MSR to the CPSR: in USR mode only the flag bits (R252, R257). -/
def fullCpsrMask (s : State) : Word :=
  if s.cpsr.m = .usr && !Config.usrCpsrControlWritable then Config.psrFlags else Config.psrImpl

/-- The image MRS reads: the CPSR, or the SPSR of the current mode (R250, R251). -/
def psrRead (ps : Bool) (s : State) : Except ExecError Word :=
  if ps then
    match s.readSpsr with
    | .ok p => .ok p.image
    | .error e => .error e
  else .ok s.cpsrImage

/-- A masked PSR write to the CPSR, or to the SPSR of the current mode (R250). -/
def psrWrite (pd : Bool) (value mask : Word) (s : State) : StepResult :=
  StepResult.ofExcept (if pd then s.writeSpsr value mask else s.writeCpsr value mask) fun t => .ok t false

/-- MRS after its condition; Rd = 15 is a write of R15 like any other (R251, entry U5). -/
def moveFromPsr (ps : Bool) (rd : Reg) (s : State) : StepResult :=
  match psrRead ps s with
  | .ok x => .ok (s.writeReg rd x) (rd = 15)
  | .error e => .err e

/-- MRS (R251). -/
def execMrs (c : Cond) (ps : Bool) (rd : Reg) (s : State) : Answer :=
  conditionally c s (moveFromPsr ps rd s)

/-- MSR, full form, to the CPSR (R252). -/
def execMsrCpsr (c : Cond) (rm : Reg) (s : State) : Answer :=
  conditionally c s (psrWrite false (s.readReg rm) (fullCpsrMask s) s)

/-- MSR, full form, to the SPSR (R253). -/
def execMsrSpsr (c : Cond) (rm : Reg) (s : State) : Answer :=
  conditionally c s (psrWrite true (s.readReg rm) Config.psrImpl s)

/-- MSR, flag bits only, from a register (R254). -/
def execMsrFlagsReg (c : Cond) (pd : Bool) (rm : Reg) (s : State) : Answer :=
  conditionally c s (psrWrite pd (s.readReg rm) Config.psrFlags s)

/-- MSR, flag bits only, from an immediate; the shifter carry is not used (R255). -/
def execMsrFlagsImm (c : Cond) (pd : Bool) (rot : BitVec 4) (imm8 : BitVec 8) (s : State) : Answer :=
  conditionally c s (psrWrite pd (rotatedImm rot imm8) Config.psrFlags s)

end Sys2Proof.Machine
end

