-- ==== Sys2Proof/Machine/Swap.lean ====
section
/-! DEFINITION. SWP and SWPB (spec/46_single_transfer.md R330, R331). -/

namespace Sys2Proof.Machine

/-- The forms without meaning: R15 as any register, Rn = Rd, Rn = Rm (R330). -/
def badSwap (rn rd rm : Reg) : Bool :=
  rn = 15 || rd = 15 || rm = 15 || rn = rd || rn = rm

/-- The read, then the write, then Rd (R330, R331). -/
def swap (lk : LoadKind) (sk : StoreKind) (rn rd rm : Reg) (s : State) : StepResult :=
  let ea := s.readReg rn
  .ok ((s.storeValue sk ea (s.readReg rm)).writeReg rd (s.loadValue lk ea)) false

/-- SWP (R330). -/
def execSwp (c : Cond) (rn rd rm : Reg) (s : State) : Answer :=
  conditionally c s (nonCore (unlessForm (badSwap rn rd rm) (swap .word .word rn rd rm s)))

/-- SWPB (R331). -/
def execSwpb (c : Cond) (rn rd rm : Reg) (s : State) : Answer :=
  conditionally c s (nonCore (unlessForm (badSwap rn rd rm) (swap .byte .byte rn rd rm s)))

end Sys2Proof.Machine
end

