-- ==== Sys2Proof/Machine/System.lean ====
section
/-! DEFINITION. SWI, the five coprocessor instructions and the Undefined words
(spec/48_swi_coproc_undefined.md). The block reports; the reference environment takes the exception
(`environment` of Machine/Ops.lean, R149, R392). -/

namespace Sys2Proof.Machine

/-- A coprocessor instruction, with no coprocessor attached: `Err(UndefinedInstruction)` (R363). -/
def noCoprocessor : StepResult := nonCore (.err .undefinedInstruction)

/-- STC (R363). -/
def execStc (c : Cond) (_p _u _n _w : Bool) (_rn : Reg) (_crd _cpNum : BitVec 4) (_offset8 : BitVec 8) (s : State) : Answer :=
  conditionally c s noCoprocessor

/-- LDC (R363). -/
def execLdc (c : Cond) (_p _u _n _w : Bool) (_rn : Reg) (_crd _cpNum : BitVec 4) (_offset8 : BitVec 8) (s : State) : Answer :=
  conditionally c s noCoprocessor

/-- CDP (R363). -/
def execCdp (c : Cond) (_opc _crn _crd _cpNum : BitVec 4) (_cp : BitVec 3) (_crm : BitVec 4) (s : State) : Answer :=
  conditionally c s noCoprocessor

/-- MCR (R363). -/
def execMcr (c : Cond) (_opc : BitVec 3) (_crn : BitVec 4) (_rd : Reg) (_cpNum : BitVec 4) (_cp : BitVec 3) (_crm : BitVec 4) (s : State) : Answer :=
  conditionally c s noCoprocessor

/-- MRC (R363). -/
def execMrc (c : Cond) (_opc : BitVec 3) (_crn : BitVec 4) (_rd : Reg) (_cpNum : BitVec 4) (_cp : BitVec 3) (_crm : BitVec 4) (s : State) : Answer :=
  conditionally c s noCoprocessor

/-- SWI (R361): the environment enters SVC mode at vector 8 (R391, R392). -/
def execSwi (c : Cond) (comment : BitVec 24) (s : State) : Answer :=
  conditionally c s (nonCore (.trap comment))

/-- An Undefined word (R365): the environment enters UND mode at vector 4 (R391, R392). -/
def execUndefined (c : Cond) (_body : BitVec 28) (s : State) : Answer :=
  conditionally c s (.err .undefinedInstruction)

end Sys2Proof.Machine
end

