-- ==== Sys2Proof/Machine/Transfer.lean ====
section
/-! DEFINITION. The single data transfers LDR, STR, LDRB, STRB with their T forms, and the halfword and signed
transfers LDRH, STRH, LDRSB, LDRSH (spec/46_single_transfer.md). A T form is the post-indexed form (R309). -/

namespace Sys2Proof.Machine

/-- The base register after a transfer: `idx` where the transfer writes back (R301). -/
def State.writeBack (s : State) (wb : Bool) (rn : Reg) (idx : Word) : State :=
  if wb then s.writeReg rn idx else s

/-- A load: the bus read, then the write-back of Rn, then the write of Rd (R310). -/
def load (k : LoadKind) (p u w : Bool) (rn rd : Reg) (off : Word) (s : State) : StepResult :=
  let base := s.readReg rn
  let x := s.loadValue k (effectiveAddr p u base off)
  .ok ((s.writeBack (writesBack p w) rn (indexed u base off)).writeReg rd x) (rd = 15)

/-- A store: the bus write, then the write-back of Rn (R310). -/
def store (k : StoreKind) (p u w : Bool) (rn rd : Reg) (off : Word) (s : State) : StepResult :=
  let base := s.readReg rn
  .ok ((s.storeValue k (effectiveAddr p u base off) (s.storedReg rd)).writeBack (writesBack p w) rn
    (indexed u base off)) false

/-- The forms without meaning that every transfer shares: write-back with Rn = 15 or Rn = Rd, and R15 as the
offset register (R304). -/
def badTransfer (p w : Bool) (rn rd : Reg) (offsetPc : Bool) : Bool :=
  (writesBack p w && (rn = 15 || rn = rd)) || offsetPc

/-- The forms without meaning of LDRB and STRB: also Rd = 15 (R304). -/
def badByte (p w : Bool) (rn rd : Reg) (offsetPc : Bool) : Bool :=
  badTransfer p w rn rd offsetPc || rd = 15

/-- The forms without meaning of the halfword and signed transfers: also Rd = 15, and P = 0 with W = 1
(R304). -/
def badHalf (p w : Bool) (rn rd : Reg) (offsetPc : Bool) : Bool :=
  badTransfer p w rn rd offsetPc || rd = 15 || (!p && w)

/-- `ea[0] = 1`, without meaning for LDRH, LDRSH and STRH (R304, R65). -/
def oddAddress (p u : Bool) (rn : Reg) (off : Word) (s : State) : Bool :=
  (effectiveAddr p u (s.readReg rn) off).getLsbD 0

/-- LDR (R305). -/
def loadWord (p u w : Bool) (rn rd : Reg) (o : WordOffset) (s : State) : StepResult :=
  nonCore (unlessForm (badTransfer p w rn rd (WordOffset.usesPc o))
    (load .word p u w rn rd (wordOffset o s) s))

/-- STR (R306). -/
def storeWord (p u w : Bool) (rn rd : Reg) (o : WordOffset) (s : State) : StepResult :=
  nonCore (unlessForm (badTransfer p w rn rd (WordOffset.usesPc o))
    (store .word p u w rn rd (wordOffset o s) s))

/-- LDRB (R307). -/
def loadByte (p u w : Bool) (rn rd : Reg) (o : WordOffset) (s : State) : StepResult :=
  nonCore (unlessForm (badByte p w rn rd (WordOffset.usesPc o))
    (load .byte p u w rn rd (wordOffset o s) s))

/-- STRB (R308). -/
def storeByte (p u w : Bool) (rn rd : Reg) (o : WordOffset) (s : State) : StepResult :=
  nonCore (unlessForm (badByte p w rn rd (WordOffset.usesPc o))
    (store .byte p u w rn rd (wordOffset o s) s))

/-- LDRH and LDRSH (R315, R318). -/
def loadHalf (k : LoadKind) (p u w : Bool) (rn rd : Reg) (o : HalfOffset) (s : State) : StepResult :=
  nonCore (unlessForm (badHalf p w rn rd (HalfOffset.usesPc o))
    (unlessForm (oddAddress p u rn (halfOffset o s) s) (load k p u w rn rd (halfOffset o s) s)))

/-- STRH (R316). -/
def storeHalf (p u w : Bool) (rn rd : Reg) (o : HalfOffset) (s : State) : StepResult :=
  nonCore (unlessForm (badHalf p w rn rd (HalfOffset.usesPc o))
    (unlessForm (oddAddress p u rn (halfOffset o s) s) (store .half p u w rn rd (halfOffset o s) s)))

/-- LDRSB (R317). -/
def loadSignedByte (p u w : Bool) (rn rd : Reg) (o : HalfOffset) (s : State) : StepResult :=
  nonCore (unlessForm (badHalf p w rn rd (HalfOffset.usesPc o))
    (load .signedByte p u w rn rd (halfOffset o s) s))

/-- STRH, register offset (R316). -/
def execStrhReg (c : Cond) (p u w : Bool) (rn rd rm : Reg) (s : State) : Answer :=
  conditionally c s (storeHalf p u w rn rd (.reg rm) s)

/-- STRH, immediate offset (R316). -/
def execStrhImm (c : Cond) (p u w : Bool) (rn rd : Reg) (hi lo : BitVec 4) (s : State) : Answer :=
  conditionally c s (storeHalf p u w rn rd (.imm hi lo) s)

/-- LDRH, register offset (R315). -/
def execLdrhReg (c : Cond) (p u w : Bool) (rn rd rm : Reg) (s : State) : Answer :=
  conditionally c s (loadHalf .half p u w rn rd (.reg rm) s)

/-- LDRH, immediate offset (R315). -/
def execLdrhImm (c : Cond) (p u w : Bool) (rn rd : Reg) (hi lo : BitVec 4) (s : State) : Answer :=
  conditionally c s (loadHalf .half p u w rn rd (.imm hi lo) s)

/-- LDRSB, register offset (R317). -/
def execLdrsbReg (c : Cond) (p u w : Bool) (rn rd rm : Reg) (s : State) : Answer :=
  conditionally c s (loadSignedByte p u w rn rd (.reg rm) s)

/-- LDRSB, immediate offset (R317). -/
def execLdrsbImm (c : Cond) (p u w : Bool) (rn rd : Reg) (hi lo : BitVec 4) (s : State) : Answer :=
  conditionally c s (loadSignedByte p u w rn rd (.imm hi lo) s)

/-- LDRSH, register offset (R318). -/
def execLdrshReg (c : Cond) (p u w : Bool) (rn rd rm : Reg) (s : State) : Answer :=
  conditionally c s (loadHalf .signedHalf p u w rn rd (.reg rm) s)

/-- LDRSH, immediate offset (R318). -/
def execLdrshImm (c : Cond) (p u w : Bool) (rn rd : Reg) (hi lo : BitVec 4) (s : State) : Answer :=
  conditionally c s (loadHalf .signedHalf p u w rn rd (.imm hi lo) s)

/-- STR, immediate offset (R306). -/
def execStrImm (c : Cond) (p u w : Bool) (rn rd : Reg) (offset12 : BitVec 12) (s : State) : Answer :=
  conditionally c s (storeWord p u w rn rd (.imm offset12) s)

/-- STR, shifted register offset (R306). -/
def execStrReg (c : Cond) (p u w : Bool) (rn rd : Reg) (amount5 : BitVec 5) (kind : ShiftKind) (rm : Reg) (s : State) : Answer :=
  conditionally c s (storeWord p u w rn rd (.reg amount5 kind rm) s)

/-- LDR, immediate offset (R305). -/
def execLdrImm (c : Cond) (p u w : Bool) (rn rd : Reg) (offset12 : BitVec 12) (s : State) : Answer :=
  conditionally c s (loadWord p u w rn rd (.imm offset12) s)

/-- LDR, shifted register offset (R305). -/
def execLdrReg (c : Cond) (p u w : Bool) (rn rd : Reg) (amount5 : BitVec 5) (kind : ShiftKind) (rm : Reg) (s : State) : Answer :=
  conditionally c s (loadWord p u w rn rd (.reg amount5 kind rm) s)

/-- STRB, immediate offset (R308). -/
def execStrbImm (c : Cond) (p u w : Bool) (rn rd : Reg) (offset12 : BitVec 12) (s : State) : Answer :=
  conditionally c s (storeByte p u w rn rd (.imm offset12) s)

/-- STRB, shifted register offset (R308). -/
def execStrbReg (c : Cond) (p u w : Bool) (rn rd : Reg) (amount5 : BitVec 5) (kind : ShiftKind) (rm : Reg) (s : State) : Answer :=
  conditionally c s (storeByte p u w rn rd (.reg amount5 kind rm) s)

/-- LDRB, immediate offset (R307). -/
def execLdrbImm (c : Cond) (p u w : Bool) (rn rd : Reg) (offset12 : BitVec 12) (s : State) : Answer :=
  conditionally c s (loadByte p u w rn rd (.imm offset12) s)

/-- LDRB, shifted register offset (R307). -/
def execLdrbReg (c : Cond) (p u w : Bool) (rn rd : Reg) (amount5 : BitVec 5) (kind : ShiftKind) (rm : Reg) (s : State) : Answer :=
  conditionally c s (loadByte p u w rn rd (.reg amount5 kind rm) s)

end Sys2Proof.Machine
end

