-- ==== Sys2Proof/Machine/Dispatch.lean ====
section
/-! DEFINITION. The dispatcher: one arm per constructor of `Instr`, each one call of the instruction's meaning
(spec/40_dispatch_and_condition.md R144). -/

namespace Sys2Proof.Machine

def exec (i : Instr) (s : State) : Host.Outcome State Fault Refusal :=
  match i with
  | .andImm c sb rn rd rot imm8 => Sys2Proof.Machine.execAndImm c sb rn rd rot imm8 s
  | .andShiftImm c sb rn rd amount5 kind rm => Sys2Proof.Machine.execAndShiftImm c sb rn rd amount5 kind rm s
  | .andShiftReg c sb rn rd rs kind rm => Sys2Proof.Machine.execAndShiftReg c sb rn rd rs kind rm s
  | .eorImm c sb rn rd rot imm8 => Sys2Proof.Machine.execEorImm c sb rn rd rot imm8 s
  | .eorShiftImm c sb rn rd amount5 kind rm => Sys2Proof.Machine.execEorShiftImm c sb rn rd amount5 kind rm s
  | .eorShiftReg c sb rn rd rs kind rm => Sys2Proof.Machine.execEorShiftReg c sb rn rd rs kind rm s
  | .subImm c sb rn rd rot imm8 => Sys2Proof.Machine.execSubImm c sb rn rd rot imm8 s
  | .subShiftImm c sb rn rd amount5 kind rm => Sys2Proof.Machine.execSubShiftImm c sb rn rd amount5 kind rm s
  | .subShiftReg c sb rn rd rs kind rm => Sys2Proof.Machine.execSubShiftReg c sb rn rd rs kind rm s
  | .rsbImm c sb rn rd rot imm8 => Sys2Proof.Machine.execRsbImm c sb rn rd rot imm8 s
  | .rsbShiftImm c sb rn rd amount5 kind rm => Sys2Proof.Machine.execRsbShiftImm c sb rn rd amount5 kind rm s
  | .rsbShiftReg c sb rn rd rs kind rm => Sys2Proof.Machine.execRsbShiftReg c sb rn rd rs kind rm s
  | .addImm c sb rn rd rot imm8 => Sys2Proof.Machine.execAddImm c sb rn rd rot imm8 s
  | .addShiftImm c sb rn rd amount5 kind rm => Sys2Proof.Machine.execAddShiftImm c sb rn rd amount5 kind rm s
  | .addShiftReg c sb rn rd rs kind rm => Sys2Proof.Machine.execAddShiftReg c sb rn rd rs kind rm s
  | .adcImm c sb rn rd rot imm8 => Sys2Proof.Machine.execAdcImm c sb rn rd rot imm8 s
  | .adcShiftImm c sb rn rd amount5 kind rm => Sys2Proof.Machine.execAdcShiftImm c sb rn rd amount5 kind rm s
  | .adcShiftReg c sb rn rd rs kind rm => Sys2Proof.Machine.execAdcShiftReg c sb rn rd rs kind rm s
  | .sbcImm c sb rn rd rot imm8 => Sys2Proof.Machine.execSbcImm c sb rn rd rot imm8 s
  | .sbcShiftImm c sb rn rd amount5 kind rm => Sys2Proof.Machine.execSbcShiftImm c sb rn rd amount5 kind rm s
  | .sbcShiftReg c sb rn rd rs kind rm => Sys2Proof.Machine.execSbcShiftReg c sb rn rd rs kind rm s
  | .rscImm c sb rn rd rot imm8 => Sys2Proof.Machine.execRscImm c sb rn rd rot imm8 s
  | .rscShiftImm c sb rn rd amount5 kind rm => Sys2Proof.Machine.execRscShiftImm c sb rn rd amount5 kind rm s
  | .rscShiftReg c sb rn rd rs kind rm => Sys2Proof.Machine.execRscShiftReg c sb rn rd rs kind rm s
  | .tstImm c rn rd rot imm8 => Sys2Proof.Machine.execTstImm c rn rd rot imm8 s
  | .tstShiftImm c rn rd amount5 kind rm => Sys2Proof.Machine.execTstShiftImm c rn rd amount5 kind rm s
  | .tstShiftReg c rn rd rs kind rm => Sys2Proof.Machine.execTstShiftReg c rn rd rs kind rm s
  | .teqImm c rn rd rot imm8 => Sys2Proof.Machine.execTeqImm c rn rd rot imm8 s
  | .teqShiftImm c rn rd amount5 kind rm => Sys2Proof.Machine.execTeqShiftImm c rn rd amount5 kind rm s
  | .teqShiftReg c rn rd rs kind rm => Sys2Proof.Machine.execTeqShiftReg c rn rd rs kind rm s
  | .cmpImm c rn rd rot imm8 => Sys2Proof.Machine.execCmpImm c rn rd rot imm8 s
  | .cmpShiftImm c rn rd amount5 kind rm => Sys2Proof.Machine.execCmpShiftImm c rn rd amount5 kind rm s
  | .cmpShiftReg c rn rd rs kind rm => Sys2Proof.Machine.execCmpShiftReg c rn rd rs kind rm s
  | .cmnImm c rn rd rot imm8 => Sys2Proof.Machine.execCmnImm c rn rd rot imm8 s
  | .cmnShiftImm c rn rd amount5 kind rm => Sys2Proof.Machine.execCmnShiftImm c rn rd amount5 kind rm s
  | .cmnShiftReg c rn rd rs kind rm => Sys2Proof.Machine.execCmnShiftReg c rn rd rs kind rm s
  | .orrImm c sb rn rd rot imm8 => Sys2Proof.Machine.execOrrImm c sb rn rd rot imm8 s
  | .orrShiftImm c sb rn rd amount5 kind rm => Sys2Proof.Machine.execOrrShiftImm c sb rn rd amount5 kind rm s
  | .orrShiftReg c sb rn rd rs kind rm => Sys2Proof.Machine.execOrrShiftReg c sb rn rd rs kind rm s
  | .movImm c sb rn rd rot imm8 => Sys2Proof.Machine.execMovImm c sb rn rd rot imm8 s
  | .movShiftImm c sb rn rd amount5 kind rm => Sys2Proof.Machine.execMovShiftImm c sb rn rd amount5 kind rm s
  | .movShiftReg c sb rn rd rs kind rm => Sys2Proof.Machine.execMovShiftReg c sb rn rd rs kind rm s
  | .bicImm c sb rn rd rot imm8 => Sys2Proof.Machine.execBicImm c sb rn rd rot imm8 s
  | .bicShiftImm c sb rn rd amount5 kind rm => Sys2Proof.Machine.execBicShiftImm c sb rn rd amount5 kind rm s
  | .bicShiftReg c sb rn rd rs kind rm => Sys2Proof.Machine.execBicShiftReg c sb rn rd rs kind rm s
  | .mvnImm c sb rn rd rot imm8 => Sys2Proof.Machine.execMvnImm c sb rn rd rot imm8 s
  | .mvnShiftImm c sb rn rd amount5 kind rm => Sys2Proof.Machine.execMvnShiftImm c sb rn rd amount5 kind rm s
  | .mvnShiftReg c sb rn rd rs kind rm => Sys2Proof.Machine.execMvnShiftReg c sb rn rd rs kind rm s
  | .mrs c ps rd => Sys2Proof.Machine.execMrs c ps rd s
  | .msrCpsr c rm => Sys2Proof.Machine.execMsrCpsr c rm s
  | .msrSpsr c rm => Sys2Proof.Machine.execMsrSpsr c rm s
  | .msrFlagsReg c pd rm => Sys2Proof.Machine.execMsrFlagsReg c pd rm s
  | .msrFlagsImm c pd rot imm8 => Sys2Proof.Machine.execMsrFlagsImm c pd rot imm8 s
  | .mul c sb rd rn rs rm => Sys2Proof.Machine.execMul c sb rd rn rs rm s
  | .mla c sb rd rn rs rm => Sys2Proof.Machine.execMla c sb rd rn rs rm s
  | .umull c sb rdHi rdLo rs rm => Sys2Proof.Machine.execUmull c sb rdHi rdLo rs rm s
  | .umlal c sb rdHi rdLo rs rm => Sys2Proof.Machine.execUmlal c sb rdHi rdLo rs rm s
  | .smull c sb rdHi rdLo rs rm => Sys2Proof.Machine.execSmull c sb rdHi rdLo rs rm s
  | .smlal c sb rdHi rdLo rs rm => Sys2Proof.Machine.execSmlal c sb rdHi rdLo rs rm s
  | .swp c rn rd rm => Sys2Proof.Machine.execSwp c rn rd rm s
  | .swpb c rn rd rm => Sys2Proof.Machine.execSwpb c rn rd rm s
  | .bx c rn => Sys2Proof.Machine.execBx c rn s
  | .strhReg c p u w rn rd rm => Sys2Proof.Machine.execStrhReg c p u w rn rd rm s
  | .strhImm c p u w rn rd hi lo => Sys2Proof.Machine.execStrhImm c p u w rn rd hi lo s
  | .ldrhReg c p u w rn rd rm => Sys2Proof.Machine.execLdrhReg c p u w rn rd rm s
  | .ldrhImm c p u w rn rd hi lo => Sys2Proof.Machine.execLdrhImm c p u w rn rd hi lo s
  | .ldrsbReg c p u w rn rd rm => Sys2Proof.Machine.execLdrsbReg c p u w rn rd rm s
  | .ldrsbImm c p u w rn rd hi lo => Sys2Proof.Machine.execLdrsbImm c p u w rn rd hi lo s
  | .ldrshReg c p u w rn rd rm => Sys2Proof.Machine.execLdrshReg c p u w rn rd rm s
  | .ldrshImm c p u w rn rd hi lo => Sys2Proof.Machine.execLdrshImm c p u w rn rd hi lo s
  | .strImm c p u w rn rd offset12 => Sys2Proof.Machine.execStrImm c p u w rn rd offset12 s
  | .strReg c p u w rn rd amount5 kind rm => Sys2Proof.Machine.execStrReg c p u w rn rd amount5 kind rm s
  | .ldrImm c p u w rn rd offset12 => Sys2Proof.Machine.execLdrImm c p u w rn rd offset12 s
  | .ldrReg c p u w rn rd amount5 kind rm => Sys2Proof.Machine.execLdrReg c p u w rn rd amount5 kind rm s
  | .strbImm c p u w rn rd offset12 => Sys2Proof.Machine.execStrbImm c p u w rn rd offset12 s
  | .strbReg c p u w rn rd amount5 kind rm => Sys2Proof.Machine.execStrbReg c p u w rn rd amount5 kind rm s
  | .ldrbImm c p u w rn rd offset12 => Sys2Proof.Machine.execLdrbImm c p u w rn rd offset12 s
  | .ldrbReg c p u w rn rd amount5 kind rm => Sys2Proof.Machine.execLdrbReg c p u w rn rd amount5 kind rm s
  | .stm c p u sb w rn list => Sys2Proof.Machine.execStm c p u sb w rn list s
  | .ldm c p u sb w rn list => Sys2Proof.Machine.execLdm c p u sb w rn list s
  | .b c offset24 => Sys2Proof.Machine.execB c offset24 s
  | .bl c offset24 => Sys2Proof.Machine.execBl c offset24 s
  | .stc c p u n w rn crd cpNum offset8 => Sys2Proof.Machine.execStc c p u n w rn crd cpNum offset8 s
  | .ldc c p u n w rn crd cpNum offset8 => Sys2Proof.Machine.execLdc c p u n w rn crd cpNum offset8 s
  | .cdp c opc crn crd cpNum cp crm => Sys2Proof.Machine.execCdp c opc crn crd cpNum cp crm s
  | .mcr c opc crn rd cpNum cp crm => Sys2Proof.Machine.execMcr c opc crn rd cpNum cp crm s
  | .mrc c opc crn rd cpNum cp crm => Sys2Proof.Machine.execMrc c opc crn rd cpNum cp crm s
  | .swi c comment => Sys2Proof.Machine.execSwi c comment s
  | .undefined c body => Sys2Proof.Machine.execUndefined c body s

end Sys2Proof.Machine
end

