-- ==== Sys2Proof/Machine/Step.lean ====
section
/-! DEFINITION. One step of the machine: one turn of the reference environment's loop
(spec/40_dispatch_and_condition.md R149) around one `step(word)` of the block (R140). The condition test of
R140 step 3 stands in every meaning (`conditionally`), and what follows an outcome in `environment`. -/

namespace Sys2Proof.Machine

/-- The interrupts are sampled, the word is fetched from `A AND NOT 3`, R15 is preloaded with `A + 8`; in THUMB
state the step has no meaning (R141), else the decoded instruction runs. -/
def step (s : State) : Host.Outcome State Fault Refusal :=
  let t := s.acceptInterrupt
  if t.cpsr.t then .refused .thumbState
  else exec (decodeWord t.fetchWord) t.preloadPc

/-- `s` with an instruction word stored where `step` fetches its next instruction. -/
def State.withFetchWord (s : State) (nbits w : Nat) : State :=
  s.write32 (alignWord s.acceptInterrupt.fetchAddr) (BitVec.ofNat 32 (w % 2 ^ nbits))

end Sys2Proof.Machine
end

