-- ==== Sys2Proof/Safety.lean ====
section
/-! DEFINITION. The terms the claims use: the invariant of the machine, a safe run, the bytes a store covers, the
frame of an instruction, and which instructions may write R15, the flags, memory and the mode. -/

namespace Sys2Proof.Machine

/-- The invariant: memory is in its canonical form, and the fetch address is a multiple of 4 (R149: every new
fetch address is a vector, an aligned R15 or the old one plus 4). -/
def State.Inv (s : State) : Prop := Memory.wf s.mem = true ∧ s.fetchAddr.extractLsb' 0 2 = 0

/-- `k` steps run without a fault and without a refusal. -/
def State.SafeFor : Nat → State → Prop
  | 0, _ => True
  | k + 1, s => ∃ t, step s = .next t ∧ State.SafeFor k t

/-! ## Frames -/

/-- The four bytes of the word at an address. -/
def wordBytes (a : Word) : List Word := [a, a + 1, a + 2, a + 3]

/-- The bytes a store of a kind covers at an effective address: a word goes to `ea AND NOT 3` (R65, R306, R308,
R316). -/
def StoreKind.bytes (k : StoreKind) (ea : Word) : List Word :=
  match k with
  | .word => wordBytes (alignWord ea)
  | .half => [ea, ea + 1]
  | .byte => [ea]

/-- Every byte of memory outside a list of addresses reads as before. -/
def MemSameExcept (as : List Word) (s t : State) : Prop := ∀ a, a ∉ as → t.read8 a = s.read8 a

/-- Every general register outside a list keeps its value. -/
def RegsSameExcept (ps : List PhysReg) (s t : State) : Prop := ∀ p, p ∉ ps → t.regs.get p = s.regs.get p

/-- What no instruction outside a family of its own touches: the SPSRs, the environment's interrupt requests and
the model's draw counter. -/
def SpecialsSame (s t : State) : Prop :=
  t.spsr = s.spsr ∧ t.fiqRequest = s.fiqRequest ∧ t.irqRequest = s.irqRequest ∧ t.drawCount = s.drawCount

/-- The four flags are unchanged. -/
def FlagsSame (s t : State) : Prop :=
  t.cpsr.n = s.cpsr.n ∧ t.cpsr.z = s.cpsr.z ∧ t.cpsr.c = s.cpsr.c ∧ t.cpsr.v = s.cpsr.v

/-- The bits of the CPSR that are no flag are unchanged. -/
def ControlSame (s t : State) : Prop :=
  t.cpsr.i = s.cpsr.i ∧ t.cpsr.f = s.cpsr.f ∧ t.cpsr.t = s.cpsr.t ∧ t.cpsr.m = s.cpsr.m

end Sys2Proof.Machine

namespace Sys2Proof

open Machine

/-! ## Which instructions may write what -/

/-- "The instructions that can write R15" (R274). -/
def Instr.MayWritePc (i : Instr) : Prop :=
  (∃ op c sb rn o, DpOp.isCompare op = false ∧ i = .ofDp op c sb rn 15 o) ∨ (∃ c ps, i = .mrs c ps 15)
    ∨ (∃ c offset24, i = .b c offset24) ∨ (∃ c offset24, i = .bl c offset24) ∨ (∃ c rn, i = .bx c rn)
    ∨ (∃ c p u w rn o, i = .ofSingle .ldr c p u w rn 15 o)
    ∨ (∃ c p u sb w rn list, inList list 15 = true ∧ i = .ldm c p u sb w rn list)

/-- A restore of the CPSR from an SPSR: data processing with Rd = 15 and S = 1, LDM with R15 and S = 1 (R205,
R346). -/
def Instr.IsRestore (i : Instr) : Prop :=
  (∃ op c sb rn o, (sb || DpOp.isCompare op) = true ∧ i = .ofDp op c sb rn 15 o)
    ∨ (∃ c p u w rn list, inList list 15 = true ∧ i = .ldm c p u true w rn list)

/-- The instructions that may write a flag: S = 1, an MSR to the CPSR, a compare, a restore (R32). -/
def Instr.MayWriteFlags (i : Instr) : Prop :=
  (∃ op c sb rn rd o, (sb || DpOp.isCompare op) = true ∧ i = .ofDp op c sb rn rd o)
    ∨ (∃ c rm, i = .msrCpsr c rm) ∨ (∃ c rm, i = .msrFlagsReg c false rm)
    ∨ (∃ c rot imm8, i = .msrFlagsImm c false rot imm8)
    ∨ (∃ c rd rn rs rm, i = .mul c true rd rn rs rm) ∨ (∃ c rd rn rs rm, i = .mla c true rd rn rs rm)
    ∨ (∃ c rdHi rdLo rs rm, i = .umull c true rdHi rdLo rs rm) ∨ (∃ c rdHi rdLo rs rm, i = .umlal c true rdHi rdLo rs rm)
    ∨ (∃ c rdHi rdLo rs rm, i = .smull c true rdHi rdLo rs rm) ∨ (∃ c rdHi rdLo rs rm, i = .smlal c true rdHi rdLo rs rm)
    ∨ Instr.IsRestore i

/-- The instructions that may write memory: the stores, STM, and the swaps (R67). -/
def Instr.MayStore (i : Instr) : Prop :=
  (∃ op c p u w rn rd o, SingleOp.load op = false ∧ i = .ofSingle op c p u w rn rd o)
    ∨ (∃ c p u w rn rd o, i = .ofHalf .strh c p u w rn rd o)
    ∨ (∃ c p u sb w rn list, i = .stm c p u sb w rn list)
    ∨ (∃ c rn rd rm, i = .swp c rn rd rm) ∨ (∃ c rn rd rm, i = .swpb c rn rd rm)

/-- The instructions that may change the mode by writing the CPSR: the full-form MSR to the CPSR and the restores
(R31, R36). -/
def Instr.MayWriteMode (i : Instr) : Prop := (∃ c rm, i = .msrCpsr c rm) ∨ Instr.IsRestore i

/-- The instructions whose effect is an exception the environment takes: SWI, the Undefined words and the
coprocessor instructions (R361, R363, R365, R392). -/
def Instr.TakesException (i : Instr) : Prop :=
  (∃ c comment, i = .swi c comment) ∨ (∃ c body, i = .undefined c body)
    ∨ (∃ c p u n w rn crd cpNum offset8, i = .stc c p u n w rn crd cpNum offset8)
    ∨ (∃ c p u n w rn crd cpNum offset8, i = .ldc c p u n w rn crd cpNum offset8)
    ∨ (∃ c opc crn crd cpNum cp crm, i = .cdp c opc crn crd cpNum cp crm)
    ∨ (∃ c opc crn rd cpNum cp crm, i = .mcr c opc crn rd cpNum cp crm)
    ∨ (∃ c opc crn rd cpNum cp crm, i = .mrc c opc crn rd cpNum cp crm)

end Sys2Proof
end

