-- ==== Sys2Proof/Certificates/Slice0/Obligations.lean ====
section
/-! DEFINITION. The statements for the provers, from the numbered rules of spec/. Each docstring names the rule it
formalises; OBLIGATIONS.json lists them. `environment` terms: A is `s.fetchAddr`, and `A + 4` the next instruction
(R147). A statement that reads memory back after a write, byte by byte, or says which bytes keep their content is one
about the model's memory: plain at every address, which is the model's choice (log entry 4). -/

open Sys2Proof Sys2Proof.Machine

/-! ## Reset -/

/-- R420: SVC mode, I = F = 1, T = 0, first fetch at 0, R15 preloaded with 8; the flags, every other register and
every SPSR are the draws; memory is not touched. For every choice of the draws. -/
def Obligations.ResetFixesModeMasksAndFetchOnly : Prop :=
  ∀ (d : ResetDraws) (s : State),
    (s.applyReset d).cpsr.m.bits = 0b10011#5 ∧ (s.applyReset d).cpsr.i = true ∧ (s.applyReset d).cpsr.f = true ∧
    (s.applyReset d).cpsr.t = false ∧ (s.applyReset d).cpsr.n = d.n ∧ (s.applyReset d).cpsr.z = d.z ∧
    (s.applyReset d).cpsr.c = d.c ∧ (s.applyReset d).cpsr.v = d.v ∧ (s.applyReset d).fetchAddr = 0 ∧
    (s.applyReset d).pc = 8 ∧ (∀ p, p ≠ .usr 15 → (s.applyReset d).regs.get p = d.regs.get p) ∧
    (s.applyReset d).spsr = d.spsr ∧ (s.applyReset d).mem = s.mem

/-- The invariant holds after reset; and `State.reset` is one of the states R420 allows, on a machine whose memory
lists nothing and that no interrupt is requested of. Which draws it takes is the model's choice (log entries 1 and
2), and the statement names none. -/
def Obligations.ResetMeetsInvariant : Prop :=
  State.reset.Inv ∧ ∃ (d : ResetDraws) (s : State), s.mem = [] ∧ s.fiqRequest = false ∧ s.irqRequest = false ∧
    State.reset = s.applyReset d

/-! ## The step -/

/-- The invariant is kept: from every state in which memory has its canonical form and the fetch address is a
multiple of 4, a step gives such a state (R149; the invariant is the model's). -/
def Obligations.StepKeepsInvariant : Prop :=
  ∀ s t : State, s.Inv → step s = .next t → t.Inv

/-- R146, R149: with no unmasked interrupt and T = 0, a step fetches the four bytes from `A AND NOT 3` up, writes
R15 with `A + 8`, and is `exec` of the instruction they decode to. -/
def Obligations.StepRunsDecodedInstruction : Prop :=
  ∀ (s : State) (i : Instr),
    ¬ (s.fiqRequest = true ∧ s.cpsr.f = false) → ¬ (s.irqRequest = true ∧ s.cpsr.i = false) → s.cpsr.t = false →
    decode [s.read8 (alignWord s.fetchAddr), s.read8 (alignWord s.fetchAddr + 1),
      s.read8 (alignWord s.fetchAddr + 2), s.read8 (alignWord s.fetchAddr + 3)] = .ok (i, []) →
    step s = exec i { s with regs := s.regs.set (.usr 15) (s.fetchAddr + 8) }

/-- R395: before the fetch, FIQ is taken if requested and F = 0; else IRQ if requested and I = 0. The step is then
that of the state the entry leaves: entry and first instruction are one step (log entry 6). -/
def Obligations.InterruptEntersBeforeFetch : Prop :=
  ∀ s : State,
    (s.fiqRequest = true → s.cpsr.f = false → step s = step (takeException .fiq s.fetchAddr s)) ∧
    (¬ (s.fiqRequest = true ∧ s.cpsr.f = false) → s.irqRequest = true → s.cpsr.i = false →
      step s = step (takeException .irq s.fetchAddr s))

/-- R141: with `CPSR.T = 1` (and no interrupt, whose entry clears T) a step has no meaning, whatever the word. -/
def Obligations.ThumbStateIsRefused : Prop :=
  ∀ s : State, s.cpsr.t = true → s.fiqRequest = false → s.irqRequest = false → step s = .refused .thumbState

/-- R143, R152: a failed condition changes nothing, for every variant, Undefined included, and the fetch address goes
on by 4; so every word with bits 31:28 = 1111 is a no-op. -/
def Obligations.FailedConditionIsNoOp : Prop :=
  (∀ (i : Instr) (s : State), s.passes i.cond = false → exec i s = .next { s with fetchAddr := s.fetchAddr + 4 }) ∧
  (∀ (w : Word) (s : State), bits w 28 4 = 0b1111#4 →
    exec (decodeWord w) s = .next { s with fetchAddr := s.fetchAddr + 4 })

/-- R150, R151: the number and the test of each condition. -/
def Obligations.ConditionTable : Prop :=
  ∀ n z c v : Bool,
    (Cond.bits .eq = 0b0000#4 ∧ (shouldExecute .eq n z c v = true ↔ z = true)) ∧
    (Cond.bits .ne = 0b0001#4 ∧ (shouldExecute .ne n z c v = true ↔ z = false)) ∧
    (Cond.bits .cs = 0b0010#4 ∧ (shouldExecute .cs n z c v = true ↔ c = true)) ∧
    (Cond.bits .cc = 0b0011#4 ∧ (shouldExecute .cc n z c v = true ↔ c = false)) ∧
    (Cond.bits .mi = 0b0100#4 ∧ (shouldExecute .mi n z c v = true ↔ n = true)) ∧
    (Cond.bits .pl = 0b0101#4 ∧ (shouldExecute .pl n z c v = true ↔ n = false)) ∧
    (Cond.bits .vs = 0b0110#4 ∧ (shouldExecute .vs n z c v = true ↔ v = true)) ∧
    (Cond.bits .vc = 0b0111#4 ∧ (shouldExecute .vc n z c v = true ↔ v = false)) ∧
    (Cond.bits .hi = 0b1000#4 ∧ (shouldExecute .hi n z c v = true ↔ c = true ∧ z = false)) ∧
    (Cond.bits .ls = 0b1001#4 ∧ (shouldExecute .ls n z c v = true ↔ c = false ∨ z = true)) ∧
    (Cond.bits .ge = 0b1010#4 ∧ (shouldExecute .ge n z c v = true ↔ n = v)) ∧
    (Cond.bits .lt = 0b1011#4 ∧ (shouldExecute .lt n z c v = true ↔ n ≠ v)) ∧
    (Cond.bits .gt = 0b1100#4 ∧ (shouldExecute .gt n z c v = true ↔ z = false ∧ n = v)) ∧
    (Cond.bits .le = 0b1101#4 ∧ (shouldExecute .le n z c v = true ↔ z = true ∨ n ≠ v)) ∧
    (Cond.bits .al = 0b1110#4 ∧ shouldExecute .al n z c v = true) ∧
    (Cond.bits .nv = 0b1111#4 ∧ shouldExecute .nv n z c v = false)

/-! ## Encoding -/

/-- Every well-formed instruction, with every operand at every value its fields admit, comes back from its word,
and from its bytes with whatever follows them. -/
def Obligations.DecodeOfEncode : Prop :=
  ∀ (i : Instr) (rest : List Byte), i.wellFormed = true →
    decodeWord (encode i) = i ∧ decode (bytesOfWord (encode i) ++ rest) = .ok (i, rest)

/-- R92: decoding is total, and no bit of a word is lost: every word decodes to a well-formed instruction whose
encoding is the word. That the ignored fields and the bits of an Undefined word are kept is the model's choice (log
entry 9). -/
def Obligations.EncodeOfDecode : Prop :=
  ∀ w : Word, (decodeWord w).wellFormed = true ∧ encode (decodeWord w) = w

/-- Words written out from the format tables R94 to R111 and the examples of the spec. -/
def Obligations.KnownWordsDecode : Prop :=
  decodeWord 0xE0812003 = .addShiftImm .al false 1 2 0 .lsl 3 ∧
  decodeWord 0xE3110102 = .tstImm .al 1 0 1 2 ∧
  decodeWord 0xE1B00312 = .movShiftReg .al true 0 0 3 .lsl 2 ∧
  decodeWord 0xE14F0000 = .mrs .al true 0 ∧
  decodeWord 0xE328F20F = .msrFlagsImm .al false 2 0x0F ∧
  decodeWord 0xE0203291 = .mla .al false 0 3 2 1 ∧
  decodeWord 0xE0D10392 = .smull .al true 1 0 3 2 ∧
  decodeWord 0xE1410092 = .swpb .al 1 0 2 ∧
  decodeWord 0xE12FFF10 = .bx .al 0 ∧
  decodeWord 0xE1F101B2 = .ldrhImm .al true true true 1 0 1 2 ∧
  decodeWord 0xE7910102 = .ldrReg .al true true false 1 0 2 .lsl 2 ∧
  decodeWord 0xE92D4003 = .stm .al true false false true 13 0x4003 ∧
  decodeWord 0xEBFFFFFE = .bl .al 0xFFFFFE ∧
  decodeWord 0xEE100F10 = .mrc .al 0 0 0 15 0 0 ∧
  decodeWord 0xEF123456 = .swi .al 0x123456 ∧
  decodeWord 0xE7F000F0 = .undefined .al 0x7F000F0

/-- R105: the Undefined words are exactly those of the architected undefined space, of the Undefined rows of R120
and of the last row of R121, whatever their condition field. -/
def Obligations.UndefinedWordsAreThoseListed : Prop :=
  ∀ w : Word, (∃ c body, decodeWord w = .undefined c body) ↔ undefinedBits (w.extractLsb' 0 28) = true

/-! ## The barrel shifter -/

/-- R172 to R175: amount 0 passes the value through and defines no carry, for the four encoded kinds; LSL and LSR by
1 to 31, by 32, by more; ASR by 1 to 31 is the floor of the signed value over 2^n, by 32 or more the sign bit
spread. -/
def Obligations.ShiftByEveryAmount : Prop :=
  ∀ (x : Word) (n : Nat) (cin : Bool),
    (∀ k : BarrelOp, k ≠ .rrx → shift x k 0 cin = (x, none)) ∧
    (1 ≤ n → n ≤ 31 → shift x .lsl n cin = (BitVec.ofNat 32 (x.toNat * 2 ^ n), some (x.getLsbD (32 - n)))) ∧
    shift x .lsl 32 cin = (0, some (x.getLsbD 0)) ∧
    (33 ≤ n → shift x .lsl n cin = (0, some false)) ∧
    (1 ≤ n → n ≤ 31 → shift x .lsr n cin = (BitVec.ofNat 32 (x.toNat / 2 ^ n), some (x.getLsbD (n - 1)))) ∧
    shift x .lsr 32 cin = (0, some (x.getLsbD 31)) ∧
    (33 ≤ n → shift x .lsr n cin = (0, some false)) ∧
    (1 ≤ n → n ≤ 31 → shift x .asr n cin = (BitVec.ofInt 32 (x.toInt / 2 ^ n), some (x.getLsbD (n - 1)))) ∧
    (32 ≤ n → shift x .asr n cin = (if x.toInt < 0 then 0xFFFFFFFF else 0, some (decide (x.toInt < 0))))

/-- R176, R178, R182: ROR by every amount from 1 up, where a multiple of 32 returns the value with carry bit 31, with
`carry_out = result[31]`; RRX through the carry, whatever the amount; and the round trip: rotating by n and then
by 32 - n gives the value back. -/
def Obligations.RotateByEveryAmount : Prop :=
  ∀ (x : Word) (n : Nat) (cin : Bool),
    (1 ≤ n → n % 32 = 0 → shift x .ror n cin = (x, some (x.getLsbD 31))) ∧
    (n % 32 ≠ 0 → shift x .ror n cin =
      (BitVec.ofNat 32 (x.toNat / 2 ^ (n % 32) + x.toNat * 2 ^ (32 - n % 32)), some (x.getLsbD (n % 32 - 1)))) ∧
    (1 ≤ n → (shift x .ror n cin).2 = some ((shift x .ror n cin).1.getLsbD 31)) ∧
    shift x .rrx n cin = (BitVec.ofNat 32 ((if cin then 2 ^ 31 else 0) + x.toNat / 2), some (x.getLsbD 0)) ∧
    (1 ≤ n → n ≤ 31 → (shift (shift x .ror n cin).1 .ror (32 - n) cin).1 = x)

/-- R177, R180, R181: how an encoded operand2 reaches the shifter. An immediate amount 0 is no shift for LSL, 32 for
LSR and ASR, RRX for ROR; a register amount is the low byte and is never read again; a rotated immediate gives
a carry only when `rot` is not 0. -/
def Obligations.Operand2ReachesShifter : Prop :=
  ∀ (s : State) (rm rs : Reg) (kind : ShiftKind) (amount5 : BitVec 5) (rot : BitVec 4) (imm8 : BitVec 8),
    operand2 (.shiftImm 0 .lsl rm) s = (s.readReg rm, none) ∧
    operand2 (.shiftImm 0 .lsr rm) s = shift (s.readReg rm) .lsr 32 s.cpsr.c ∧
    operand2 (.shiftImm 0 .asr rm) s = shift (s.readReg rm) .asr 32 s.cpsr.c ∧
    operand2 (.shiftImm 0 .ror rm) s = shift (s.readReg rm) .rrx 0 s.cpsr.c ∧
    (amount5 ≠ 0 → operand2 (.shiftImm amount5 kind rm) s =
      shift (s.readReg rm) (ShiftKind.toBarrel kind) amount5.toNat s.cpsr.c) ∧
    operand2 (.shiftReg rs kind rm) s =
      shift (s.readReg rm) (ShiftKind.toBarrel kind) ((s.readReg rs).toNat % 256) s.cpsr.c ∧
    operand2 (.imm 0 imm8) s = (imm8.zeroExtend 32, none) ∧
    (rot ≠ 0 → operand2 (.imm rot imm8) s = shift (imm8.zeroExtend 32) .ror (2 * rot.toNat) s.cpsr.c)

/-! ## Data processing -/

/-- R202: the sum on the integers, its carry, and the overflow as "outside -2^31 .. 2^31 - 1"; for a subtraction,
which adds the inverted operand with carry 1, carry 1 is "no borrow". -/
def Obligations.AddWithCarryIsExact : Prop :=
  ∀ (a b : Word) (c : Bool),
    (addWithCarry a b c).1.toNat = (a.toNat + b.toNat + c.toNat) % 2 ^ 32 ∧
    ((addWithCarry a b c).2.1 = true ↔ 2 ^ 32 ≤ a.toNat + b.toNat + c.toNat) ∧
    ((addWithCarry a b c).2.2 = true ↔
      a.getLsbD 31 = b.getLsbD 31 ∧ (addWithCarry a b c).1.getLsbD 31 ≠ a.getLsbD 31) ∧
    ((addWithCarry a b c).2.2 = true ↔
      a.toInt + b.toInt + c.toNat < -2 ^ 31 ∨ 2 ^ 31 ≤ a.toInt + b.toInt + c.toNat) ∧
    ((addWithCarry a (~~~b) true).2.1 = true ↔ b.toNat ≤ a.toNat)

/-- R203, R206, R210, R211, R218, R219, R222 to R225: AND, EOR, TST, TEQ, ORR, MOV, BIC, MVN in every operand2
form complete with the result in Rd (a compare writes no register), with S = 1 the flags N and Z of the
result, C from the shifter where it defines one, V kept; Rd = 15 with S = 0 is a branch. (Rd = 15 with S = 1 is
`DataProcessingRestoresCpsr`.) -/
def Obligations.LogicalResultsAndFlags : Prop :=
  ∀ (op : DpOp) (f : Word → Word → Word) (c : Cond) (sb : Bool) (rn rd : Reg) (o : Operand2) (s : State),
    ((op = .and ∨ op = .tst) ∧ f = (fun a b => a &&& b) ∨ (op = .eor ∨ op = .teq) ∧ f = (fun a b => a ^^^ b) ∨
      op = .orr ∧ f = (fun a b => a ||| b) ∨ op = .mov ∧ f = (fun _ b => b) ∨
      op = .bic ∧ f = (fun a b => a &&& ~~~b) ∨ op = .mvn ∧ f = (fun _ b => ~~~b)) →
    s.passes c = true → ¬ (rd = 15 ∧ (sb || op.isCompare) = true) →
    let r := f (s.readReg rn) (operand2 o s).1
    exec (.ofDp op c sb rn rd o) s = .next { (if op.isCompare then s else s.writeReg rd r) with
      cpsr := if sb || op.isCompare then
          { s.cpsr with n := r.getLsbD 31, z := decide (r = 0),
                        c := (operand2 o s).2.getD s.cpsr.c }
        else s.cpsr
      fetchAddr := if rd = 15 ∧ op.isCompare = false then r &&& ~~~(3#32) else s.fetchAddr + 4 }

/-- R204, R206, R214, R215, R221: ADD, ADC, CMN in every operand2 form. C is "the true sum is at least 2^32", V is
signed overflow; ADC adds the carry held before the instruction. -/
def Obligations.AdditionResultsAndFlags : Prop :=
  ∀ (op : DpOp) (k : Nat) (c : Cond) (sb : Bool) (rn rd : Reg) (o : Operand2) (s : State),
    ((op = .add ∨ op = .cmn) ∧ k = 0 ∨ op = .adc ∧ k = s.cpsr.c.toNat) →
    s.passes c = true → ¬ (rd = 15 ∧ (sb || op.isCompare) = true) →
    let a := s.readReg rn
    let b := (operand2 o s).1
    let r := BitVec.ofNat 32 (a.toNat + b.toNat + k)
    exec (.ofDp op c sb rn rd o) s = .next { (if op.isCompare then s else s.writeReg rd r) with
      cpsr := if sb || op.isCompare then
          { s.cpsr with n := r.getLsbD 31, z := decide (r = 0),
                        c := decide (2 ^ 32 ≤ a.toNat + b.toNat + k),
                        v := decide (a.toInt + b.toInt + k < -2 ^ 31 ∨ 2 ^ 31 ≤ a.toInt + b.toInt + k) }
        else s.cpsr
      fetchAddr := if rd = 15 ∧ op.isCompare = false then r &&& ~~~(3#32) else s.fetchAddr + 4 }

/-- R204, R206, R212, R213, R216, R217, R220: SUB, RSB, SBC, RSC, CMP in every operand2 form. `a - b - k` where k is
the borrow; C is "no borrow", V is signed overflow. RSB and RSC subtract the other way round. -/
def Obligations.SubtractionResultsAndFlags : Prop :=
  ∀ (op : DpOp) (a b : Word) (k : Nat) (c : Cond) (sb : Bool) (rn rd : Reg) (o : Operand2) (s : State),
    ((op = .sub ∨ op = .cmp) ∧ a = s.readReg rn ∧ b = (operand2 o s).1 ∧ k = 0 ∨
      op = .rsb ∧ a = (operand2 o s).1 ∧ b = s.readReg rn ∧ k = 0 ∨
      op = .sbc ∧ a = s.readReg rn ∧ b = (operand2 o s).1 ∧ k = 1 - s.cpsr.c.toNat ∨
      op = .rsc ∧ a = (operand2 o s).1 ∧ b = s.readReg rn ∧ k = 1 - s.cpsr.c.toNat) →
    s.passes c = true → ¬ (rd = 15 ∧ (sb || op.isCompare) = true) →
    let r := BitVec.ofInt 32 ((a.toNat : Int) - b.toNat - k)
    exec (.ofDp op c sb rn rd o) s = .next { (if op.isCompare then s else s.writeReg rd r) with
      cpsr := if sb || op.isCompare then
          { s.cpsr with n := r.getLsbD 31, z := decide (r = 0),
                        c := decide (b.toNat + k ≤ a.toNat),
                        v := decide (a.toInt - b.toInt - k < -2 ^ 31 ∨ 2 ^ 31 ≤ a.toInt - b.toInt - k) }
        else s.cpsr
      fetchAddr := if rd = 15 ∧ op.isCompare = false then r &&& ~~~(3#32) else s.fetchAddr + 4 }

/-- R205: Rd = 15 with S = 1, any of the sixteen operations. In USR and SYS mode it is `InvalidModeAccess`; an
illegal mode in the SPSR is `IllegalMode`; else the CPSR becomes the SPSR, whole, and R15 the result, computed in
the old mode, unless the operation is a compare. -/
def Obligations.DataProcessingRestoresCpsr : Prop :=
  ∀ (op : DpOp) (c : Cond) (sb : Bool) (rn : Reg) (o : Operand2) (s : State),
    s.passes c = true → (sb || op.isCompare) = true →
    let r := (alu op (s.readReg rn) (operand2 o s).1 s.cpsr.c).value
    ((s.cpsr.m = .usr ∨ s.cpsr.m = .sys) → exec (.ofDp op c sb rn 15 o) s = .fault .invalidModeAccess) ∧
    (∀ b, s.cpsr.m.spsrBank = some b →
      (Mode.ofBits (s.spsr.get b).m = none → exec (.ofDp op c sb rn 15 o) s = .fault .illegalMode) ∧
      (∀ m, Mode.ofBits (s.spsr.get b).m = some m →
        exec (.ofDp op c sb rn 15 o) s = .next { (if op.isCompare then s else s.writePc r) with
          cpsr := { n := (s.spsr.get b).n, z := (s.spsr.get b).z, c := (s.spsr.get b).c, v := (s.spsr.get b).v,
                    i := (s.spsr.get b).i, f := (s.spsr.get b).f, t := (s.spsr.get b).t, m := m }
          fetchAddr := if op.isCompare then s.fetchAddr + 4 else r &&& ~~~(3#32) }))

/-- The frame of the sixteen data-processing operations in every form: no register but Rd (none for a compare), no
SPSR, no request, no byte of memory; without S the whole CPSR, with S and Rd ≠ 15 everything but the four flags,
and V too for a logical operation (R67, R203, R206, R226). -/
def Obligations.DataProcessingFrame : Prop :=
  ∀ (op : DpOp) (c : Cond) (sb : Bool) (rn rd : Reg) (o : Operand2) (s t : State),
    exec (.ofDp op c sb rn rd o) s = .next t →
    RegsSameExcept (if op.isCompare then [] else [phys s.cpsr.m rd]) s t ∧ SpecialsSame s t ∧
    MemSameExcept [] s t ∧
    ((sb || op.isCompare) = false → t.cpsr = s.cpsr) ∧
    (rd ≠ 15 → ControlSame s t) ∧
    (rd ≠ 15 → op ∈ [.and, .eor, .tst, .teq, .orr, .mov, .bic, .mvn] → t.cpsr.v = s.cpsr.v)

/-! ## Registers and status registers -/

/-- R22, R23, R24, R25, R38: the bank table; a register read after a write; and a register written in one mode is seen
again when that mode is selected again, whatever another mode wrote to a different physical register in between. -/
def Obligations.BankedRegistersKeepTheirContent : Prop :=
  (∀ m n, n.val ≤ 7 ∨ n = 15 → phys m n = .usr n) ∧
  (∀ n, phys .usr n = .usr n ∧ phys .sys n = .usr n) ∧
  (∀ k : Fin 7, ∀ n : Reg, n.val = 8 + k.val → phys .fiq n = .fiq k) ∧
  (∀ n : Reg, 8 ≤ n.val → n.val ≤ 12 →
    phys .irq n = .usr n ∧ phys .svc n = .usr n ∧ phys .abt n = .usr n ∧ phys .und n = .usr n) ∧
  (∀ k : Fin 2, ∀ n : Reg, n.val = 13 + k.val →
    phys .irq n = .irq k ∧ phys .svc n = .svc k ∧ phys .abt n = .abt k ∧ phys .und n = .und k) ∧
  (∀ (s : State) (n k : Reg) (x y : Word) (m' : Mode),
    (s.writeReg n x).readReg k = (if k = n then x else s.readReg k) ∧
    (∀ p, p ≠ phys s.cpsr.m n → (s.writeReg n x).regs.get p = s.regs.get p) ∧
    (let u := { s.writeReg n x with cpsr := { s.cpsr with m := m' } }
     let v := { u.writeReg k y with cpsr := s.cpsr }
     v.readReg n = if phys m' k = phys s.cpsr.m n then y else x))

/-- R29, R39: the image of a PSR, bit by bit, the two masks, and that a written image keeps its implemented bits and
drops the reserved ones. -/
def Obligations.PsrImageLayout : Prop :=
  (∀ p : Spsr, p.image.toNat = p.n.toNat * 2 ^ 31 + p.z.toNat * 2 ^ 30 + p.c.toNat * 2 ^ 29 + p.v.toNat * 2 ^ 28 +
    p.i.toNat * 2 ^ 7 + p.f.toNat * 2 ^ 6 + p.t.toNat * 2 ^ 5 + p.m.toNat) ∧
  Config.psrImpl = 0xF00000FF#32 ∧ Config.psrFlags = 0xF0000000#32 ∧
  (∀ w : Word, (Psr.ofImage w).image = w &&& 0xF00000FF#32)

/-- R33, R34, R35: the SPSR is selected by the mode; USR and SYS have none; a masked write sets the bits of
`mask AND PSR_IMPL`, checks no mode field and touches nothing else. -/
def Obligations.SpsrAccessByMode : Prop :=
  ∀ (s : State) (value mask : Word),
    Mode.spsrBank .fiq = some .fiq ∧ Mode.spsrBank .irq = some .irq ∧ Mode.spsrBank .svc = some .svc ∧
    Mode.spsrBank .abt = some .abt ∧ Mode.spsrBank .und = some .und ∧
    ((s.cpsr.m = .usr ∨ s.cpsr.m = .sys) →
      s.readSpsr = .error .invalidModeAccess ∧ s.writeSpsr value mask = .error .invalidModeAccess) ∧
    (∀ b, s.cpsr.m.spsrBank = some b →
      s.readSpsr = .ok (s.spsr.get b) ∧
      ∃ p, s.writeSpsr value mask = .ok { s with spsr := s.spsr.set b p } ∧
        p.image = ((s.spsr.get b).image &&& ~~~(mask &&& 0xF00000FF#32)) ||| (value &&& (mask &&& 0xF00000FF#32)))

/-- R36, R40: `set_mode` changes the mode and nothing else, and refuses the 25 other values; `WriteCPSR` with a mask
that covers the mode field checks it and writes nothing when it is illegal, and else gives the masked image. -/
def Obligations.CpsrWriteChecksTheMode : Prop :=
  ∀ (s : State) (value mask : Word) (b : BitVec 5),
    ((∀ m : Mode, m.bits ≠ b) → s.setMode b = .error .illegalMode) ∧
    (∀ m : Mode, m.bits = b → s.setMode b = .ok { s with cpsr := { s.cpsr with m := m } }) ∧
    (mask.extractLsb' 0 5 = 0b11111#5 → (∀ m : Mode, m.bits ≠ value.extractLsb' 0 5) →
      s.writeCpsr value mask = .error .illegalMode) ∧
    ((mask.extractLsb' 0 5 = 0b11111#5 ∧ (∃ m : Mode, m.bits = value.extractLsb' 0 5)) ∨ mask.extractLsb' 0 5 = 0#5 →
      ∃ p, s.writeCpsr value mask = .ok { s with cpsr := p } ∧
        p.toSpsr.image = (s.cpsrImage &&& ~~~(mask &&& 0xF00000FF#32)) ||| (value &&& (mask &&& 0xF00000FF#32)))

/-! ## PSR transfer -/

/-- R251: MRS of the CPSR, in every mode; MRS of the SPSR, which is `InvalidModeAccess` in USR and SYS mode. Rd = 15
writes R15, and the next fetch follows it. -/
def Obligations.MrsReadsTheImage : Prop :=
  ∀ (c : Cond) (rd : Reg) (s : State), s.passes c = true →
    (exec (.mrs c false rd) s = .next { s.writeReg rd s.cpsrImage with
      fetchAddr := if rd = 15 then s.cpsrImage &&& ~~~(3#32) else s.fetchAddr + 4 }) ∧
    ((s.cpsr.m = .usr ∨ s.cpsr.m = .sys) → exec (.mrs c true rd) s = .fault .invalidModeAccess) ∧
    (∀ b, s.cpsr.m.spsrBank = some b →
      exec (.mrs c true rd) s = .next { s.writeReg rd (s.spsr.get b).image with
        fetchAddr := if rd = 15 then (s.spsr.get b).image &&& ~~~(3#32) else s.fetchAddr + 4 })

/-- R252, R253, R257: the full-form MSR. To the CPSR: in USR mode it writes the four flags and nothing else and raises
no error; in every other mode it writes N, Z, C, V, I, F, T and M, and an illegal mode field is `IllegalMode`. To
the SPSR: every implemented bit, an illegal mode value too; `InvalidModeAccess` in USR and SYS mode. -/
def Obligations.MsrFullForms : Prop :=
  ∀ (c : Cond) (rm : Reg) (s : State), s.passes c = true →
    let x := s.readReg rm
    (s.cpsr.m = .usr → exec (.msrCpsr c rm) s = .next { s with
      cpsr := { s.cpsr with n := x.getLsbD 31, z := x.getLsbD 30, c := x.getLsbD 29, v := x.getLsbD 28 }
      fetchAddr := s.fetchAddr + 4 }) ∧
    (s.cpsr.m ≠ .usr → (∀ m : Mode, m.bits ≠ x.extractLsb' 0 5) → exec (.msrCpsr c rm) s = .fault .illegalMode) ∧
    (s.cpsr.m ≠ .usr → ∀ m : Mode, m.bits = x.extractLsb' 0 5 → exec (.msrCpsr c rm) s = .next { s with
      cpsr := { n := x.getLsbD 31, z := x.getLsbD 30, c := x.getLsbD 29, v := x.getLsbD 28,
                i := x.getLsbD 7, f := x.getLsbD 6, t := x.getLsbD 5, m := m }
      fetchAddr := s.fetchAddr + 4 }) ∧
    ((s.cpsr.m = .usr ∨ s.cpsr.m = .sys) → exec (.msrSpsr c rm) s = .fault .invalidModeAccess) ∧
    (∀ b, s.cpsr.m.spsrBank = some b → exec (.msrSpsr c rm) s = .next { s with
      spsr := s.spsr.set b { n := x.getLsbD 31, z := x.getLsbD 30, c := x.getLsbD 29, v := x.getLsbD 28,
                             i := x.getLsbD 7, f := x.getLsbD 6, t := x.getLsbD 5, m := x.extractLsb' 0 5 }
      fetchAddr := s.fetchAddr + 4 })

/-- R254, R255, R259: the flag-bits-only MSR, from a register and from a rotated immediate: only N, Z, C, V of the
destination PSR change, in every mode that has it. -/
def Obligations.MsrFlagsOnlyForms : Prop :=
  ∀ (c : Cond) (rm : Reg) (rot : BitVec 4) (imm8 : BitVec 8) (s : State) (x : Word) (i j : Instr),
    s.passes c = true →
    (x = s.readReg rm ∧ i = .msrFlagsReg c false rm ∧ j = .msrFlagsReg c true rm ∨
      x = (shift (imm8.zeroExtend 32) .ror (2 * rot.toNat) false).1 ∧ i = .msrFlagsImm c false rot imm8 ∧
        j = .msrFlagsImm c true rot imm8) →
    exec i s = .next { s with
      cpsr := { s.cpsr with n := x.getLsbD 31, z := x.getLsbD 30, c := x.getLsbD 29, v := x.getLsbD 28 }
      fetchAddr := s.fetchAddr + 4 } ∧
    ((s.cpsr.m = .usr ∨ s.cpsr.m = .sys) → exec j s = .fault .invalidModeAccess) ∧
    (∀ b, s.cpsr.m.spsrBank = some b → exec j s = .next { s with
      spsr := s.spsr.set b { s.spsr.get b with
        n := x.getLsbD 31, z := x.getLsbD 30, c := x.getLsbD 29, v := x.getLsbD 28 }
      fetchAddr := s.fetchAddr + 4 })

/-- The frame of MRS and the four MSR forms: MRS writes Rd and no PSR; an MSR writes no register and one PSR; none
touches memory (R250, R67). -/
def Obligations.PsrTransferFrame : Prop :=
  ∀ (c : Cond) (ps : Bool) (rd rm : Reg) (rot : BitVec 4) (imm8 : BitVec 8) (s t : State),
    (exec (.mrs c ps rd) s = .next t →
      RegsSameExcept [phys s.cpsr.m rd] s t ∧ t.cpsr = s.cpsr ∧ SpecialsSame s t ∧ MemSameExcept [] s t) ∧
    (exec (.msrCpsr c rm) s = .next t ∨ exec (.msrFlagsReg c false rm) s = .next t ∨
        exec (.msrFlagsImm c false rot imm8) s = .next t →
      RegsSameExcept [] s t ∧ SpecialsSame s t ∧ MemSameExcept [] s t) ∧
    (exec (.msrSpsr c rm) s = .next t ∨ exec (.msrFlagsReg c true rm) s = .next t ∨
        exec (.msrFlagsImm c true rot imm8) s = .next t →
      RegsSameExcept [] s t ∧ t.cpsr = s.cpsr ∧ MemSameExcept [] s t ∧
      (∀ b, s.cpsr.m.spsrBank ≠ some b → t.spsr.get b = s.spsr.get b) ∧
      t.fiqRequest = s.fiqRequest ∧ t.irqRequest = s.irqRequest ∧ t.drawCount = s.drawCount)

/-! ## Multiply -/

/-- R281: the forms of the six multiplies without meaning. -/
def Obligations.MultiplyBadForms : Prop :=
  ∀ (c : Cond) (sb : Bool) (rd rn rs rm rdHi rdLo : Reg) (s : State), s.passes c = true →
    (rd = rm ∨ rd = 15 ∨ rm = 15 ∨ rs = 15 → exec (.mul c sb rd rn rs rm) s = .refused .unpredictableForm) ∧
    (rd = rm ∨ rd = 15 ∨ rm = 15 ∨ rs = 15 ∨ rn = 15 →
      exec (.mla c sb rd rn rs rm) s = .refused .unpredictableForm) ∧
    (rdHi = rdLo ∨ rdHi = rm ∨ rdLo = rm ∨ rdHi = 15 ∨ rdLo = 15 ∨ rm = 15 ∨ rs = 15 →
      exec (.umull c sb rdHi rdLo rs rm) s = .refused .unpredictableForm ∧
      exec (.umlal c sb rdHi rdLo rs rm) s = .refused .unpredictableForm ∧
      exec (.smull c sb rdHi rdLo rs rm) s = .refused .unpredictableForm ∧
      exec (.smlal c sb rdHi rdLo rs rm) s = .refused .unpredictableForm)

/-- R282, R283, R284: MUL (Rn is ignored) and MLA. With S = 1 N and Z are those of the result, V is kept, and C
is a draw: some bit, of which nothing is said (and the model's own draw counter moves: log entry 3). -/
def Obligations.MultiplyResultsAndFlags : Prop :=
  ∀ (c : Cond) (sb : Bool) (rd rn rs rm : Reg) (s : State) (i : Instr) (r : Word),
    s.passes c = true → rd ≠ rm → rd ≠ 15 → rm ≠ 15 → rs ≠ 15 →
    (i = .mul c sb rd rn rs rm ∧ r = BitVec.ofNat 32 ((s.readReg rm).toNat * (s.readReg rs).toNat) ∨
      i = .mla c sb rd rn rs rm ∧ rn ≠ 15 ∧
        r = BitVec.ofNat 32 ((s.readReg rm).toNat * (s.readReg rs).toNat + (s.readReg rn).toNat)) →
    ∃ (carry : Bool) (draws : Nat), exec i s = .next { s.writeReg rd r with
      cpsr := if sb then { s.cpsr with n := r.getLsbD 31, z := decide (r = 0), c := carry } else s.cpsr
      drawCount := if sb then draws else s.drawCount
      fetchAddr := s.fetchAddr + 4 }

/-- R282, R285 to R289: UMULL, UMLAL, SMULL, SMLAL: the 64-bit result over RdHi and RdLo; with S = 1 N and Z of the
64 bits, C and V two draws (and the model's own draw counter moves: log entry 3). -/
def Obligations.LongMultiplyResultsAndFlags : Prop :=
  ∀ (c : Cond) (sb : Bool) (rdHi rdLo rs rm : Reg) (s : State) (i : Instr) (r : BitVec 64),
    s.passes c = true → rdHi ≠ rdLo → rdHi ≠ rm → rdLo ≠ rm → rdHi ≠ 15 → rdLo ≠ 15 → rm ≠ 15 → rs ≠ 15 →
    let a := s.readReg rm
    let b := s.readReg rs
    let acc := (s.readReg rdHi).toNat * 2 ^ 32 + (s.readReg rdLo).toNat
    (i = .umull c sb rdHi rdLo rs rm ∧ r = BitVec.ofNat 64 (a.toNat * b.toNat) ∨
      i = .umlal c sb rdHi rdLo rs rm ∧ r = BitVec.ofNat 64 (a.toNat * b.toNat + acc) ∨
      i = .smull c sb rdHi rdLo rs rm ∧ r = BitVec.ofInt 64 (a.toInt * b.toInt) ∨
      i = .smlal c sb rdHi rdLo rs rm ∧ r = BitVec.ofInt 64 (a.toInt * b.toInt + acc)) →
    ∃ (carry overflow : Bool) (draws : Nat), exec i s = .next
      { (s.writeReg rdLo (BitVec.ofNat 32 r.toNat)).writeReg rdHi (BitVec.ofNat 32 (r.toNat / 2 ^ 32)) with
        cpsr := if sb then { s.cpsr with n := r.getLsbD 63, z := decide (r = 0), c := carry,
                                         v := overflow } else s.cpsr
        drawCount := if sb then draws else s.drawCount
        fetchAddr := s.fetchAddr + 4 }

/-- The frame of the six multiplies: the destination registers, the flags with S = 1 (V only for a long one), the
model's draw counter; no SPSR, no control bit, no byte of memory (R282, R67). -/
def Obligations.MultiplyFrame : Prop :=
  ∀ (c : Cond) (sb : Bool) (rd rn rs rm rdHi rdLo : Reg) (s t : State) (i : Instr),
    exec i s = .next t →
    ((i = .mul c sb rd rn rs rm ∨ i = .mla c sb rd rn rs rm) →
      RegsSameExcept [phys s.cpsr.m rd] s t ∧ t.cpsr.v = s.cpsr.v ∧ (sb = false → t.cpsr = s.cpsr) ∧
      ControlSame s t ∧ t.spsr = s.spsr ∧ t.fiqRequest = s.fiqRequest ∧ t.irqRequest = s.irqRequest ∧
      MemSameExcept [] s t) ∧
    ((i = .umull c sb rdHi rdLo rs rm ∨ i = .umlal c sb rdHi rdLo rs rm ∨ i = .smull c sb rdHi rdLo rs rm ∨
        i = .smlal c sb rdHi rdLo rs rm) →
      RegsSameExcept [phys s.cpsr.m rdHi, phys s.cpsr.m rdLo] s t ∧ (sb = false → t.cpsr = s.cpsr) ∧
      ControlSame s t ∧ t.spsr = s.spsr ∧ t.fiqRequest = s.fiqRequest ∧ t.irqRequest = s.irqRequest ∧
      MemSameExcept [] s t)

/-! ## Branches -/

/-- R271, R272, R273: B and BL: the target is R15 plus four times the signed offset, wrapped; BL leaves the address of
the next instruction, `R15 - 4`, in R14 of the current mode. BX: T is bit 0 of the register, R15 the register
without it; it completes for an odd value too. -/
def Obligations.BranchResults : Prop :=
  ∀ (c : Cond) (offset24 : BitVec 24) (rn : Reg) (s : State), s.passes c = true →
    let target := BitVec.ofInt 32 (s.pc.toNat + offset24.toInt * 4)
    exec (.b c offset24) s = .next { s.writePc target with fetchAddr := target &&& ~~~(3#32) } ∧
    exec (.bl c offset24) s = .next { (s.writeReg 14 (s.pc - 4)).writePc target with
      fetchAddr := target &&& ~~~(3#32) } ∧
    let x := s.readReg rn
    exec (.bx c rn) s = .next { s.writePc (x &&& ~~~(1#32)) with
      cpsr := { s.cpsr with t := decide (x.toNat % 2 = 1) }
      fetchAddr := x &&& ~~~(3#32) }

/-- The frame of B, BL, BX: R15, R14 for BL, T for BX; no flag, no other control bit, no SPSR, no byte of memory. -/
def Obligations.BranchFrame : Prop :=
  ∀ (c : Cond) (offset24 : BitVec 24) (rn : Reg) (s t : State),
    (exec (.b c offset24) s = .next t →
      RegsSameExcept [.usr 15] s t ∧ t.cpsr = s.cpsr ∧ SpecialsSame s t ∧ MemSameExcept [] s t) ∧
    (exec (.bl c offset24) s = .next t →
      RegsSameExcept [.usr 15, phys s.cpsr.m 14] s t ∧ t.cpsr = s.cpsr ∧ SpecialsSame s t ∧ MemSameExcept [] s t) ∧
    (exec (.bx c rn) s = .next t →
      RegsSameExcept [.usr 15] s t ∧ FlagsSame s t ∧ t.cpsr.i = s.cpsr.i ∧ t.cpsr.f = s.cpsr.f ∧
      t.cpsr.m = s.cpsr.m ∧ SpecialsSame s t ∧ MemSameExcept [] s t)

/-! ## Memory and the single transfers -/

/-- R64: little-endian reads, of an instruction word too; a write is their mirror image, byte by byte, and leaves every
other byte alone. R64 says so "when the four (two) bytes are plain memory"; that it holds at every address is the
model's choice (log entry 4), and so is the canonical form, the premise of what a write stores (log entry 2). -/
def Obligations.LittleEndianMemory : Prop :=
  ∀ (s : State) (a v : Word) (h : BitVec 16),
    (s.read32 a).toNat = (s.read8 a).toNat + 2 ^ 8 * (s.read8 (a + 1)).toNat + 2 ^ 16 * (s.read8 (a + 2)).toNat +
      2 ^ 24 * (s.read8 (a + 3)).toNat ∧
    (s.read16 a).toNat = (s.read8 a).toNat + 2 ^ 8 * (s.read8 (a + 1)).toNat ∧
    s.fetchWord = s.read32 (s.fetchAddr &&& ~~~(3#32)) ∧
    MemSameExcept (wordBytes a) s (s.write32 a v) ∧ MemSameExcept [a, a + 1] s (s.write16 a h) ∧
    (Memory.wf s.mem = true →
      (s.write32 a v).read8 a = v.extractLsb' 0 8 ∧ (s.write32 a v).read8 (a + 1) = v.extractLsb' 8 8 ∧
      (s.write32 a v).read8 (a + 2) = v.extractLsb' 16 8 ∧ (s.write32 a v).read8 (a + 3) = v.extractLsb' 24 8 ∧
      (s.write16 a h).read8 a = h.extractLsb' 0 8 ∧ (s.write16 a h).read8 (a + 1) = h.extractLsb' 8 8)

/-- R66: the word at `ea AND NOT 3` rotated right by 8 times the low two bits of `ea`, said in bytes: byte j of the
result is byte `(j + ea[1:0]) mod 4` of the aligned word; for an aligned `ea` it is the word. That a word is its four bytes at every address is the
model's choice of plain memory (log entry 4). -/
def Obligations.MisalignedLoadRotates : Prop :=
  ∀ (s : State) (ea : Word),
    (∀ j : Nat, j < 4 → (s.loadWordRotated ea).extractLsb' (8 * j) 8 =
      s.read8 ((ea &&& ~~~(3#32)) + BitVec.ofNat 32 ((j + ea.toNat % 4) % 4))) ∧
    (ea.toNat % 4 = 0 → s.loadWordRotated ea = s.read32 ea)

/-- R301, R302, R303: the offsets, the effective address and the write-back of the eight single transfers. -/
def Obligations.AddressingModes : Prop :=
  ∀ (s : State) (p u w : Bool) (base off : Word) (offset12 : BitVec 12) (amount5 : BitVec 5) (kind : ShiftKind)
    (rm : Reg) (hi lo : BitVec 4),
    wordOffset (.imm offset12) s = BitVec.ofNat 32 offset12.toNat ∧
    wordOffset (.reg amount5 kind rm) s =
      (shift (s.readReg rm) (immAmount kind amount5).1 (immAmount kind amount5).2 s.cpsr.c).1 ∧
    halfOffset (.imm hi lo) s = BitVec.ofNat 32 (16 * hi.toNat + lo.toNat) ∧
    halfOffset (.reg rm) s = s.readReg rm ∧
    indexed true base off = BitVec.ofNat 32 (base.toNat + off.toNat) ∧
    indexed false base off = BitVec.ofInt 32 ((base.toNat : Int) - off.toNat) ∧
    effectiveAddr true u base off = indexed u base off ∧ effectiveAddr false u base off = base ∧
    (writesBack p w = true ↔ p = false ∨ w = true)

/-- R305, R307: LDR (rotated when misaligned; Rd = 15 is a branch) and LDRB, in every addressing mode and offset
form that has a meaning. -/
def Obligations.LoadWordAndByte : Prop :=
  ∀ (c : Cond) (p u w : Bool) (rn rd : Reg) (o : WordOffset) (s : State),
    s.passes c = true → ¬ (writesBack p w = true ∧ (rn = 15 ∨ rn = rd)) → (∀ a k, o ≠ .reg a k 15) →
    let idx := indexed u (s.readReg rn) (wordOffset o s)
    let ea := if p then idx else s.readReg rn
    let t := if !p || w then s.writeReg rn idx else s
    let v := (s.read32 (ea &&& ~~~(3#32))).rotateRight (8 * (ea.toNat % 4))
    exec (.ofSingle .ldr c p u w rn rd o) s = .next { t.writeReg rd v with
      fetchAddr := if rd = 15 then v &&& ~~~(3#32) else s.fetchAddr + 4 } ∧
    (rd ≠ 15 → exec (.ofSingle .ldrb c p u w rn rd o) s = .next
      { t.writeReg rd (BitVec.ofNat 32 (s.read8 ea).toNat) with fetchAddr := s.fetchAddr + 4 })

/-- R306, R308: STR (to `ea AND NOT 3`, not rotated; R15 is stored plus 4) and STRB, in every addressing mode and
offset form that has a meaning. -/
def Obligations.StoreWordAndByte : Prop :=
  ∀ (c : Cond) (p u w : Bool) (rn rd : Reg) (o : WordOffset) (s : State),
    s.passes c = true → ¬ (writesBack p w = true ∧ (rn = 15 ∨ rn = rd)) → (∀ a k, o ≠ .reg a k 15) →
    let idx := indexed u (s.readReg rn) (wordOffset o s)
    let ea := if p then idx else s.readReg rn
    let back := fun t : State => if !p || w then t.writeReg rn idx else t
    exec (.ofSingle .str c p u w rn rd o) s = .next
      { back (s.write32 (ea &&& ~~~(3#32)) (if rd = 15 then s.pc + 4 else s.readReg rd)) with
        fetchAddr := s.fetchAddr + 4 } ∧
    (rd ≠ 15 → exec (.ofSingle .strb c p u w rn rd o) s = .next
      { back (s.write8 ea ((s.readReg rd).extractLsb' 0 8)) with fetchAddr := s.fetchAddr + 4 })

/-- R315 to R318: LDRH, STRH, LDRSB, LDRSH, in every addressing mode and offset form that has a meaning; a halfword at
an even address. -/
def Obligations.HalfAndSignedTransfers : Prop :=
  ∀ (c : Cond) (p u w : Bool) (rn rd : Reg) (o : HalfOffset) (s : State),
    s.passes c = true → ¬ (writesBack p w = true ∧ (rn = 15 ∨ rn = rd)) → o ≠ .reg 15 → rd ≠ 15 →
    ¬ (p = false ∧ w = true) →
    let idx := indexed u (s.readReg rn) (halfOffset o s)
    let ea := if p then idx else s.readReg rn
    let t := if !p || w then s.writeReg rn idx else s
    exec (.ofHalf .ldrsb c p u w rn rd o) s = .next
      { t.writeReg rd (BitVec.ofInt 32 (s.read8 ea).toInt) with fetchAddr := s.fetchAddr + 4 } ∧
    (ea.toNat % 2 = 0 →
      exec (.ofHalf .ldrh c p u w rn rd o) s = .next
        { t.writeReg rd (BitVec.ofNat 32 (s.read16 ea).toNat) with fetchAddr := s.fetchAddr + 4 } ∧
      exec (.ofHalf .ldrsh c p u w rn rd o) s = .next
        { t.writeReg rd (BitVec.ofInt 32 (s.read16 ea).toInt) with fetchAddr := s.fetchAddr + 4 } ∧
      exec (.ofHalf .strh c p u w rn rd o) s = .next
        { (if !p || w then (s.write16 ea ((s.readReg rd).extractLsb' 0 16)).writeReg rn idx
            else s.write16 ea ((s.readReg rd).extractLsb' 0 16)) with fetchAddr := s.fetchAddr + 4 })

/-- R304: the forms of the eight single transfers without meaning, the odd address of a halfword among them. -/
def Obligations.TransferBadForms : Prop :=
  ∀ (c : Cond) (p u w : Bool) (rn rd : Reg) (o : WordOffset) (q : HalfOffset) (op : SingleOp) (hop : HalfOp)
    (s : State), s.passes c = true →
    (writesBack p w = true ∧ (rn = 15 ∨ rn = rd) ∨ (∃ a k, o = .reg a k 15) ∨
        (op = .ldrb ∨ op = .strb) ∧ rd = 15 →
      exec (.ofSingle op c p u w rn rd o) s = .refused .unpredictableForm) ∧
    (writesBack p w = true ∧ (rn = 15 ∨ rn = rd) ∨ q = .reg 15 ∨ rd = 15 ∨ p = false ∧ w = true ∨
        hop ≠ .ldrsb ∧ (effectiveAddr p u (s.readReg rn) (halfOffset q s)).toNat % 2 = 1 →
      exec (.ofHalf hop c p u w rn rd q) s = .refused .unpredictableForm)

/-- The frame of LDR, LDRB, LDRH, LDRSB, LDRSH: Rd, and Rn where the mode writes it back; no flag, no PSR, no byte of
memory (R310, R67). -/
def Obligations.LoadFrame : Prop :=
  ∀ (c : Cond) (p u w : Bool) (rn rd : Reg) (o : WordOffset) (q : HalfOffset) (op : SingleOp) (hop : HalfOp)
    (s t : State),
    (op.load = true ∧ exec (.ofSingle op c p u w rn rd o) s = .next t ∨
      hop.load = true ∧ exec (.ofHalf hop c p u w rn rd q) s = .next t) →
    RegsSameExcept (phys s.cpsr.m rd :: if writesBack p w then [phys s.cpsr.m rn] else []) s t ∧
    t.cpsr = s.cpsr ∧ SpecialsSame s t ∧ MemSameExcept [] s t

/-- The frame of STR, STRB, STRH: Rn where the mode writes it back; no flag, no PSR; every byte of memory but those
of the form's width at the effective address, a word's aligned (R65, R310). -/
def Obligations.StoreFrame : Prop :=
  ∀ (c : Cond) (p u w : Bool) (rn rd : Reg) (o : WordOffset) (q : HalfOffset) (op : SingleOp) (k : StoreKind)
    (s t : State) (ea : Word),
    ((op = .str ∧ k = .word ∨ op = .strb ∧ k = .byte) ∧ exec (.ofSingle op c p u w rn rd o) s = .next t ∧
        effectiveAddr p u (s.readReg rn) (wordOffset o s) = ea ∨
      k = .half ∧ exec (.ofHalf .strh c p u w rn rd q) s = .next t ∧
        effectiveAddr p u (s.readReg rn) (halfOffset q s) = ea) →
    RegsSameExcept (if writesBack p w then [phys s.cpsr.m rn] else []) s t ∧
    t.cpsr = s.cpsr ∧ SpecialsSame s t ∧ MemSameExcept (k.bytes ea) s t

/-- R330, R331: SWP and SWPB: the old content of memory in Rd, the register in memory, Rd = Rm included; and the forms
without meaning. -/
def Obligations.SwapExchangesRegisterAndMemory : Prop :=
  ∀ (c : Cond) (rn rd rm : Reg) (s : State), s.passes c = true →
    let ea := s.readReg rn
    (rn = 15 ∨ rd = 15 ∨ rm = 15 ∨ rn = rd ∨ rn = rm →
      exec (.swp c rn rd rm) s = .refused .unpredictableForm ∧
      exec (.swpb c rn rd rm) s = .refused .unpredictableForm) ∧
    (rn ≠ 15 → rd ≠ 15 → rm ≠ 15 → rn ≠ rd → rn ≠ rm →
      exec (.swp c rn rd rm) s = .next { (s.write32 (ea &&& ~~~(3#32)) (s.readReg rm)).writeReg rd
          ((s.read32 (ea &&& ~~~(3#32))).rotateRight (8 * (ea.toNat % 4))) with fetchAddr := s.fetchAddr + 4 } ∧
      exec (.swpb c rn rd rm) s = .next { (s.write8 ea ((s.readReg rm).extractLsb' 0 8)).writeReg rd
          (BitVec.ofNat 32 (s.read8 ea).toNat) with fetchAddr := s.fetchAddr + 4 })

/-- The frame of SWP and SWPB: Rd; no flag, no PSR; every byte of memory but the word at `x[Rn] AND NOT 3`, or the
byte at `x[Rn]`. -/
def Obligations.SwapFrame : Prop :=
  ∀ (c : Cond) (rn rd rm : Reg) (s t : State) (k : StoreKind),
    (k = .word ∧ exec (.swp c rn rd rm) s = .next t ∨ k = .byte ∧ exec (.swpb c rn rd rm) s = .next t) →
    RegsSameExcept [phys s.cpsr.m rd] s t ∧ t.cpsr = s.cpsr ∧ SpecialsSame s t ∧
    MemSameExcept (k.bytes (s.readReg rn)) s t

/-! ## Block transfers -/

/-- R341, R342: the registers of a list in ascending order, and the start and the write-back of the four modes, on
the integers modulo 2^32. -/
def Obligations.BlockAddresses : Prop :=
  ∀ (list : BitVec 16) (base : Word),
    let n := (listRegs list).length
    (∀ r : Reg, r ∈ listRegs list ↔ list.getLsbD r.val = true) ∧ (listRegs list).Pairwise (· < ·) ∧ n ≤ 16 ∧
    blockStart false true base list = base ∧
    (blockStart true true base list).toNat = (base.toNat + 4) % 2 ^ 32 ∧
    ((blockStart false false base list).toNat : Int) = ((base.toNat : Int) - 4 * n + 4) % 2 ^ 32 ∧
    ((blockStart true false base list).toNat : Int) = ((base.toNat : Int) - 4 * n) % 2 ^ 32 ∧
    (blockWriteback true base list).toNat = (base.toNat + 4 * n) % 2 ^ 32 ∧
    ((blockWriteback false base list).toNat : Int) = ((base.toNat : Int) - 4 * n) % 2 ^ 32

/-- R344: the forms of LDM and STM without meaning. -/
def Obligations.BlockBadForms : Prop :=
  ∀ (c : Cond) (p u sb w : Bool) (rn : Reg) (list : BitVec 16) (s : State), s.passes c = true →
    (list = 0 ∨ rn = 15 ∨ w = true ∧ inList list rn = true ∨
        sb = true ∧ inList list 15 = false ∧ (w = true ∨ s.cpsr.m = .usr ∨ s.cpsr.m = .sys) →
      exec (.ldm c p u sb w rn list) s = .refused .unpredictableForm) ∧
    (list = 0 ∨ rn = 15 ∨ w = true ∧ inList list rn = true ∧ (∃ r, inList list r = true ∧ r < rn) ∨
        sb = true ∧ (w = true ∨ s.cpsr.m = .usr ∨ s.cpsr.m = .sys) →
      exec (.stm c p u sb w rn list) s = .refused .unpredictableForm)

/-- R343, R345, R347: an LDM that is no restore completes: the k-th register of the list, in the user bank when S = 1,
gets the word at `(start + 4k) AND NOT 3`; with W = 1 the base is written back; no other register, no PSR and no
byte of memory changes; with R15 in the list the next fetch follows it. -/
def Obligations.LoadMultipleLoadsTheList : Prop :=
  ∀ (c : Cond) (p u sb w : Bool) (rn : Reg) (list : BitVec 16) (s : State),
    s.passes c = true → list ≠ 0 → rn ≠ 15 → ¬ (w = true ∧ inList list rn = true) →
    (sb = true → inList list 15 = false ∧ w = false ∧ s.cpsr.m ≠ .usr ∧ s.cpsr.m ≠ .sys) →
    let bank := fun r : Reg => if sb then PhysReg.usr r else phys s.cpsr.m r
    let start := blockStart p u (s.readReg rn) list
    ∃ t, exec (.ldm c p u sb w rn list) s = .next t ∧
      (∀ (k : Nat) (h : k < (listRegs list).length),
        t.regs.get (bank (listRegs list)[k]) = s.read32 ((start + BitVec.ofNat 32 (4 * k)) &&& ~~~(3#32))) ∧
      (w = true → t.regs.get (phys s.cpsr.m rn) = blockWriteback u (s.readReg rn) list) ∧
      RegsSameExcept ((listRegs list).map bank ++ if w then [phys s.cpsr.m rn] else []) s t ∧
      t.cpsr = s.cpsr ∧ SpecialsSame s t ∧ t.mem = s.mem ∧
      t.fetchAddr = (if inList list 15 then t.pc &&& ~~~(3#32) else s.fetchAddr + 4)

/-- R346: LDM with S = 1 and R15 in the list. In USR and SYS mode `InvalidModeAccess`, with an illegal mode in the SPSR
`IllegalMode`; else the registers are loaded in the bank the instruction started in, the base written back there,
and the CPSR becomes the SPSR. -/
def Obligations.LoadMultipleRestoresCpsr : Prop :=
  ∀ (c : Cond) (p u w : Bool) (rn : Reg) (list : BitVec 16) (s : State),
    s.passes c = true → inList list 15 = true → rn ≠ 15 → ¬ (w = true ∧ inList list rn = true) →
    let start := blockStart p u (s.readReg rn) list
    ((s.cpsr.m = .usr ∨ s.cpsr.m = .sys) → exec (.ldm c p u true w rn list) s = .fault .invalidModeAccess) ∧
    (∀ b, s.cpsr.m.spsrBank = some b →
      (Mode.ofBits (s.spsr.get b).m = none → exec (.ldm c p u true w rn list) s = .fault .illegalMode) ∧
      (∀ m, Mode.ofBits (s.spsr.get b).m = some m →
        ∃ t, exec (.ldm c p u true w rn list) s = .next t ∧
          t.cpsr = { n := (s.spsr.get b).n, z := (s.spsr.get b).z, c := (s.spsr.get b).c, v := (s.spsr.get b).v,
                     i := (s.spsr.get b).i, f := (s.spsr.get b).f, t := (s.spsr.get b).t, m := m } ∧
          (∀ (k : Nat) (h : k < (listRegs list).length),
            t.regs.get (phys s.cpsr.m (listRegs list)[k]) =
              s.read32 ((start + BitVec.ofNat 32 (4 * k)) &&& ~~~(3#32))) ∧
          (w = true → t.regs.get (phys s.cpsr.m rn) = blockWriteback u (s.readReg rn) list) ∧
          RegsSameExcept ((listRegs list).map (phys s.cpsr.m) ++ if w then [phys s.cpsr.m rn] else []) s t ∧
          SpecialsSame s t ∧ t.mem = s.mem ∧ t.fetchAddr = t.pc &&& ~~~(3#32)))

/-- R343, R345, R348: an STM completes: the word at `(start + 4k) AND NOT 3` becomes the k-th register of the list, the
user bank's when S = 1, R15 plus 4; the base stored is the one before the write-back; no other byte of memory, no
register but a written-back base and no PSR changes. That each word reads back, at every address, and that the other
bytes keep theirs is the model's choice of plain memory (log entry 4), in its canonical form (log entry 2). -/
def Obligations.StoreMultipleStoresTheList : Prop :=
  ∀ (c : Cond) (p u sb w : Bool) (rn : Reg) (list : BitVec 16) (s : State),
    s.passes c = true → list ≠ 0 → rn ≠ 15 →
    ¬ (w = true ∧ inList list rn = true ∧ (∃ r, inList list r = true ∧ r < rn)) →
    (sb = true → w = false ∧ s.cpsr.m ≠ .usr ∧ s.cpsr.m ≠ .sys) →
    let start := blockStart p u (s.readReg rn) list
    let slot := fun k : Nat => (start + BitVec.ofNat 32 (4 * k)) &&& ~~~(3#32)
    let stored := fun r : Reg => if r = 15 then s.pc + 4 else if sb then s.readUserReg r else s.readReg r
    ∃ t, exec (.stm c p u sb w rn list) s = .next t ∧
      (Memory.wf s.mem = true → ∀ (k : Nat) (h : k < (listRegs list).length),
        t.read32 (slot k) = stored (listRegs list)[k]) ∧
      MemSameExcept ((List.range (listRegs list).length).flatMap fun k => wordBytes (slot k)) s t ∧
      (w = true → t.readReg rn = blockWriteback u (s.readReg rn) list) ∧
      RegsSameExcept (if w then [phys s.cpsr.m rn] else []) s t ∧
      t.cpsr = s.cpsr ∧ SpecialsSame s t ∧ t.fetchAddr = s.fetchAddr + 4

/-! ## Exceptions -/

/-- R361, R363, R365, R390, R391, R392: SWI enters SVC mode at vector 8, an Undefined word and CDP, LDC, STC, MRC, MCR
(no coprocessor accepts them) enter UND mode at vector 4: the old CPSR in the SPSR and `A + 4` in R14 of that mode, T
cleared, I set, F and the flags kept, nothing else changed. That `exec` answers the state after the environment's
entry is the model's choice (log entry 5). -/
def Obligations.SwiAndUndefinedEntry : Prop :=
  ∀ (c : Cond) (i : Instr) (s : State), s.passes c = true →
    let saved : Spsr := { n := s.cpsr.n, z := s.cpsr.z, c := s.cpsr.c, v := s.cpsr.v, i := s.cpsr.i, f := s.cpsr.f,
                          t := s.cpsr.t, m := s.cpsr.m.bits }
    ((∃ comment, i = .swi c comment) → exec i s = .next { s with
      regs := s.regs.set (.svc 1) (s.fetchAddr + 4)
      spsr := { s.spsr with svc := saved }
      cpsr := { s.cpsr with m := .svc, t := false, i := true }
      fetchAddr := 0x00000008 }) ∧
    ((∃ body, i = .undefined c body) ∨
      (∃ p u n w rn crd cpNum offset8, i = .stc c p u n w rn crd cpNum offset8) ∨
      (∃ p u n w rn crd cpNum offset8, i = .ldc c p u n w rn crd cpNum offset8) ∨
      (∃ opc crn crd cpNum cp crm, i = .cdp c opc crn crd cpNum cp crm) ∨
      (∃ opc crn rd cpNum cp crm, i = .mcr c opc crn rd cpNum cp crm) ∨
      (∃ opc crn rd cpNum cp crm, i = .mrc c opc crn rd cpNum cp crm) →
    exec i s = .next { s with
      regs := s.regs.set (.und 1) (s.fetchAddr + 4)
      spsr := { s.spsr with und := saved }
      cpsr := { s.cpsr with m := .und, t := false, i := true }
      fetchAddr := 0x00000004 })

/-- R390, R391: `TakeException` for every kind but Reset: vector, mode, R14 and SPSR of the new mode, T, I and F; the
flags, every other register and SPSR, and memory are untouched. -/
def Obligations.ExceptionEntryTable : Prop :=
  ∀ (k : ExceptionKind) (vector link : Word) (mode : Mode) (bank : SpsrBank) (r14 : PhysReg) (setsF : Bool)
    (a : Word) (s : State),
    (k = .undefined ∧ vector = 0x04 ∧ mode = .und ∧ bank = .und ∧ r14 = .und 1 ∧ link = a + 4 ∧ setsF = false ∨
      k = .swi ∧ vector = 0x08 ∧ mode = .svc ∧ bank = .svc ∧ r14 = .svc 1 ∧ link = a + 4 ∧ setsF = false ∨
      k = .prefetchAbort ∧ vector = 0x0C ∧ mode = .abt ∧ bank = .abt ∧ r14 = .abt 1 ∧ link = a + 4 ∧ setsF = false ∨
      k = .dataAbort ∧ vector = 0x10 ∧ mode = .abt ∧ bank = .abt ∧ r14 = .abt 1 ∧ link = a + 8 ∧ setsF = false ∨
      k = .irq ∧ vector = 0x18 ∧ mode = .irq ∧ bank = .irq ∧ r14 = .irq 1 ∧ link = a + 4 ∧ setsF = false ∨
      k = .fiq ∧ vector = 0x1C ∧ mode = .fiq ∧ bank = .fiq ∧ r14 = .fiq 6 ∧ link = a + 4 ∧ setsF = true) →
    let t := takeException k a s
    t.fetchAddr = vector ∧ t.cpsr.m = mode ∧ t.cpsr.t = false ∧ t.cpsr.i = true ∧
    t.cpsr.f = (setsF || s.cpsr.f) ∧ FlagsSame s t ∧
    t.regs.get r14 = link ∧ RegsSameExcept [r14] s t ∧
    (t.spsr.get bank).image = s.cpsrImage ∧ (∀ b, b ≠ bank → t.spsr.get b = s.spsr.get b) ∧
    t.mem = s.mem ∧ t.fiqRequest = s.fiqRequest ∧ t.irqRequest = s.irqRequest

/-- R397: the return instructions of the table undo the entry: `MOVS PC,R14` goes on behind a SWI or an Undefined
word, `SUBS PC,R14,#4` at the instruction an interrupt or a prefetch abort stopped, `SUBS PC,R14,#8` at the one a data
abort stopped; the CPSR is the one before the entry, and so is every register but R15 and the handler's R14. -/
def Obligations.ExceptionReturnUndoesEntry : Prop :=
  ∀ (k : ExceptionKind) (a : Word) (s : State),
    let u := takeException k a s
    let back := fun (w target : Word) => ∃ t, exec (decodeWord w) u = .next t ∧ t.cpsr = s.cpsr ∧
      t.fetchAddr = target ∧ RegsSameExcept [.usr 15, phys k.mode 14] s t ∧ t.mem = s.mem
    (k = .swi ∨ k = .undefined → back 0xE1B0F00E ((a + 4) &&& ~~~(3#32))) ∧
    (k = .irq ∨ k = .fiq ∨ k = .prefetchAbort → back 0xE25EF004 (a &&& ~~~(3#32))) ∧
    (k = .dataAbort → back 0xE25EF008 (a &&& ~~~(3#32)))

/-! ## The whole machine -/

/-- R401: what USR code can do to the privileged state, over all instructions: it takes the SWI or the Undefined
exception, or it stays in USR mode with I and F, every SPSR and every banked register as they were. T changes by BX
only (R273). -/
def Obligations.UserModeIsContained : Prop :=
  ∀ (i : Instr) (s t : State), s.cpsr.m = .usr → exec i s = .next t →
    t = takeException .swi s.fetchAddr s ∨ t = takeException .undefined s.fetchAddr s ∨
    (t.cpsr.m = .usr ∧ t.cpsr.i = s.cpsr.i ∧ t.cpsr.f = s.cpsr.f ∧
      (t.cpsr.t = s.cpsr.t ∨ ∃ c rn, i = .bx c rn) ∧ t.spsr = s.spsr ∧
      ∀ p, (∀ k, p ≠ .usr k) → t.regs.get p = s.regs.get p)

/-- R274: R15 changes only by the listed instructions; every other instruction goes on at `A + 4`, unless its effect is
an exception. -/
def Obligations.OnlyListedInstructionsWritePc : Prop :=
  ∀ (i : Instr) (s t : State), exec i s = .next t →
    (t.pc ≠ s.pc → i.MayWritePc) ∧
    (t.fetchAddr ≠ s.fetchAddr + 4 → i.MayWritePc ∨ i.TakesException)

/-- R32: a flag changes only by an instruction with S = 1, an MSR to the CPSR, a compare or a restore, and only when its
condition passes; exception entry keeps the flags. -/
def Obligations.OnlyListedInstructionsWriteFlags : Prop :=
  ∀ (i : Instr) (s t : State), exec i s = .next t → ¬ FlagsSame s t → i.MayWriteFlags ∧ s.passes i.cond = true

/-- R67: a byte of memory changes only by a store, an STM or a swap. -/
def Obligations.OnlyStoresWriteMemory : Prop :=
  ∀ (i : Instr) (s t : State) (a : Word), exec i s = .next t → t.read8 a ≠ s.read8 a → i.MayStore

/-- R36, R400: the mode changes only by the full-form MSR to the CPSR, by a restore, or by an exception; an SPSR
changes only by an MSR to the SPSR or by an exception. -/
def Obligations.OnlyListedInstructionsChangeMode : Prop :=
  ∀ (i : Instr) (s t : State), exec i s = .next t →
    (t.cpsr.m ≠ s.cpsr.m → i.MayWriteMode ∨ i.TakesException) ∧
    (t.spsr ≠ s.spsr → (∃ c rm, i = .msrSpsr c rm) ∨ (∃ c rm, i = .msrFlagsReg c true rm) ∨
      (∃ c rot imm8, i = .msrFlagsImm c true rot imm8) ∨ i.TakesException)
end

