-- ==== Sys2Proof/Laws/State.lean ====
section
/-! SUPPORT. One lemma per field per update of the state, each true by computation, so that no later proof unfolds
a record update. -/

namespace Sys2Proof.Machine

@[simp] theorem writeReg_regs (s : State) (n : Reg) (x : Word) :
    (s.writeReg n x).regs = s.regs.set (phys s.cpsr.m n) x := rfl
@[simp] theorem writeReg_cpsr (s : State) (n : Reg) (x : Word) :
    (s.writeReg n x).cpsr = s.cpsr := rfl
@[simp] theorem writeReg_spsr (s : State) (n : Reg) (x : Word) :
    (s.writeReg n x).spsr = s.spsr := rfl
@[simp] theorem writeReg_mem (s : State) (n : Reg) (x : Word) :
    (s.writeReg n x).mem = s.mem := rfl
@[simp] theorem writeReg_fetchAddr (s : State) (n : Reg) (x : Word) :
    (s.writeReg n x).fetchAddr = s.fetchAddr := rfl
@[simp] theorem writeReg_fiqRequest (s : State) (n : Reg) (x : Word) :
    (s.writeReg n x).fiqRequest = s.fiqRequest := rfl
@[simp] theorem writeReg_irqRequest (s : State) (n : Reg) (x : Word) :
    (s.writeReg n x).irqRequest = s.irqRequest := rfl
@[simp] theorem writeReg_drawCount (s : State) (n : Reg) (x : Word) :
    (s.writeReg n x).drawCount = s.drawCount := rfl

@[simp] theorem writeUserReg_regs (s : State) (n : Reg) (x : Word) :
    (s.writeUserReg n x).regs = s.regs.set (.usr n) x := rfl
@[simp] theorem writeUserReg_cpsr (s : State) (n : Reg) (x : Word) :
    (s.writeUserReg n x).cpsr = s.cpsr := rfl
@[simp] theorem writeUserReg_spsr (s : State) (n : Reg) (x : Word) :
    (s.writeUserReg n x).spsr = s.spsr := rfl
@[simp] theorem writeUserReg_mem (s : State) (n : Reg) (x : Word) :
    (s.writeUserReg n x).mem = s.mem := rfl
@[simp] theorem writeUserReg_fetchAddr (s : State) (n : Reg) (x : Word) :
    (s.writeUserReg n x).fetchAddr = s.fetchAddr := rfl
@[simp] theorem writeUserReg_fiqRequest (s : State) (n : Reg) (x : Word) :
    (s.writeUserReg n x).fiqRequest = s.fiqRequest := rfl
@[simp] theorem writeUserReg_irqRequest (s : State) (n : Reg) (x : Word) :
    (s.writeUserReg n x).irqRequest = s.irqRequest := rfl
@[simp] theorem writeUserReg_drawCount (s : State) (n : Reg) (x : Word) :
    (s.writeUserReg n x).drawCount = s.drawCount := rfl

@[simp] theorem writePc_regs (s : State) (x : Word) :
    (s.writePc x).regs = s.regs.set (.usr 15) x := rfl
@[simp] theorem writePc_cpsr (s : State) (x : Word) :
    (s.writePc x).cpsr = s.cpsr := rfl
@[simp] theorem writePc_spsr (s : State) (x : Word) :
    (s.writePc x).spsr = s.spsr := rfl
@[simp] theorem writePc_mem (s : State) (x : Word) :
    (s.writePc x).mem = s.mem := rfl
@[simp] theorem writePc_fetchAddr (s : State) (x : Word) :
    (s.writePc x).fetchAddr = s.fetchAddr := rfl
@[simp] theorem writePc_fiqRequest (s : State) (x : Word) :
    (s.writePc x).fiqRequest = s.fiqRequest := rfl
@[simp] theorem writePc_irqRequest (s : State) (x : Word) :
    (s.writePc x).irqRequest = s.irqRequest := rfl
@[simp] theorem writePc_drawCount (s : State) (x : Word) :
    (s.writePc x).drawCount = s.drawCount := rfl

@[simp] theorem write8_regs (s : State) (a : Word) (x : Byte) :
    (s.write8 a x).regs = s.regs := rfl
@[simp] theorem write8_cpsr (s : State) (a : Word) (x : Byte) :
    (s.write8 a x).cpsr = s.cpsr := rfl
@[simp] theorem write8_spsr (s : State) (a : Word) (x : Byte) :
    (s.write8 a x).spsr = s.spsr := rfl
@[simp] theorem write8_mem (s : State) (a : Word) (x : Byte) :
    (s.write8 a x).mem = Memory.write s.mem a.toNat x := rfl
@[simp] theorem write8_fetchAddr (s : State) (a : Word) (x : Byte) :
    (s.write8 a x).fetchAddr = s.fetchAddr := rfl
@[simp] theorem write8_fiqRequest (s : State) (a : Word) (x : Byte) :
    (s.write8 a x).fiqRequest = s.fiqRequest := rfl
@[simp] theorem write8_irqRequest (s : State) (a : Word) (x : Byte) :
    (s.write8 a x).irqRequest = s.irqRequest := rfl
@[simp] theorem write8_drawCount (s : State) (a : Word) (x : Byte) :
    (s.write8 a x).drawCount = s.drawCount := rfl

@[simp] theorem write16_regs (s : State) (a : Word) (x : BitVec 16) :
    (s.write16 a x).regs = s.regs := rfl
@[simp] theorem write16_cpsr (s : State) (a : Word) (x : BitVec 16) :
    (s.write16 a x).cpsr = s.cpsr := rfl
@[simp] theorem write16_spsr (s : State) (a : Word) (x : BitVec 16) :
    (s.write16 a x).spsr = s.spsr := rfl
@[simp] theorem write16_fetchAddr (s : State) (a : Word) (x : BitVec 16) :
    (s.write16 a x).fetchAddr = s.fetchAddr := rfl
@[simp] theorem write16_fiqRequest (s : State) (a : Word) (x : BitVec 16) :
    (s.write16 a x).fiqRequest = s.fiqRequest := rfl
@[simp] theorem write16_irqRequest (s : State) (a : Word) (x : BitVec 16) :
    (s.write16 a x).irqRequest = s.irqRequest := rfl
@[simp] theorem write16_drawCount (s : State) (a : Word) (x : BitVec 16) :
    (s.write16 a x).drawCount = s.drawCount := rfl

@[simp] theorem write32_regs (s : State) (a x : Word) :
    (s.write32 a x).regs = s.regs := rfl
@[simp] theorem write32_cpsr (s : State) (a x : Word) :
    (s.write32 a x).cpsr = s.cpsr := rfl
@[simp] theorem write32_spsr (s : State) (a x : Word) :
    (s.write32 a x).spsr = s.spsr := rfl
@[simp] theorem write32_fetchAddr (s : State) (a x : Word) :
    (s.write32 a x).fetchAddr = s.fetchAddr := rfl
@[simp] theorem write32_fiqRequest (s : State) (a x : Word) :
    (s.write32 a x).fiqRequest = s.fiqRequest := rfl
@[simp] theorem write32_irqRequest (s : State) (a x : Word) :
    (s.write32 a x).irqRequest = s.irqRequest := rfl
@[simp] theorem write32_drawCount (s : State) (a x : Word) :
    (s.write32 a x).drawCount = s.drawCount := rfl

@[simp] theorem takeException_regs (s : State) (k : ExceptionKind) (a : Word) :
    (takeException k a s).regs = s.regs.set (phys k.mode 14) (a + k.linkOffset) := rfl
@[simp] theorem takeException_cpsr (s : State) (k : ExceptionKind) (a : Word) :
    (takeException k a s).cpsr = { s.cpsr with m := k.mode, t := false, i := true, f := s.cpsr.f || k.masksFiq } := rfl
@[simp] theorem takeException_spsr (s : State) (k : ExceptionKind) (a : Word) :
    (takeException k a s).spsr = s.spsr.set k.spsrBank s.cpsr.toSpsr := rfl
@[simp] theorem takeException_mem (s : State) (k : ExceptionKind) (a : Word) :
    (takeException k a s).mem = s.mem := rfl
@[simp] theorem takeException_fetchAddr (s : State) (k : ExceptionKind) (a : Word) :
    (takeException k a s).fetchAddr = k.vector := rfl
@[simp] theorem takeException_fiqRequest (s : State) (k : ExceptionKind) (a : Word) :
    (takeException k a s).fiqRequest = s.fiqRequest := rfl
@[simp] theorem takeException_irqRequest (s : State) (k : ExceptionKind) (a : Word) :
    (takeException k a s).irqRequest = s.irqRequest := rfl
@[simp] theorem takeException_drawCount (s : State) (k : ExceptionKind) (a : Word) :
    (takeException k a s).drawCount = s.drawCount := rfl

@[simp] theorem preloadPc_regs (s : State) :
    (s.preloadPc).regs = s.regs.set (.usr 15) (s.fetchAddr + 8) := rfl
@[simp] theorem preloadPc_cpsr (s : State) :
    (s.preloadPc).cpsr = s.cpsr := rfl
@[simp] theorem preloadPc_spsr (s : State) :
    (s.preloadPc).spsr = s.spsr := rfl
@[simp] theorem preloadPc_mem (s : State) :
    (s.preloadPc).mem = s.mem := rfl
@[simp] theorem preloadPc_fetchAddr (s : State) :
    (s.preloadPc).fetchAddr = s.fetchAddr := rfl
@[simp] theorem preloadPc_fiqRequest (s : State) :
    (s.preloadPc).fiqRequest = s.fiqRequest := rfl
@[simp] theorem preloadPc_irqRequest (s : State) :
    (s.preloadPc).irqRequest = s.irqRequest := rfl
@[simp] theorem preloadPc_drawCount (s : State) :
    (s.preloadPc).drawCount = s.drawCount := rfl

@[simp] theorem storeValue_regs (s : State) (k : StoreKind) (ea x : Word) :
    (s.storeValue k ea x).regs = s.regs := by cases k <;> rfl
@[simp] theorem storeValue_cpsr (s : State) (k : StoreKind) (ea x : Word) :
    (s.storeValue k ea x).cpsr = s.cpsr := by cases k <;> rfl
@[simp] theorem storeValue_spsr (s : State) (k : StoreKind) (ea x : Word) :
    (s.storeValue k ea x).spsr = s.spsr := by cases k <;> rfl
@[simp] theorem storeValue_fetchAddr (s : State) (k : StoreKind) (ea x : Word) :
    (s.storeValue k ea x).fetchAddr = s.fetchAddr := by cases k <;> rfl
@[simp] theorem storeValue_fiqRequest (s : State) (k : StoreKind) (ea x : Word) :
    (s.storeValue k ea x).fiqRequest = s.fiqRequest := by cases k <;> rfl
@[simp] theorem storeValue_irqRequest (s : State) (k : StoreKind) (ea x : Word) :
    (s.storeValue k ea x).irqRequest = s.irqRequest := by cases k <;> rfl
@[simp] theorem storeValue_drawCount (s : State) (k : StoreKind) (ea x : Word) :
    (s.storeValue k ea x).drawCount = s.drawCount := by cases k <;> rfl

@[simp] theorem writeBack_cpsr (s : State) (wb : Bool) (rn : Reg) (idx : Word) :
    (s.writeBack wb rn idx).cpsr = s.cpsr := by cases wb <;> rfl
@[simp] theorem writeBack_spsr (s : State) (wb : Bool) (rn : Reg) (idx : Word) :
    (s.writeBack wb rn idx).spsr = s.spsr := by cases wb <;> rfl
@[simp] theorem writeBack_mem (s : State) (wb : Bool) (rn : Reg) (idx : Word) :
    (s.writeBack wb rn idx).mem = s.mem := by cases wb <;> rfl
@[simp] theorem writeBack_fetchAddr (s : State) (wb : Bool) (rn : Reg) (idx : Word) :
    (s.writeBack wb rn idx).fetchAddr = s.fetchAddr := by cases wb <;> rfl
@[simp] theorem writeBack_fiqRequest (s : State) (wb : Bool) (rn : Reg) (idx : Word) :
    (s.writeBack wb rn idx).fiqRequest = s.fiqRequest := by cases wb <;> rfl
@[simp] theorem writeBack_irqRequest (s : State) (wb : Bool) (rn : Reg) (idx : Word) :
    (s.writeBack wb rn idx).irqRequest = s.irqRequest := by cases wb <;> rfl
@[simp] theorem writeBack_drawCount (s : State) (wb : Bool) (rn : Reg) (idx : Word) :
    (s.writeBack wb rn idx).drawCount = s.drawCount := by cases wb <;> rfl

@[simp] theorem setMultiplyFlags_regs (s : State) (sb : Bool) (r a b : Word) :
    (s.setMultiplyFlags sb r a b).regs = s.regs := by cases sb <;> rfl
@[simp] theorem setMultiplyFlags_spsr (s : State) (sb : Bool) (r a b : Word) :
    (s.setMultiplyFlags sb r a b).spsr = s.spsr := by cases sb <;> rfl
@[simp] theorem setMultiplyFlags_mem (s : State) (sb : Bool) (r a b : Word) :
    (s.setMultiplyFlags sb r a b).mem = s.mem := by cases sb <;> rfl
@[simp] theorem setMultiplyFlags_fetchAddr (s : State) (sb : Bool) (r a b : Word) :
    (s.setMultiplyFlags sb r a b).fetchAddr = s.fetchAddr := by cases sb <;> rfl
@[simp] theorem setMultiplyFlags_fiqRequest (s : State) (sb : Bool) (r a b : Word) :
    (s.setMultiplyFlags sb r a b).fiqRequest = s.fiqRequest := by cases sb <;> rfl
@[simp] theorem setMultiplyFlags_irqRequest (s : State) (sb : Bool) (r a b : Word) :
    (s.setMultiplyFlags sb r a b).irqRequest = s.irqRequest := by cases sb <;> rfl

@[simp] theorem setLongFlags_regs (s : State) (sb : Bool) (r : BitVec 64) (a b : Word) :
    (s.setLongFlags sb r a b).regs = s.regs := by cases sb <;> rfl
@[simp] theorem setLongFlags_spsr (s : State) (sb : Bool) (r : BitVec 64) (a b : Word) :
    (s.setLongFlags sb r a b).spsr = s.spsr := by cases sb <;> rfl
@[simp] theorem setLongFlags_mem (s : State) (sb : Bool) (r : BitVec 64) (a b : Word) :
    (s.setLongFlags sb r a b).mem = s.mem := by cases sb <;> rfl
@[simp] theorem setLongFlags_fetchAddr (s : State) (sb : Bool) (r : BitVec 64) (a b : Word) :
    (s.setLongFlags sb r a b).fetchAddr = s.fetchAddr := by cases sb <;> rfl
@[simp] theorem setLongFlags_fiqRequest (s : State) (sb : Bool) (r : BitVec 64) (a b : Word) :
    (s.setLongFlags sb r a b).fiqRequest = s.fiqRequest := by cases sb <;> rfl
@[simp] theorem setLongFlags_irqRequest (s : State) (sb : Bool) (r : BitVec 64) (a b : Word) :
    (s.setLongFlags sb r a b).irqRequest = s.irqRequest := by cases sb <;> rfl

@[simp] theorem writeRegs_cpsr (user : Bool) (s : State) (l : List (Reg × Word)) :
    (State.writeRegs user s l).cpsr = s.cpsr := by
  induction l generalizing s with
  | nil => rfl
  | cons q rest ih => cases user <;> exact (ih _).trans rfl
@[simp] theorem writeRegs_spsr (user : Bool) (s : State) (l : List (Reg × Word)) :
    (State.writeRegs user s l).spsr = s.spsr := by
  induction l generalizing s with
  | nil => rfl
  | cons q rest ih => cases user <;> exact (ih _).trans rfl
@[simp] theorem writeRegs_mem (user : Bool) (s : State) (l : List (Reg × Word)) :
    (State.writeRegs user s l).mem = s.mem := by
  induction l generalizing s with
  | nil => rfl
  | cons q rest ih => cases user <;> exact (ih _).trans rfl
@[simp] theorem writeRegs_fetchAddr (user : Bool) (s : State) (l : List (Reg × Word)) :
    (State.writeRegs user s l).fetchAddr = s.fetchAddr := by
  induction l generalizing s with
  | nil => rfl
  | cons q rest ih => cases user <;> exact (ih _).trans rfl
@[simp] theorem writeRegs_fiqRequest (user : Bool) (s : State) (l : List (Reg × Word)) :
    (State.writeRegs user s l).fiqRequest = s.fiqRequest := by
  induction l generalizing s with
  | nil => rfl
  | cons q rest ih => cases user <;> exact (ih _).trans rfl
@[simp] theorem writeRegs_irqRequest (user : Bool) (s : State) (l : List (Reg × Word)) :
    (State.writeRegs user s l).irqRequest = s.irqRequest := by
  induction l generalizing s with
  | nil => rfl
  | cons q rest ih => cases user <;> exact (ih _).trans rfl
@[simp] theorem writeRegs_drawCount (user : Bool) (s : State) (l : List (Reg × Word)) :
    (State.writeRegs user s l).drawCount = s.drawCount := by
  induction l generalizing s with
  | nil => rfl
  | cons q rest ih => cases user <;> exact (ih _).trans rfl

@[simp] theorem writeWords_regs (s : State) (l : List (Word × Word)) :
    (s.writeWords l).regs = s.regs := by
  induction l generalizing s with
  | nil => rfl
  | cons q rest ih => exact (ih _).trans rfl
@[simp] theorem writeWords_cpsr (s : State) (l : List (Word × Word)) :
    (s.writeWords l).cpsr = s.cpsr := by
  induction l generalizing s with
  | nil => rfl
  | cons q rest ih => exact (ih _).trans rfl
@[simp] theorem writeWords_spsr (s : State) (l : List (Word × Word)) :
    (s.writeWords l).spsr = s.spsr := by
  induction l generalizing s with
  | nil => rfl
  | cons q rest ih => exact (ih _).trans rfl
@[simp] theorem writeWords_fetchAddr (s : State) (l : List (Word × Word)) :
    (s.writeWords l).fetchAddr = s.fetchAddr := by
  induction l generalizing s with
  | nil => rfl
  | cons q rest ih => exact (ih _).trans rfl
@[simp] theorem writeWords_fiqRequest (s : State) (l : List (Word × Word)) :
    (s.writeWords l).fiqRequest = s.fiqRequest := by
  induction l generalizing s with
  | nil => rfl
  | cons q rest ih => exact (ih _).trans rfl
@[simp] theorem writeWords_irqRequest (s : State) (l : List (Word × Word)) :
    (s.writeWords l).irqRequest = s.irqRequest := by
  induction l generalizing s with
  | nil => rfl
  | cons q rest ih => exact (ih _).trans rfl
@[simp] theorem writeWords_drawCount (s : State) (l : List (Word × Word)) :
    (s.writeWords l).drawCount = s.drawCount := by
  induction l generalizing s with
  | nil => rfl
  | cons q rest ih => exact (ih _).trans rfl

end Sys2Proof.Machine
end

