-- ==== Sys2Proof/Laws/Memory.lean ====
section
/-! SUPPORT. The laws of memory: a read after a write, what a write leaves alone, and that every memory operation
keeps the canonical form. -/

namespace Sys2Proof.Machine

/-! ## One byte -/

theorem read_write_ne (m : Memory) {a b : Nat} (x : Byte) (h : b ≠ a) :
    Memory.read (Memory.write m a x) b = Memory.read m b := by
  induction m with
  | nil => simp only [Memory.write]; split <;> simp [Memory.read, h.symm]
  | cons q m ih =>
    obtain ⟨k, y⟩ := q
    simp only [Memory.write]
    split
    · split <;> simp [Memory.read, h.symm]
    · split
      · subst_vars
        split <;> simp [Memory.read, h.symm]
      · simp only [Memory.read, ih]

theorem wfFrom_mono {m : Memory} {lo lo' : Nat} (h : Memory.wfFrom lo m = true) (hle : lo' ≤ lo) :
    Memory.wfFrom lo' m = true := by
  cases m with
  | nil => rfl
  | cons q m =>
    simp only [Memory.wfFrom, Bool.and_eq_true, decide_eq_true_eq] at h ⊢
    exact ⟨⟨⟨by omega, h.1.1.2⟩, h.1.2⟩, h.2⟩

/-- An address below the first listed one reads as unlisted. -/
theorem read_of_lt {m : Memory} {lo a : Nat} (h : Memory.wfFrom lo m = true) (ha : a < lo) :
    Memory.read m a = Memory.unlisted := by
  induction m generalizing lo with
  | nil => rfl
  | cons q m ih =>
    simp only [Memory.wfFrom, Bool.and_eq_true, decide_eq_true_eq] at h
    simp only [Memory.read, if_neg (show ¬ q.1 = a by omega)]
    exact ih h.2 (by omega)

theorem read_write_self {m : Memory} {lo : Nat} (a : Nat) (x : Byte) (h : Memory.wfFrom lo m = true) :
    Memory.read (Memory.write m a x) a = x := by
  induction m generalizing lo with
  | nil => simp only [Memory.write]; split <;> simp_all [Memory.read]
  | cons q m ih =>
    obtain ⟨k, y⟩ := q
    simp only [Memory.wfFrom, Bool.and_eq_true, decide_eq_true_eq] at h
    simp only [Memory.write]
    split
    · split
      · simp only [Memory.read, if_neg (show ¬ k = a by omega)]
        rw [read_of_lt h.2 (by omega)]; exact Eq.symm ‹_›
      · simp [Memory.read]
    · split
      · split
        · rw [read_of_lt h.2 (by omega)]; exact Eq.symm ‹_›
        · simp [Memory.read]
      · simp only [Memory.read, if_neg (show ¬ k = a by omega)]
        exact ih h.2

theorem wfFrom_write {m : Memory} {lo a : Nat} (x : Byte) (h : Memory.wfFrom lo m = true) (hlo : lo ≤ a)
    (ha : a < 2 ^ 32) : Memory.wfFrom lo (Memory.write m a x) = true := by
  induction m generalizing lo with
  | nil =>
    simp only [Memory.write]
    split
    · rfl
    · simp only [Memory.wfFrom, Bool.and_eq_true, decide_eq_true_eq, bne_iff_ne, ne_eq]
      exact ⟨⟨⟨hlo, ha⟩, ‹_›⟩, trivial⟩
  | cons q m ih =>
    obtain ⟨k, y⟩ := q
    have h' := h
    simp only [Memory.wfFrom, Bool.and_eq_true, decide_eq_true_eq] at h
    simp only [Memory.write]
    split
    · split
      · exact h'
      · simp only [Memory.wfFrom, Bool.and_eq_true, decide_eq_true_eq, bne_iff_ne, ne_eq]
        exact ⟨⟨⟨hlo, ha⟩, ‹_›⟩, ⟨⟨by omega, h.1.1.2⟩, by simpa using h.1.2⟩, h.2⟩
    · split
      · subst_vars
        split
        · exact wfFrom_mono h.2 (by omega)
        · simp only [Memory.wfFrom, Bool.and_eq_true, decide_eq_true_eq, bne_iff_ne, ne_eq]
          exact ⟨⟨⟨hlo, ha⟩, ‹_›⟩, h.2⟩
      · simp only [Memory.wfFrom, Bool.and_eq_true, decide_eq_true_eq]
        exact ⟨h.1, ih h.2 (by omega)⟩

/-! ## The bus calls -/

theorem wf_write8 {s : State} (a : Word) (x : Byte) (h : Memory.wf s.mem = true) :
    Memory.wf (s.write8 a x).mem = true := wfFrom_write x h (Nat.zero_le _) a.isLt

theorem wf_write16 {s : State} (a : Word) (x : BitVec 16) (h : Memory.wf s.mem = true) :
    Memory.wf (s.write16 a x).mem = true := wf_write8 _ _ (wf_write8 _ _ h)

theorem wf_write32 {s : State} (a x : Word) (h : Memory.wf s.mem = true) :
    Memory.wf (s.write32 a x).mem = true := wf_write8 _ _ (wf_write8 _ _ (wf_write8 _ _ (wf_write8 _ _ h)))

theorem wf_storeValue {s : State} (k : StoreKind) (ea x : Word) (h : Memory.wf s.mem = true) :
    Memory.wf (s.storeValue k ea x).mem = true := by
  cases k
  · exact wf_write32 _ _ h
  · exact wf_write8 _ _ h
  · exact wf_write16 _ _ h

theorem wf_writeWords {s : State} (l : List (Word × Word)) (h : Memory.wf s.mem = true) :
    Memory.wf (s.writeWords l).mem = true := by
  induction l generalizing s with
  | nil => exact h
  | cons q rest ih => exact ih (wf_write32 _ _ h)

theorem read8_write8_ne (s : State) {a b : Word} (x : Byte) (h : b ≠ a) :
    (s.write8 a x).read8 b = s.read8 b :=
  read_write_ne s.mem x (fun e => h (BitVec.eq_of_toNat_eq e))

theorem read8_write8_self {s : State} (a : Word) (x : Byte) (h : Memory.wf s.mem = true) :
    (s.write8 a x).read8 a = x := read_write_self _ x h

/-- A word write leaves every byte outside its four alone. -/
theorem read8_write32_ne (s : State) {a b : Word} (x : Word) (h0 : b ≠ a) (h1 : b ≠ a + 1) (h2 : b ≠ a + 2)
    (h3 : b ≠ a + 3) : (s.write32 a x).read8 b = s.read8 b := by
  unfold State.write32
  rw [read8_write8_ne _ _ h3, read8_write8_ne _ _ h2, read8_write8_ne _ _ h1, read8_write8_ne _ _ h0]

/-- A halfword write leaves every byte outside its two alone. -/
theorem read8_write16_ne (s : State) {a b : Word} (x : BitVec 16) (h0 : b ≠ a) (h1 : b ≠ a + 1) :
    (s.write16 a x).read8 b = s.read8 b := by
  unfold State.write16
  rw [read8_write8_ne _ _ h1, read8_write8_ne _ _ h0]

/-- The four bytes of a word write, lowest first. -/
theorem read8_write32 {s : State} (a x : Word) (h : Memory.wf s.mem = true) :
    (s.write32 a x).read8 a = x.extractLsb' 0 8 ∧ (s.write32 a x).read8 (a + 1) = x.extractLsb' 8 8 ∧
    (s.write32 a x).read8 (a + 2) = x.extractLsb' 16 8 ∧ (s.write32 a x).read8 (a + 3) = x.extractLsb' 24 8 := by
  have w1 := wf_write8 a (x.extractLsb' 0 8) h
  have w2 := wf_write8 (a + 1) (x.extractLsb' 8 8) w1
  have w3 := wf_write8 (a + 2) (x.extractLsb' 16 8) w2
  refine ⟨?_, ?_, ?_, read8_write8_self _ _ w3⟩
  · unfold State.write32
    rw [read8_write8_ne _ _ (by bv_omega), read8_write8_ne _ _ (by bv_omega), read8_write8_ne _ _ (by bv_omega),
      read8_write8_self _ _ h]
  · unfold State.write32
    rw [read8_write8_ne _ _ (by bv_omega), read8_write8_ne _ _ (by bv_omega), read8_write8_self _ _ w1]
  · unfold State.write32
    rw [read8_write8_ne _ _ (by bv_omega), read8_write8_self _ _ w2]

theorem read32_write32_self {s : State} (a x : Word) (h : Memory.wf s.mem = true) :
    (s.write32 a x).read32 a = x := by
  obtain ⟨h0, h1, h2, h3⟩ := read8_write32 a x h
  unfold State.read32
  rw [h0, h1, h2, h3]
  ext i hi
  simp only [BitVec.getElem_append, BitVec.getElem_extractLsb']
  split
  · simp [BitVec.getLsbD_eq_getElem hi]
  · split
    · rw [BitVec.getLsbD_eq_getElem (by omega)]; congr 1; omega
    · split
      · rw [BitVec.getLsbD_eq_getElem (by omega)]; congr 1; omega
      · rw [BitVec.getLsbD_eq_getElem (by omega)]; congr 1; omega

/-- Clearing the two low bits is rounding down to a multiple of 4 (R65). -/
theorem alignWord_toNat (a : Word) : (alignWord a).toNat = a.toNat / 4 * 4 := by
  have h : alignWord a = (a >>> 2) <<< 2 := by
    apply BitVec.eq_of_getLsbD_eq
    intro i hi
    have hm : (~~~(3#32)).getLsbD i = decide (2 ≤ i) := by interval_cases i <;> decide
    simp only [alignWord, BitVec.getLsbD_and, hm, BitVec.getLsbD_shiftLeft, BitVec.getLsbD_ushiftRight]
    by_cases h2 : 2 ≤ i
    · simp [h2, hi, show 2 + (i - 2) = i by omega, show 1 < i by omega]
    · simp [h2, show i < 2 by omega]
  have := a.isLt
  rw [h]
  simp only [BitVec.toNat_shiftLeft, BitVec.toNat_ushiftRight, Nat.shiftLeft_eq, Nat.shiftRight_eq_div_pow]
  omega

/-- An aligned address has its two low bits clear (R149). -/
theorem alignWord_low (a : Word) : (alignWord a).extractLsb' 0 2 = 0#2 := by
  apply BitVec.eq_of_toNat_eq
  simp only [BitVec.extractLsb'_toNat, alignWord_toNat, Nat.shiftRight_zero, BitVec.toNat_ofNat]
  omega

/-- A memory read depends on memory alone. -/
theorem read8_congr {s t : State} (h : t.mem = s.mem) (a : Word) : t.read8 a = s.read8 a := by
  unfold State.read8; rw [h]

theorem read32_congr {s t : State} (h : t.mem = s.mem) (a : Word) : t.read32 a = s.read32 a := by
  unfold State.read32; simp only [read8_congr h]

end Sys2Proof.Machine
end

