-- ==== Sys2Proof/Laws/Registers.lean ====
section
/-! SUPPORT. The laws of the banked register file and of the status registers. -/

namespace Sys2Proof.Machine

/-! ## General registers -/

theorem get_set (r : RegFile) (p q : PhysReg) (x : Word) :
    (r.set p x).get q = if q = p then x else r.get q := by
  cases p <;> cases q <;>
    simp [RegFile.set, RegFile.get, Vector.getElem_set, Fin.ext_iff, eq_comm]

@[simp] theorem get_set_self (r : RegFile) (p : PhysReg) (x : Word) : (r.set p x).get p = x := by
  rw [get_set, if_pos rfl]

theorem get_set_ne (r : RegFile) {p q : PhysReg} (x : Word) (h : q ≠ p) : (r.set p x).get q = r.get q := by
  rw [get_set, if_neg h]

/-- R15 is never banked (R22, R27). -/
@[simp] theorem phys_pc (m : Mode) : phys m 15 = .usr 15 := by cases m <;> rfl

@[simp] theorem phys_usr (n : Reg) : phys .usr n = .usr n := rfl

/-- In one mode, different numbers reach different registers (R22). -/
theorem phys_inj (m : Mode) {n k : Reg} : phys m n = phys m k ↔ n = k := by
  cases m <;> revert n k <;> decide

/-- No mode but USR and SYS, and no number but those of the table, reaches a shadow (R22). -/
theorem phys_user_modes {m : Mode} (h : m = .usr ∨ m = .sys) (n : Reg) : phys m n = .usr n := by
  obtain rfl | rfl := h <;> rfl

theorem readReg_writeReg (s : State) (n k : Reg) (x : Word) :
    (s.writeReg n x).readReg k = if k = n then x else s.readReg k := by
  simp only [State.readReg, writeReg_cpsr, writeReg_regs, get_set, phys_inj]

@[simp] theorem readReg_pc (s : State) : s.readReg 15 = s.pc := by
  simp [State.readReg, State.pc, State.readUserReg]

@[simp] theorem pc_writePc (s : State) (x : Word) : (s.writePc x).pc = x := by
  simp [State.pc, State.readUserReg]

theorem writeReg_pc_eq (s : State) (x : Word) : s.writeReg 15 x = s.writePc x := by
  simp [State.writeReg, State.writePc, State.writeUserReg]

theorem pc_writeReg (s : State) (n : Reg) (x : Word) :
    (s.writeReg n x).pc = if n = 15 then x else s.pc := by
  rw [← readReg_pc, readReg_writeReg, readReg_pc]
  simp [eq_comm]

/-- The held R15 depends on the registers alone. -/
theorem pc_congr {s t : State} (h : t.regs = s.regs) : t.pc = s.pc := by
  unfold State.pc State.readUserReg; rw [h]

/-! ## SPSRs -/

theorem spsr_get_set (f : SpsrFile) (b b' : SpsrBank) (p : Spsr) :
    (f.set b p).get b' = if b' = b then p else f.get b' := by
  cases b <;> cases b' <;> rfl

theorem spsrBank_mode (k : ExceptionKind) : k.mode.spsrBank = some k.spsrBank := by cases k <;> rfl

theorem spsrBank_eq_none {m : Mode} : m.spsrBank = none ↔ m = .usr ∨ m = .sys := by cases m <;> decide

/-! ## PSR images -/

theorem ofBits_bits (m : Mode) : Mode.ofBits m.bits = some m := by cases m <;> rfl

theorem ofBits_eq_some {b : BitVec 5} {m : Mode} : Mode.ofBits b = some m ↔ b = m.bits := by
  cases m <;> revert b <;> decide

@[simp] theorem toCpsr_toSpsr (p : Cpsr) : p.toSpsr.toCpsr = some p := by
  simp [Psr.toCpsr, Psr.toSpsr, ofBits_bits]

/-- A bit of an image: the reserved bits 27:8 read as 0 (R29, R39). -/
theorem image_getLsbD (p : Spsr) (k : Nat) :
    p.image.getLsbD k =
      if k < 5 then p.m.getLsbD k else if k = 5 then p.t else if k = 6 then p.f else if k = 7 then p.i
      else if k < 28 then false else if k = 28 then p.v else if k = 29 then p.c else if k = 30 then p.z
      else if k = 31 then p.n else false := by
  unfold Psr.image
  by_cases hk : k < 32
  · rcases p with ⟨n, z, c, v, i, f, t, m⟩
    simp only [BitVec.getLsbD_append, BitVec.getLsbD_ofBool, BitVec.getLsbD_zero]
    interval_cases k <;> simp
  · rw [BitVec.getLsbD_of_ge _ _ (by omega)]
    repeat rw [if_neg (by omega)]

@[simp] theorem ofImage_image (p : Spsr) : Psr.ofImage p.image = p := by
  rcases p with ⟨n, z, c, v, i, f, t, m⟩
  simp only [Psr.ofImage, image_getLsbD]
  simp only [Psr.mk.injEq]
  refine ⟨by simp, by simp, by simp, by simp, by simp, by simp, by simp, ?_⟩
  ext k hk
  simp [image_getLsbD, hk]

theorem getLsbD_psrImpl (k : Nat) : Config.psrImpl.getLsbD k = decide (k < 8 ∨ 28 ≤ k ∧ k < 32) := by
  by_cases hk : k < 32
  · interval_cases k <;> decide
  · rw [BitVec.getLsbD_of_ge _ _ (by omega)]; simp; omega

theorem getLsbD_psrFlags (k : Nat) : Config.psrFlags.getLsbD k = decide (28 ≤ k ∧ k < 32) := by
  by_cases hk : k < 32
  · interval_cases k <;> decide
  · rw [BitVec.getLsbD_of_ge _ _ (by omega)]; simp; omega

/-- A write of every implemented bit: nothing of the old image is left (R256). -/
theorem ofImage_masked_impl (old : Spsr) (value : Word) :
    Psr.ofImage (maskedImage old.image value Config.psrImpl) = Psr.ofImage value := by
  simp only [Psr.ofImage, maskedImage, Psr.mk.injEq, BitVec.getLsbD_or, BitVec.getLsbD_and, BitVec.getLsbD_not,
    getLsbD_psrImpl]
  refine ⟨by simp, by simp, by simp, by simp, by simp, by simp, by simp, ?_⟩
  ext k hk
  simp [getLsbD_psrImpl, show k < 8 by omega]

/-- A write of the flag bits: the four flags come from the value, the rest is kept (R256, R259). -/
theorem ofImage_masked_flags (old : Spsr) (value : Word) :
    Psr.ofImage (maskedImage old.image value Config.psrFlags)
      = { old with n := value.getLsbD 31, z := value.getLsbD 30, c := value.getLsbD 29, v := value.getLsbD 28 } := by
  simp only [Psr.ofImage, maskedImage, Psr.mk.injEq, BitVec.getLsbD_or, BitVec.getLsbD_and, BitVec.getLsbD_not,
    getLsbD_psrImpl, getLsbD_psrFlags, image_getLsbD]
  refine ⟨by simp, by simp, by simp, by simp, by simp, by simp, by simp, ?_⟩
  apply BitVec.eq_of_getLsbD_eq
  intro k hk
  have h1 : ¬ (28 ≤ k) := by omega
  simp only [BitVec.getLsbD_extractLsb', BitVec.getLsbD_or, BitVec.getLsbD_and, BitVec.getLsbD_not, Nat.zero_add,
    getLsbD_psrImpl, getLsbD_psrFlags, image_getLsbD]
  simp [hk, h1, show k < 32 by omega]

end Sys2Proof.Machine
end

