-- ==== Sys2Proof/Laws/Exec.lean ====
section
/-! SUPPORT. The laws of `exec`: the instructions by their shared form, what a meaning under its condition can
answer, and one lemma for each shared operation that says everything it can do. -/

namespace Sys2Proof

/-- Every instruction is one of the shared forms: a claim about all instructions is a claim about each form. -/
theorem Instr.byForm {P : Instr → Prop}
    (dp : ∀ op c sb rn rd o, P (.ofDp op c sb rn rd o))
    (single : ∀ op c p u w rn rd o, P (.ofSingle op c p u w rn rd o))
    (half : ∀ op c p u w rn rd o, P (.ofHalf op c p u w rn rd o))
    (mrs : ∀ c ps rd, P (.mrs c ps rd))
    (msrCpsr : ∀ c rm, P (.msrCpsr c rm))
    (msrSpsr : ∀ c rm, P (.msrSpsr c rm))
    (msrFlagsReg : ∀ c pd rm, P (.msrFlagsReg c pd rm))
    (msrFlagsImm : ∀ c pd rot imm8, P (.msrFlagsImm c pd rot imm8))
    (mul : ∀ c sb rd rn rs rm, P (.mul c sb rd rn rs rm))
    (mla : ∀ c sb rd rn rs rm, P (.mla c sb rd rn rs rm))
    (umull : ∀ c sb rdHi rdLo rs rm, P (.umull c sb rdHi rdLo rs rm))
    (umlal : ∀ c sb rdHi rdLo rs rm, P (.umlal c sb rdHi rdLo rs rm))
    (smull : ∀ c sb rdHi rdLo rs rm, P (.smull c sb rdHi rdLo rs rm))
    (smlal : ∀ c sb rdHi rdLo rs rm, P (.smlal c sb rdHi rdLo rs rm))
    (swp : ∀ c rn rd rm, P (.swp c rn rd rm))
    (swpb : ∀ c rn rd rm, P (.swpb c rn rd rm))
    (bx : ∀ c rn, P (.bx c rn))
    (stm : ∀ c p u sb w rn list, P (.stm c p u sb w rn list))
    (ldm : ∀ c p u sb w rn list, P (.ldm c p u sb w rn list))
    (b : ∀ c offset24, P (.b c offset24))
    (bl : ∀ c offset24, P (.bl c offset24))
    (stc : ∀ c p u n w rn crd cpNum offset8, P (.stc c p u n w rn crd cpNum offset8))
    (ldc : ∀ c p u n w rn crd cpNum offset8, P (.ldc c p u n w rn crd cpNum offset8))
    (cdp : ∀ c opc crn crd cpNum cp crm, P (.cdp c opc crn crd cpNum cp crm))
    (mcr : ∀ c opc crn rd cpNum cp crm, P (.mcr c opc crn rd cpNum cp crm))
    (mrc : ∀ c opc crn rd cpNum cp crm, P (.mrc c opc crn rd cpNum cp crm))
    (swi : ∀ c comment, P (.swi c comment))
    (undefined : ∀ c body, P (.undefined c body))
    (i : Instr) : P i := by
  cases i with
  | andImm c sb rn rd rot imm8 => exact dp .and c sb rn rd (.imm rot imm8)
  | andShiftImm c sb rn rd amount5 kind rm => exact dp .and c sb rn rd (.shiftImm amount5 kind rm)
  | andShiftReg c sb rn rd rs kind rm => exact dp .and c sb rn rd (.shiftReg rs kind rm)
  | eorImm c sb rn rd rot imm8 => exact dp .eor c sb rn rd (.imm rot imm8)
  | eorShiftImm c sb rn rd amount5 kind rm => exact dp .eor c sb rn rd (.shiftImm amount5 kind rm)
  | eorShiftReg c sb rn rd rs kind rm => exact dp .eor c sb rn rd (.shiftReg rs kind rm)
  | subImm c sb rn rd rot imm8 => exact dp .sub c sb rn rd (.imm rot imm8)
  | subShiftImm c sb rn rd amount5 kind rm => exact dp .sub c sb rn rd (.shiftImm amount5 kind rm)
  | subShiftReg c sb rn rd rs kind rm => exact dp .sub c sb rn rd (.shiftReg rs kind rm)
  | rsbImm c sb rn rd rot imm8 => exact dp .rsb c sb rn rd (.imm rot imm8)
  | rsbShiftImm c sb rn rd amount5 kind rm => exact dp .rsb c sb rn rd (.shiftImm amount5 kind rm)
  | rsbShiftReg c sb rn rd rs kind rm => exact dp .rsb c sb rn rd (.shiftReg rs kind rm)
  | addImm c sb rn rd rot imm8 => exact dp .add c sb rn rd (.imm rot imm8)
  | addShiftImm c sb rn rd amount5 kind rm => exact dp .add c sb rn rd (.shiftImm amount5 kind rm)
  | addShiftReg c sb rn rd rs kind rm => exact dp .add c sb rn rd (.shiftReg rs kind rm)
  | adcImm c sb rn rd rot imm8 => exact dp .adc c sb rn rd (.imm rot imm8)
  | adcShiftImm c sb rn rd amount5 kind rm => exact dp .adc c sb rn rd (.shiftImm amount5 kind rm)
  | adcShiftReg c sb rn rd rs kind rm => exact dp .adc c sb rn rd (.shiftReg rs kind rm)
  | sbcImm c sb rn rd rot imm8 => exact dp .sbc c sb rn rd (.imm rot imm8)
  | sbcShiftImm c sb rn rd amount5 kind rm => exact dp .sbc c sb rn rd (.shiftImm amount5 kind rm)
  | sbcShiftReg c sb rn rd rs kind rm => exact dp .sbc c sb rn rd (.shiftReg rs kind rm)
  | rscImm c sb rn rd rot imm8 => exact dp .rsc c sb rn rd (.imm rot imm8)
  | rscShiftImm c sb rn rd amount5 kind rm => exact dp .rsc c sb rn rd (.shiftImm amount5 kind rm)
  | rscShiftReg c sb rn rd rs kind rm => exact dp .rsc c sb rn rd (.shiftReg rs kind rm)
  | tstImm c rn rd rot imm8 => exact dp .tst c true rn rd (.imm rot imm8)
  | tstShiftImm c rn rd amount5 kind rm => exact dp .tst c true rn rd (.shiftImm amount5 kind rm)
  | tstShiftReg c rn rd rs kind rm => exact dp .tst c true rn rd (.shiftReg rs kind rm)
  | teqImm c rn rd rot imm8 => exact dp .teq c true rn rd (.imm rot imm8)
  | teqShiftImm c rn rd amount5 kind rm => exact dp .teq c true rn rd (.shiftImm amount5 kind rm)
  | teqShiftReg c rn rd rs kind rm => exact dp .teq c true rn rd (.shiftReg rs kind rm)
  | cmpImm c rn rd rot imm8 => exact dp .cmp c true rn rd (.imm rot imm8)
  | cmpShiftImm c rn rd amount5 kind rm => exact dp .cmp c true rn rd (.shiftImm amount5 kind rm)
  | cmpShiftReg c rn rd rs kind rm => exact dp .cmp c true rn rd (.shiftReg rs kind rm)
  | cmnImm c rn rd rot imm8 => exact dp .cmn c true rn rd (.imm rot imm8)
  | cmnShiftImm c rn rd amount5 kind rm => exact dp .cmn c true rn rd (.shiftImm amount5 kind rm)
  | cmnShiftReg c rn rd rs kind rm => exact dp .cmn c true rn rd (.shiftReg rs kind rm)
  | orrImm c sb rn rd rot imm8 => exact dp .orr c sb rn rd (.imm rot imm8)
  | orrShiftImm c sb rn rd amount5 kind rm => exact dp .orr c sb rn rd (.shiftImm amount5 kind rm)
  | orrShiftReg c sb rn rd rs kind rm => exact dp .orr c sb rn rd (.shiftReg rs kind rm)
  | movImm c sb rn rd rot imm8 => exact dp .mov c sb rn rd (.imm rot imm8)
  | movShiftImm c sb rn rd amount5 kind rm => exact dp .mov c sb rn rd (.shiftImm amount5 kind rm)
  | movShiftReg c sb rn rd rs kind rm => exact dp .mov c sb rn rd (.shiftReg rs kind rm)
  | bicImm c sb rn rd rot imm8 => exact dp .bic c sb rn rd (.imm rot imm8)
  | bicShiftImm c sb rn rd amount5 kind rm => exact dp .bic c sb rn rd (.shiftImm amount5 kind rm)
  | bicShiftReg c sb rn rd rs kind rm => exact dp .bic c sb rn rd (.shiftReg rs kind rm)
  | mvnImm c sb rn rd rot imm8 => exact dp .mvn c sb rn rd (.imm rot imm8)
  | mvnShiftImm c sb rn rd amount5 kind rm => exact dp .mvn c sb rn rd (.shiftImm amount5 kind rm)
  | mvnShiftReg c sb rn rd rs kind rm => exact dp .mvn c sb rn rd (.shiftReg rs kind rm)
  | mrs c ps rd => exact mrs c ps rd
  | msrCpsr c rm => exact msrCpsr c rm
  | msrSpsr c rm => exact msrSpsr c rm
  | msrFlagsReg c pd rm => exact msrFlagsReg c pd rm
  | msrFlagsImm c pd rot imm8 => exact msrFlagsImm c pd rot imm8
  | mul c sb rd rn rs rm => exact mul c sb rd rn rs rm
  | mla c sb rd rn rs rm => exact mla c sb rd rn rs rm
  | umull c sb rdHi rdLo rs rm => exact umull c sb rdHi rdLo rs rm
  | umlal c sb rdHi rdLo rs rm => exact umlal c sb rdHi rdLo rs rm
  | smull c sb rdHi rdLo rs rm => exact smull c sb rdHi rdLo rs rm
  | smlal c sb rdHi rdLo rs rm => exact smlal c sb rdHi rdLo rs rm
  | swp c rn rd rm => exact swp c rn rd rm
  | swpb c rn rd rm => exact swpb c rn rd rm
  | bx c rn => exact bx c rn
  | strhReg c p u w rn rd rm => exact half .strh c p u w rn rd (.reg rm)
  | strhImm c p u w rn rd hi lo => exact half .strh c p u w rn rd (.imm hi lo)
  | ldrhReg c p u w rn rd rm => exact half .ldrh c p u w rn rd (.reg rm)
  | ldrhImm c p u w rn rd hi lo => exact half .ldrh c p u w rn rd (.imm hi lo)
  | ldrsbReg c p u w rn rd rm => exact half .ldrsb c p u w rn rd (.reg rm)
  | ldrsbImm c p u w rn rd hi lo => exact half .ldrsb c p u w rn rd (.imm hi lo)
  | ldrshReg c p u w rn rd rm => exact half .ldrsh c p u w rn rd (.reg rm)
  | ldrshImm c p u w rn rd hi lo => exact half .ldrsh c p u w rn rd (.imm hi lo)
  | strImm c p u w rn rd offset12 => exact single .str c p u w rn rd (.imm offset12)
  | strReg c p u w rn rd amount5 kind rm => exact single .str c p u w rn rd (.reg amount5 kind rm)
  | ldrImm c p u w rn rd offset12 => exact single .ldr c p u w rn rd (.imm offset12)
  | ldrReg c p u w rn rd amount5 kind rm => exact single .ldr c p u w rn rd (.reg amount5 kind rm)
  | strbImm c p u w rn rd offset12 => exact single .strb c p u w rn rd (.imm offset12)
  | strbReg c p u w rn rd amount5 kind rm => exact single .strb c p u w rn rd (.reg amount5 kind rm)
  | ldrbImm c p u w rn rd offset12 => exact single .ldrb c p u w rn rd (.imm offset12)
  | ldrbReg c p u w rn rd amount5 kind rm => exact single .ldrb c p u w rn rd (.reg amount5 kind rm)
  | stm c p u sb w rn list => exact stm c p u sb w rn list
  | ldm c p u sb w rn list => exact ldm c p u sb w rn list
  | b c offset24 => exact b c offset24
  | bl c offset24 => exact bl c offset24
  | stc c p u n w rn crd cpNum offset8 => exact stc c p u n w rn crd cpNum offset8
  | ldc c p u n w rn crd cpNum offset8 => exact ldc c p u n w rn crd cpNum offset8
  | cdp c opc crn crd cpNum cp crm => exact cdp c opc crn crd cpNum cp crm
  | mcr c opc crn rd cpNum cp crm => exact mcr c opc crn rd cpNum cp crm
  | mrc c opc crn rd cpNum cp crm => exact mrc c opc crn rd cpNum cp crm
  | swi c comment => exact swi c comment
  | undefined c body => exact undefined c body

@[simp] theorem cond_ofDp (op : DpOp) (c : Cond) (sb : Bool) (rn rd : Reg) (o : Operand2) :
    (Instr.ofDp op c sb rn rd o).cond = c := by cases op <;> cases o <;> rfl

@[simp] theorem cond_ofSingle (op : SingleOp) (c : Cond) (p u w : Bool) (rn rd : Reg) (o : WordOffset) :
    (Instr.ofSingle op c p u w rn rd o).cond = c := by cases op <;> cases o <;> rfl

@[simp] theorem cond_ofHalf (op : HalfOp) (c : Cond) (p u w : Bool) (rn rd : Reg) (o : HalfOffset) :
    (Instr.ofHalf op c p u w rn rd o).cond = c := by cases op <;> cases o <;> rfl

end Sys2Proof

namespace Sys2Proof.Machine

/-! ## `exec` on the shared forms -/

theorem exec_ofDp (op : DpOp) (c : Cond) (sb : Bool) (rn rd : Reg) (o : Operand2) (s : State) :
    exec (.ofDp op c sb rn rd o) s = conditionally c s (dataProcessing op (sb || op.isCompare) rn rd o s) := by
  cases op <;> cases o <;> cases sb <;> rfl

theorem exec_ldr (c : Cond) (p u w : Bool) (rn rd : Reg) (o : WordOffset) (s : State) :
    exec (.ofSingle .ldr c p u w rn rd o) s = conditionally c s (loadWord p u w rn rd o s) := by cases o <;> rfl

theorem exec_str (c : Cond) (p u w : Bool) (rn rd : Reg) (o : WordOffset) (s : State) :
    exec (.ofSingle .str c p u w rn rd o) s = conditionally c s (storeWord p u w rn rd o s) := by cases o <;> rfl

theorem exec_ldrb (c : Cond) (p u w : Bool) (rn rd : Reg) (o : WordOffset) (s : State) :
    exec (.ofSingle .ldrb c p u w rn rd o) s = conditionally c s (loadByte p u w rn rd o s) := by cases o <;> rfl

theorem exec_strb (c : Cond) (p u w : Bool) (rn rd : Reg) (o : WordOffset) (s : State) :
    exec (.ofSingle .strb c p u w rn rd o) s = conditionally c s (storeByte p u w rn rd o s) := by cases o <;> rfl

theorem exec_ldrh (c : Cond) (p u w : Bool) (rn rd : Reg) (o : HalfOffset) (s : State) :
    exec (.ofHalf .ldrh c p u w rn rd o) s = conditionally c s (loadHalf .half p u w rn rd o s) := by cases o <;> rfl

theorem exec_ldrsh (c : Cond) (p u w : Bool) (rn rd : Reg) (o : HalfOffset) (s : State) :
    exec (.ofHalf .ldrsh c p u w rn rd o) s = conditionally c s (loadHalf .signedHalf p u w rn rd o s) := by
  cases o <;> rfl

theorem exec_ldrsb (c : Cond) (p u w : Bool) (rn rd : Reg) (o : HalfOffset) (s : State) :
    exec (.ofHalf .ldrsb c p u w rn rd o) s = conditionally c s (loadSignedByte p u w rn rd o s) := by
  cases o <;> rfl

theorem exec_strh (c : Cond) (p u w : Bool) (rn rd : Reg) (o : HalfOffset) (s : State) :
    exec (.ofHalf .strh c p u w rn rd o) s = conditionally c s (storeHalf p u w rn rd o s) := by cases o <;> rfl

/-! ## The condition and the environment -/

@[simp] theorem nonCore_eq (r : StepResult) : nonCore r = r := rfl

@[simp] theorem unlessForm_true (r : StepResult) : unlessForm true r = .unmodelled .unpredictableForm := rfl

@[simp] theorem unlessForm_false (r : StepResult) : unlessForm false r = r := rfl

theorem conditionally_of_passes {c : Cond} {s : State} (h : s.passes c = true) (r : StepResult) :
    conditionally c s r = environment s r := by unfold conditionally; rw [if_pos h]

theorem conditionally_of_fails {c : Cond} {s : State} (h : s.passes c = false) (r : StepResult) :
    conditionally c s r = .next { s with fetchAddr := s.fetchAddr + 4 } := by
  unfold conditionally; rw [h]; rfl

/-- The four ways the environment goes on (R149). -/
theorem environment_next {s t : State} {r : StepResult} (h : environment s r = .next t) :
    (∃ u, r = .ok u true ∧ t = { u with fetchAddr := alignWord u.pc }) ∨
    (∃ u, r = .ok u false ∧ t = { u with fetchAddr := s.fetchAddr + 4 }) ∨
    (r = .err .undefinedInstruction ∧ t = takeException .undefined s.fetchAddr s) ∨
    (∃ k, r = .trap k ∧ t = takeException .swi s.fetchAddr s) := by
  match r, h with
  | .ok u true, h => exact .inl ⟨u, rfl, (Host.Outcome.next.inj h).symm⟩
  | .ok u false, h => exact .inr (.inl ⟨u, rfl, (Host.Outcome.next.inj h).symm⟩)
  | .err .undefinedInstruction, h => exact .inr (.inr (.inl ⟨rfl, (Host.Outcome.next.inj h).symm⟩))
  | .err .invalidModeAccess, h => exact nomatch h
  | .err .illegalMode, h => exact nomatch h
  | .trap k, h => exact .inr (.inr (.inr ⟨k, rfl, (Host.Outcome.next.inj h).symm⟩))
  | .unmodelled .thumbState, h => exact nomatch h
  | .unmodelled .nonCoreGroup, h => exact nomatch h
  | .unmodelled .unpredictableForm, h => exact nomatch h

/-- A meaning goes on because its condition failed, or as the environment does. -/
theorem conditionally_next {c : Cond} {s t : State} {r : StepResult} (h : conditionally c s r = .next t) :
    (s.passes c = false ∧ t = { s with fetchAddr := s.fetchAddr + 4 }) ∨
    (s.passes c = true ∧ environment s r = .next t) := by
  cases hp : s.passes c
  · rw [conditionally_of_fails hp] at h; exact .inl ⟨rfl, (Host.Outcome.next.inj h).symm⟩
  · rw [conditionally_of_passes hp] at h; exact .inr ⟨rfl, h⟩

/-- A form check passes an outcome through only when the form is good. -/
theorem unlessForm_ok {bad : Bool} {r : StepResult} {u : State} {w : Bool} (h : unlessForm bad r = .ok u w) :
    bad = false ∧ r = .ok u w := by
  cases bad
  · exact ⟨rfl, h⟩
  · exact nomatch h

/-- A meaning that neither traps nor is undefined goes on only from an `Ok`. -/
theorem conditionally_next_ok {c : Cond} {s t : State} {r : StepResult} (h : conditionally c s r = .next t)
    (h1 : r ≠ .err .undefinedInstruction) (h2 : ∀ k, r ≠ .trap k) :
    (s.passes c = false ∧ t = { s with fetchAddr := s.fetchAddr + 4 }) ∨
    (s.passes c = true ∧ ∃ u w, r = .ok u w ∧
      t = { u with fetchAddr := if w then alignWord u.pc else s.fetchAddr + 4 }) := by
  obtain h | ⟨hp, h⟩ := conditionally_next h
  · exact .inl h
  · obtain ⟨u, hu, rfl⟩ | ⟨u, hu, rfl⟩ | ⟨h, -⟩ | ⟨k, h, -⟩ := environment_next h
    · exact .inr ⟨hp, u, true, hu, rfl⟩
    · exact .inr ⟨hp, u, false, hu, rfl⟩
    · exact absurd h h1
    · exact absurd h (h2 k)

/-! ## Status registers -/

theorem spsrFile_ext {f g : SpsrFile} (h : ∀ b, f.get b = g.get b) : f = g := by
  cases f; cases g
  have h1 := h .fiq; have h2 := h .irq; have h3 := h .svc; have h4 := h .abt; have h5 := h .und
  simp only [SpsrFile.get] at h1 h2 h3 h4 h5
  subst h1 h2 h3 h4 h5; rfl

theorem regFile_ext {r q : RegFile} (h : ∀ p, r.get p = q.get p) : r = q := by
  cases r; cases q
  simp only [RegFile.mk.injEq]
  refine ⟨?_, ?_, ?_, ?_, ?_, ?_⟩ <;> (apply Vector.ext; intro k hk)
  · exact h (.usr ⟨k, hk⟩)
  · exact h (.fiq ⟨k, hk⟩)
  · exact h (.irq ⟨k, hk⟩)
  · exact h (.svc ⟨k, hk⟩)
  · exact h (.abt ⟨k, hk⟩)
  · exact h (.und ⟨k, hk⟩)

/-- A value is no mode's number exactly when it names no mode (R30). -/
theorem ofBits_eq_none {b : BitVec 5} : Mode.ofBits b = none ↔ ∀ m : Mode, m.bits ≠ b := by
  constructor
  · intro h m hm; rw [← hm, ofBits_bits] at h; exact nomatch h
  · intro h
    cases hb : Mode.ofBits b
    · rfl
    · exact absurd (ofBits_eq_some.1 hb).symm (h _)

theorem toCpsr_of_legal {p : Spsr} {m : Mode} (h : Mode.ofBits p.m = some m) :
    p.toCpsr = some { n := p.n, z := p.z, c := p.c, v := p.v, i := p.i, f := p.f, t := p.t, m := m } := by
  simp [Psr.toCpsr, h]

theorem toCpsr_of_illegal {p : Spsr} (h : Mode.ofBits p.m = none) : p.toCpsr = none := by simp [Psr.toCpsr, h]

/-- A PSR that became the CPSR is the SPSR that would save it. -/
theorem toSpsr_of_toCpsr {p : Spsr} {q : Cpsr} (h : p.toCpsr = some q) : q.toSpsr = p := by
  unfold Psr.toCpsr at h
  cases hm : Mode.ofBits p.m
  · simp [hm] at h
  · simp only [hm, Option.map_some, Option.some.injEq] at h
    subst h
    simp [Psr.toSpsr, (ofBits_eq_some.1 hm).symm]

/-- What `WriteCPSR` can do: the CPSR and nothing else (R40). -/
theorem writeCpsr_ok {s t : State} {value mask : Word} (h : s.writeCpsr value mask = .ok t) :
    ∃ p, (Psr.ofImage (maskedImage s.cpsrImage value mask)).toCpsr = some p ∧ t = { s with cpsr := p } := by
  unfold State.writeCpsr at h
  split at h
  · exact nomatch h
  · exact ⟨_, ‹_›, (Except.ok.inj h).symm⟩

/-- What `write_spsr` can do: the SPSR of the mode and nothing else (R34). -/
theorem writeSpsr_ok {s t : State} {value mask : Word} (h : s.writeSpsr value mask = .ok t) :
    ∃ b, s.cpsr.m.spsrBank = some b ∧
      t = { s with spsr := s.spsr.set b (Psr.ofImage (maskedImage (s.spsr.get b).image value mask)) } := by
  unfold State.writeSpsr at h
  split at h
  · exact nomatch h
  · exact ⟨_, ‹_›, (Except.ok.inj h).symm⟩

/-- What the restore can do: the SPSR of the mode, with its legal mode, becomes the CPSR (R205). -/
theorem restoreCpsr_ok {s t : State} (h : s.restoreCpsr = .ok t) :
    ∃ b p, s.cpsr.m.spsrBank = some b ∧ (s.spsr.get b).toCpsr = some p ∧ t = { s with cpsr := p } := by
  unfold State.restoreCpsr State.readSpsr at h
  split at h
  · exact nomatch h
  · next p hp =>
    split at hp
    · exact nomatch hp
    · next b hb =>
      obtain rfl := Except.ok.inj hp
      obtain ⟨q, hq, rfl⟩ := writeCpsr_ok h
      refine ⟨b, q, hb, ?_, rfl⟩
      rwa [State.cpsrImage, ofImage_masked_impl, ofImage_image] at hq

theorem restoreCpsr_of_legal {s : State} {b : SpsrBank} {p : Cpsr} (hb : s.cpsr.m.spsrBank = some b)
    (hp : (s.spsr.get b).toCpsr = some p) : s.restoreCpsr = .ok { s with cpsr := p } := by
  simp only [State.restoreCpsr, State.readSpsr, hb, State.writeCpsr, State.cpsrImage, ofImage_masked_impl,
    ofImage_image, hp]

theorem restoreCpsr_of_illegal {s : State} {b : SpsrBank} (hb : s.cpsr.m.spsrBank = some b)
    (hp : (s.spsr.get b).toCpsr = none) : s.restoreCpsr = .error .illegalMode := by
  simp only [State.restoreCpsr, State.readSpsr, hb, State.writeCpsr, State.cpsrImage, ofImage_masked_impl,
    ofImage_image, hp]

theorem restoreCpsr_of_noSpsr {s : State} (hb : s.cpsr.m.spsrBank = none) :
    s.restoreCpsr = .error .invalidModeAccess := by
  simp only [State.restoreCpsr, State.readSpsr, hb]

/-- A flag-bits-only write of the CPSR always succeeds and leaves I, F, T and the mode alone (R256, R259). -/
theorem writeCpsr_flags (s : State) (value : Word) :
    s.writeCpsr value Config.psrFlags = .ok { s with cpsr := { s.cpsr with
      n := value.getLsbD 31, z := value.getLsbD 30, c := value.getLsbD 29, v := value.getLsbD 28 } } := by
  simp only [State.writeCpsr, State.cpsrImage, ofImage_masked_flags]
  simp [Psr.toCpsr, Psr.toSpsr, ofBits_bits]

/-! ## Data processing -/

/-- Everything a data-processing instruction can do when it completes (R200, R205). -/
theorem dataProcessing_ok {op : DpOp} {sb : Bool} {rn rd : Reg} {o : Operand2} {s u : State} {w : Bool}
    (h : dataProcessing op sb rn rd o s = .ok u w) :
    let sh := operand2 o s
    let out := alu op (s.readReg rn) sh.1 s.cpsr.c
    (sb = true ∧ rd = 15 ∧ w = !op.isCompare ∧ ∃ b p, s.cpsr.m.spsrBank = some b ∧ (s.spsr.get b).toCpsr = some p ∧
      u = if op.isCompare then { s with cpsr := p } else { s with cpsr := p }.writePc out.value) ∨
    ((sb = false ∨ rd ≠ 15) ∧ w = (!op.isCompare && rd = 15) ∧
      u = { (if op.isCompare then s else s.writeReg rd out.value) with
        cpsr := if sb then flagsAfter out sh.2 s.cpsr else s.cpsr }) := by
  intro sh out
  unfold dataProcessing at h
  by_cases hr : sb = true ∧ rd = 15
  · left
    rw [if_pos (by simp [hr.1, hr.2])] at h
    unfold StepResult.ofExcept at h
    split at h
    · next t ht =>
      obtain ⟨b, p, hb, hp, rfl⟩ := restoreCpsr_ok ht
      refine ⟨hr.1, hr.2, ?_, b, p, hb, hp, ?_⟩
      · split at h <;> (obtain ⟨-, rfl⟩ := StepResult.ok.inj h; simp_all)
      · split at h <;> (obtain ⟨rfl, -⟩ := StepResult.ok.inj h; simp_all [out, sh])
    · exact nomatch h
  · right
    rw [if_neg (by simpa using hr)] at h
    obtain ⟨rfl, rfl⟩ := StepResult.ok.inj h
    refine ⟨?_, rfl, ?_⟩
    · cases sb <;> simp_all
    · cases sb <;> cases hc : op.isCompare <;> simp_all [out, sh]
      all_goals rfl

/-- The restore fails only with the two errors of R205. -/
theorem restoreCpsr_error {s : State} {e : ExecError} (h : s.restoreCpsr = .error e) :
    e = .invalidModeAccess ∨ e = .illegalMode := by
  unfold State.restoreCpsr State.readSpsr State.writeCpsr at h
  split at h
  · next hh => split at hh <;> simp_all
  · split at h <;> simp_all

/-- Data processing is never undefined and never traps (R380). -/
theorem dataProcessing_goes_on (op : DpOp) (sb : Bool) (rn rd : Reg) (o : Operand2) (s : State) :
    dataProcessing op sb rn rd o s ≠ .err .undefinedInstruction ∧ ∀ k, dataProcessing op sb rn rd o s ≠ .trap k := by
  unfold dataProcessing
  split
  · unfold StepResult.ofExcept
    split
    · split <;> simp
    · next e he => obtain rfl | rfl := restoreCpsr_error he <;> simp
  · simp

/-- A data-processing instruction that passes its condition and is no restore: its next state (R200, R206). -/
theorem exec_dp_of_passes {op : DpOp} {c : Cond} {sb : Bool} {rn rd : Reg} {o : Operand2} {s : State}
    (hp : s.passes c = true) (h : ¬ (rd = 15 ∧ (sb || op.isCompare) = true)) :
    let out := alu op (s.readReg rn) (operand2 o s).1 s.cpsr.c
    exec (.ofDp op c sb rn rd o) s = .next { (if op.isCompare then s else s.writeReg rd out.value) with
      cpsr := if sb || op.isCompare then flagsAfter out (operand2 o s).2 s.cpsr else s.cpsr
      fetchAddr := if rd = 15 ∧ op.isCompare = false then out.value &&& ~~~(3#32) else s.fetchAddr + 4 } := by
  rw [exec_ofDp, conditionally_of_passes hp]
  unfold dataProcessing
  rw [if_neg (by simp only [Bool.and_eq_true, decide_eq_true_eq, not_and] at h ⊢; tauto)]
  cases hc : op.isCompare <;> cases hs : sb <;> simp_all [environment]
  by_cases h15 : rd = 15
  · subst h15; simp [pc_writeReg, alignWord]
  · simp [h15]

/-- A restore by data processing whose condition passed (R205). -/
theorem exec_dp_restore {op : DpOp} {c : Cond} {sb : Bool} {rn : Reg} {o : Operand2} {s : State}
    (hp : s.passes c = true) (h : (sb || op.isCompare) = true) :
    exec (.ofDp op c sb rn 15 o) s = environment s (StepResult.ofExcept s.restoreCpsr fun t =>
      if op.isCompare then .ok t false
      else .ok (t.writePc (alu op (s.readReg rn) (operand2 o s).1 s.cpsr.c).value) true) := by
  rw [exec_ofDp, conditionally_of_passes hp]
  unfold dataProcessing
  rw [if_pos (by simp [h])]

end Sys2Proof.Machine
end

