-- ==== Sys2Proof/Laws/Effects.lean ====
section
/-! SUPPORT. What each shared operation of the meanings changes when it answers `Ok`, said once: the provers cite
these lemmas instead of unfolding the operation. -/

namespace Sys2Proof.Machine

/-! ## Composing frames -/

theorem RegsSameExcept.refl {ps : List PhysReg} {s t : State} (h : t.regs = s.regs) : RegsSameExcept ps s t :=
  fun _ _ => by rw [h]

theorem RegsSameExcept.trans {ps qs : List PhysReg} {s t u : State} (h : RegsSameExcept ps s t)
    (h' : RegsSameExcept qs t u) : RegsSameExcept (ps ++ qs) s u := fun p hp => by
  simp only [List.mem_append, not_or] at hp
  rw [h' p hp.2, h p hp.1]

theorem RegsSameExcept.mono {ps qs : List PhysReg} {s t : State} (h : RegsSameExcept ps s t) (hs : ps ⊆ qs) :
    RegsSameExcept qs s t := fun p hp => h p fun hm => hp (hs hm)

theorem regsSameExcept_writeReg (s : State) (n : Reg) (x : Word) :
    RegsSameExcept [phys s.cpsr.m n] s (s.writeReg n x) := fun _ hp => get_set_ne _ _ (by simpa using hp)

theorem MemSameExcept.refl {as : List Word} {s t : State} (h : t.mem = s.mem) : MemSameExcept as s t :=
  fun _ _ => read8_congr h _

theorem MemSameExcept.trans {as bs : List Word} {s t u : State} (h : MemSameExcept as s t)
    (h' : MemSameExcept bs t u) : MemSameExcept (as ++ bs) s u := fun a ha => by
  simp only [List.mem_append, not_or] at ha
  rw [h' a ha.2, h a ha.1]

theorem memSameExcept_write32 (s : State) (a x : Word) : MemSameExcept (wordBytes a) s (s.write32 a x) := fun b hb => by
  simp only [wordBytes, List.mem_cons, List.not_mem_nil, or_false, not_or] at hb
  exact read8_write32_ne s x hb.1 hb.2.1 hb.2.2.1 hb.2.2.2

theorem memSameExcept_storeValue (s : State) (k : StoreKind) (ea x : Word) :
    MemSameExcept (k.bytes ea) s (s.storeValue k ea x) := by
  cases k
  · exact memSameExcept_write32 s _ x
  · exact fun b hb => read8_write8_ne s _ (by simpa [StoreKind.bytes] using hb)
  · intro b hb
    simp only [StoreKind.bytes, List.mem_cons, List.not_mem_nil, or_false, not_or] at hb
    exact read8_write16_ne s _ hb.1 hb.2

/-! ## Single transfers and swaps -/

theorem writeBack_regs_except (s : State) (wb : Bool) (rn : Reg) (idx : Word) :
    RegsSameExcept (if wb then [phys s.cpsr.m rn] else []) s (s.writeBack wb rn idx) := by
  cases wb
  · exact fun _ _ => rfl
  · exact regsSameExcept_writeReg s rn idx

/-- What a load changes: Rd, and Rn where it writes back (R310). -/
theorem load_effect {k : LoadKind} {p u w : Bool} {rn rd : Reg} {off : Word} {s t : State} {pw : Bool}
    (h : load k p u w rn rd off s = .ok t pw) :
    RegsSameExcept (phys s.cpsr.m rd :: if writesBack p w then [phys s.cpsr.m rn] else []) s t ∧
    t.cpsr = s.cpsr ∧ SpecialsSame s t ∧ t.mem = s.mem ∧ t.fetchAddr = s.fetchAddr ∧ pw = (rd = 15 : Bool) ∧
    t.readReg rd = s.loadValue k (effectiveAddr p u (s.readReg rn) off) := by
  obtain ⟨rfl, rfl⟩ := StepResult.ok.inj h
  refine ⟨?_, by simp, by simp [SpecialsSame], by simp, by simp, rfl, by simp [readReg_writeReg]⟩
  have h2 := regsSameExcept_writeReg (s.writeBack (writesBack p w) rn (indexed u (s.readReg rn) off)) rd
    (s.loadValue k (effectiveAddr p u (s.readReg rn) off))
  rw [writeBack_cpsr] at h2
  exact ((writeBack_regs_except s _ rn _).trans h2).mono (by intro p; simp; tauto)

/-- What a store changes: the bytes at the effective address, and Rn where it writes back (R310). -/
theorem store_effect {k : StoreKind} {p u w : Bool} {rn rd : Reg} {off : Word} {s t : State} {pw : Bool}
    (h : store k p u w rn rd off s = .ok t pw) :
    RegsSameExcept (if writesBack p w then [phys s.cpsr.m rn] else []) s t ∧ t.cpsr = s.cpsr ∧ SpecialsSame s t ∧
    MemSameExcept (k.bytes (effectiveAddr p u (s.readReg rn) off)) s t ∧ t.fetchAddr = s.fetchAddr ∧ pw = false ∧
    (Memory.wf s.mem = true → Memory.wf t.mem = true) := by
  obtain ⟨rfl, rfl⟩ := StepResult.ok.inj h
  refine ⟨?_, by simp, by simp [SpecialsSame], ?_, by simp, rfl, fun hw => ?_⟩
  · have h2 := writeBack_regs_except (s.storeValue k (effectiveAddr p u (s.readReg rn) off) (s.storedReg rd))
      (writesBack p w) rn (indexed u (s.readReg rn) off)
    rw [storeValue_cpsr] at h2
    exact fun q hq => (h2 q hq).trans (by rw [storeValue_regs])
  · intro a ha
    exact (read8_congr (by simp) a).trans (memSameExcept_storeValue s k _ (s.storedReg rd) a ha)
  · simpa using wf_storeValue k _ _ hw

/-- What a swap changes: the bytes at the address and Rd (R330, R331). -/
theorem swap_effect {lk : LoadKind} {sk : StoreKind} {rn rd rm : Reg} {s t : State} {pw : Bool}
    (h : swap lk sk rn rd rm s = .ok t pw) :
    RegsSameExcept [phys s.cpsr.m rd] s t ∧ t.cpsr = s.cpsr ∧ SpecialsSame s t ∧
    MemSameExcept (sk.bytes (s.readReg rn)) s t ∧ t.fetchAddr = s.fetchAddr ∧ pw = false ∧
    (Memory.wf s.mem = true → Memory.wf t.mem = true) ∧ t.readReg rd = s.loadValue lk (s.readReg rn) := by
  obtain ⟨rfl, rfl⟩ := StepResult.ok.inj h
  refine ⟨?_, by simp, by simp [SpecialsSame], ?_, by simp, rfl, fun hw => ?_, by simp [readReg_writeReg]⟩
  · have h2 := regsSameExcept_writeReg (s.storeValue sk (s.readReg rn) (s.readReg rm)) rd
      (s.loadValue lk (s.readReg rn))
    rw [storeValue_cpsr] at h2
    exact fun q hq => (h2 q hq).trans (by rw [storeValue_regs])
  · exact fun a ha => memSameExcept_storeValue s sk _ (s.readReg rm) a ha
  · simpa using wf_storeValue sk _ _ hw

/-! ## Multiplies, branches, PSR transfers -/

/-- What MUL and MLA change (R282 to R284). -/
theorem multiply_effect {sb : Bool} {rd rs rm : Reg} {acc : Word} {s t : State} {pw : Bool}
    (h : multiply sb rd rs rm acc s = .ok t pw) :
    RegsSameExcept [phys s.cpsr.m rd] s t ∧ ControlSame s t ∧ t.cpsr.v = s.cpsr.v ∧ (sb = false → t.cpsr = s.cpsr) ∧
    t.spsr = s.spsr ∧ t.fiqRequest = s.fiqRequest ∧ t.irqRequest = s.irqRequest ∧ t.mem = s.mem ∧
    t.fetchAddr = s.fetchAddr ∧ pw = false := by
  obtain ⟨rfl, rfl⟩ := StepResult.ok.inj h
  cases sb <;> exact ⟨regsSameExcept_writeReg s rd _, ⟨rfl, rfl, rfl, rfl⟩, rfl, by simp [State.setMultiplyFlags], rfl,
    rfl, rfl, rfl, rfl, rfl⟩

/-- What a long multiply changes (R282, R285). -/
theorem writeLong_effect {sb : Bool} {rdHi rdLo rs rm : Reg} {r : BitVec 64} {s t : State} {pw : Bool}
    (h : writeLong sb rdHi rdLo rs rm r s = .ok t pw) :
    RegsSameExcept [phys s.cpsr.m rdHi, phys s.cpsr.m rdLo] s t ∧ ControlSame s t ∧ (sb = false → t.cpsr = s.cpsr) ∧
    t.spsr = s.spsr ∧ t.fiqRequest = s.fiqRequest ∧ t.irqRequest = s.irqRequest ∧ t.mem = s.mem ∧
    t.fetchAddr = s.fetchAddr ∧ pw = false := by
  obtain ⟨rfl, rfl⟩ := StepResult.ok.inj h
  have hr : RegsSameExcept [phys s.cpsr.m rdHi, phys s.cpsr.m rdLo] s
      ((s.writeReg rdLo (r.extractLsb' 0 32)).writeReg rdHi (r.extractLsb' 32 32)) :=
    ((regsSameExcept_writeReg s rdLo _).trans (regsSameExcept_writeReg _ rdHi _)).mono (by intro p; simp; tauto)
  cases sb <;> exact ⟨hr, ⟨rfl, rfl, rfl, rfl⟩, by simp [State.setLongFlags], rfl, rfl, rfl, rfl, rfl, rfl⟩

/-- What an MRS changes: Rd (R251). -/
theorem moveFromPsr_effect {ps : Bool} {rd : Reg} {s t : State} {pw : Bool} (h : moveFromPsr ps rd s = .ok t pw) :
    ∃ x, psrRead ps s = .ok x ∧ t = s.writeReg rd x ∧ pw = (rd = 15 : Bool) := by
  unfold moveFromPsr at h
  split at h
  · obtain ⟨rfl, rfl⟩ := StepResult.ok.inj h; exact ⟨_, ‹_›, rfl, rfl⟩
  · exact nomatch h

/-- What an MSR to the CPSR changes: the CPSR (R250). -/
theorem psrWrite_cpsr_effect {value mask : Word} {s t : State} {pw : Bool}
    (h : psrWrite false value mask s = .ok t pw) :
    pw = false ∧ ∃ p, (Psr.ofImage (maskedImage s.cpsrImage value mask)).toCpsr = some p ∧ t = { s with cpsr := p } := by
  unfold psrWrite StepResult.ofExcept at h
  split at h
  · next u hu =>
    obtain ⟨rfl, rfl⟩ := StepResult.ok.inj h
    exact ⟨rfl, writeCpsr_ok (by simpa using hu)⟩
  · exact nomatch h

/-- What an MSR to the SPSR changes: the SPSR of the mode (R250). -/
theorem psrWrite_spsr_effect {value mask : Word} {s t : State} {pw : Bool}
    (h : psrWrite true value mask s = .ok t pw) :
    pw = false ∧ ∃ b, s.cpsr.m.spsrBank = some b ∧
      t = { s with spsr := s.spsr.set b (Psr.ofImage (maskedImage (s.spsr.get b).image value mask)) } := by
  unfold psrWrite StepResult.ofExcept at h
  split at h
  · next u hu =>
    obtain ⟨rfl, rfl⟩ := StepResult.ok.inj h
    exact ⟨rfl, writeSpsr_ok (by simpa using hu)⟩
  · exact nomatch h

/-! ## Block transfers -/

/-- The register list in the ascending order of R341. -/
theorem mem_listRegs {list : BitVec 16} {r : Reg} : r ∈ listRegs list ↔ inList list r = true := by
  simp [listRegs, inList]

theorem listRegs_sorted (list : BitVec 16) : (listRegs list).Pairwise (· < ·) :=
  (List.pairwise_lt_finRange 16).filter _

theorem listRegs_nodup (list : BitVec 16) : (listRegs list).Nodup :=
  (listRegs_sorted list).imp fun h => ne_of_lt h

/-- The k-th slot: the k-th register, at the k-th word (R342). -/
theorem getElem_blockSlots (start : Word) (l : List Reg) (k : Nat) (h : k < (blockSlots start l).length)
    (h' : k < l.length) :
    (blockSlots start l)[k] = (l[k], alignWord (start + BitVec.ofNat 32 (4 * k))) := by
  induction l generalizing start k with
  | nil => exact absurd h' (Nat.not_lt_zero _)
  | cons r rs ih =>
    cases k with
    | zero => simp [blockSlots]
    | succ k =>
      simp only [blockSlots, List.getElem_cons_succ]
      rw [ih _ _ _ (Nat.lt_of_succ_lt_succ h')]
      simp only [Nat.mul_add, BitVec.ofNat_add, Prod.mk.injEq, true_and]
      congr 1
      rw [BitVec.add_assoc]
      congr 1
      exact BitVec.add_comm _ _

@[simp] theorem length_blockSlots (start : Word) (l : List Reg) : (blockSlots start l).length = l.length := by
  induction l generalizing start with
  | nil => rfl
  | cons r rs ih => simp [blockSlots, ih]

@[simp] theorem map_fst_blockSlots (start : Word) (l : List Reg) : (blockSlots start l).map Prod.fst = l := by
  induction l generalizing start with
  | nil => rfl
  | cons r rs ih => simp [blockSlots, ih]

/-- The bank a block transfer's register is in (R345). -/
def blockBank (user : Bool) (m : Mode) (r : Reg) : PhysReg := if user then .usr r else phys m r

theorem blockBank_inj {user : Bool} {m : Mode} {r q : Reg} : blockBank user m r = blockBank user m q ↔ r = q := by
  cases user
  · exact phys_inj m
  · simp [blockBank]

/-- Registers written in order: a register not among them keeps its value. -/
theorem writeRegs_get_of_notMem {user : Bool} {s : State} {l : List (Reg × Word)} {p : PhysReg}
    (h : p ∉ l.map fun q => blockBank user s.cpsr.m q.1) : (State.writeRegs user s l).regs.get p = s.regs.get p := by
  induction l generalizing s with
  | nil => rfl
  | cons q rest ih =>
    simp only [List.map_cons, List.mem_cons, not_or] at h
    cases user
    · exact (ih (s := s.writeReg q.1 q.2) h.2).trans (get_set_ne _ _ h.1)
    · exact (ih (s := s.writeUserReg q.1 q.2) h.2).trans (get_set_ne _ _ h.1)

/-- Registers written in order, no two the same: each has its value. -/
theorem writeRegs_get_of_mem {user : Bool} {s : State} {l : List (Reg × Word)} {q : Reg × Word}
    (hn : (l.map Prod.fst).Nodup) (h : q ∈ l) :
    (State.writeRegs user s l).regs.get (blockBank user s.cpsr.m q.1) = q.2 := by
  induction l generalizing s with
  | nil => exact nomatch h
  | cons r rest ih =>
    simp only [List.map_cons, List.nodup_cons] at hn
    obtain rfl | h := List.mem_cons.1 h
    · have hm : blockBank user s.cpsr.m q.1 ∉ rest.map fun x => blockBank user s.cpsr.m x.1 := by
        intro hc
        obtain ⟨x, hx, he⟩ := List.mem_map.1 hc
        exact hn.1 (List.mem_map.2 ⟨x, hx, blockBank_inj.1 he⟩)
      cases user
      · exact (writeRegs_get_of_notMem (s := s.writeReg q.1 q.2) hm).trans (get_set_self _ _ _)
      · exact (writeRegs_get_of_notMem (s := s.writeUserReg q.1 q.2) hm).trans (by simp [blockBank])
    · cases user
      · exact ih (s := s.writeReg r.1 r.2) hn.2 h
      · exact ih (s := s.writeUserReg r.1 r.2) hn.2 h

/-- What the register writes of an LDM change (R343, R345, R346). -/
theorem loadedBlock_effect (p u sb w : Bool) (rn : Reg) (list : BitVec 16) (s : State) :
    let user := sb && !inList list 15
    let t := loadedBlock p u sb w rn list s
    RegsSameExcept ((listRegs list).map (blockBank user s.cpsr.m) ++ if w then [phys s.cpsr.m rn] else []) s t ∧
    (∀ (k : Nat) (h : k < (listRegs list).length), t.regs.get (blockBank user s.cpsr.m (listRegs list)[k])
      = s.read32 (alignWord (blockStart p u (s.readReg rn) list + BitVec.ofNat 32 (4 * k)))) ∧
    (w = true → phys s.cpsr.m rn ∉ (listRegs list).map (blockBank user s.cpsr.m) →
      t.regs.get (phys s.cpsr.m rn) = blockWriteback u (s.readReg rn) list) ∧
    t.cpsr = s.cpsr ∧ SpecialsSame s t ∧ t.mem = s.mem ∧ t.fetchAddr = s.fetchAddr := by
  intro user t
  have hf : (s.loadBlock (blockStart p u (s.readReg rn) list) list).map Prod.fst = listRegs list := by
    simp [State.loadBlock, Function.comp_def]
  have hb : (s.loadBlock (blockStart p u (s.readReg rn) list) list).map (fun q => blockBank user s.cpsr.m q.1)
      = (listRegs list).map (blockBank user s.cpsr.m) := by
    rw [← hf, List.map_map]; rfl
  have hc : (if w then s.writeReg rn (blockWriteback u (s.readReg rn) list) else s).cpsr = s.cpsr := by
    cases w <;> rfl
  refine ⟨?_, ?_, ?_, by cases w <;> simp [t, loadedBlock], by cases w <;> simp [t, loadedBlock, SpecialsSame],
    by cases w <;> simp [t, loadedBlock], by cases w <;> simp [t, loadedBlock]⟩
  · intro q hq
    simp only [List.mem_append, not_or] at hq
    have h1 := writeRegs_get_of_notMem (user := user) (p := q)
      (s := if w then s.writeReg rn (blockWriteback u (s.readReg rn) list) else s)
      (l := s.loadBlock (blockStart p u (s.readReg rn) list) list) (by rw [hc, hb]; exact hq.1)
    refine h1.trans ?_
    cases w
    · rfl
    · exact get_set_ne _ _ (by simpa using hq.2)
  · intro k h
    have hl : k < (s.loadBlock (blockStart p u (s.readReg rn) list) list).length := by
      simpa [State.loadBlock] using h
    have h1 := writeRegs_get_of_mem (user := user)
      (s := if w then s.writeReg rn (blockWriteback u (s.readReg rn) list) else s)
      (l := s.loadBlock (blockStart p u (s.readReg rn) list) list) (by rw [hf]; exact listRegs_nodup list)
      (List.getElem_mem hl)
    have he : (s.loadBlock (blockStart p u (s.readReg rn) list) list)[k] = ((listRegs list)[k],
        s.read32 (alignWord (blockStart p u (s.readReg rn) list + BitVec.ofNat 32 (4 * k)))) := by
      simp only [State.loadBlock, List.getElem_map]
      rw [getElem_blockSlots _ _ _ _ h]
    rw [he, hc] at h1
    exact h1
  · intro hw hn
    have h1 := writeRegs_get_of_notMem (user := user) (p := phys s.cpsr.m rn)
      (s := if w then s.writeReg rn (blockWriteback u (s.readReg rn) list) else s)
      (l := s.loadBlock (blockStart p u (s.readReg rn) list) list) (by rw [hc, hb]; exact hn)
    refine h1.trans ?_
    rw [hw]; exact get_set_self _ _ _

/-- Everything an LDM can do when it completes (R346, R347). -/
theorem loadMultiple_ok {p u sb w : Bool} {rn : Reg} {list : BitVec 16} {s t : State} {pw : Bool}
    (h : loadMultiple p u sb w rn list s = .ok t pw) :
    (isRestore sb list = true ∧ pw = true ∧ ∃ b q, s.cpsr.m.spsrBank = some b ∧ (s.spsr.get b).toCpsr = some q ∧
      t = { loadedBlock p u sb w rn list s with cpsr := q }) ∨
    (isRestore sb list = false ∧ pw = inList list 15 ∧ t = loadedBlock p u sb w rn list s) := by
  unfold loadMultiple at h
  split at h
  · next hr =>
    unfold StepResult.ofExcept at h
    split at h
    · next v hv =>
      obtain ⟨b, q, hb, hq, rfl⟩ := restoreCpsr_ok hv
      obtain ⟨rfl, rfl⟩ := StepResult.ok.inj h
      exact .inl ⟨hr, rfl, b, q, hb, hq, rfl⟩
    · exact nomatch h
  · next hr =>
    obtain ⟨rfl, rfl⟩ := StepResult.ok.inj h
    exact .inr ⟨by simpa using hr, rfl, rfl⟩

/-- Words written in order: a byte of none of them keeps its value. -/
theorem writeWords_read8 {s : State} {l : List (Word × Word)} {a : Word}
    (h : a ∉ l.flatMap fun q => wordBytes q.1) : (s.writeWords l).read8 a = s.read8 a := by
  induction l generalizing s with
  | nil => rfl
  | cons q rest ih =>
    simp only [List.flatMap_cons, List.mem_append, not_or] at h
    exact (ih h.2).trans (memSameExcept_write32 s q.1 q.2 a h.1)

/-- Two words of different aligned addresses share no byte. -/
theorem wordBytes_disjoint {a b c : Word} (h : alignWord a ≠ alignWord b) (hc : c ∈ wordBytes (alignWord a)) :
    c ∉ wordBytes (alignWord b) := by
  have h1 := alignWord_toNat a
  have h2 := alignWord_toNat b
  generalize alignWord a = p at *
  generalize alignWord b = q at *
  have hp := p.isLt; have hq := q.isLt; have hA := a.isLt; have hB := b.isLt
  have hne : p.toNat ≠ q.toNat := fun e => h (BitVec.eq_of_toNat_eq e)
  simp only [wordBytes, List.mem_cons, List.not_mem_nil, or_false] at hc ⊢
  rcases hc with rfl | rfl | rfl | rfl <;> bv_omega

/-- The slots of a block transfer are different words (R342). -/
theorem slots_ne (start : Word) {j k : Nat} (hjk : j < k) (hk : k < 16) :
    alignWord (start + BitVec.ofNat 32 (4 * j)) ≠ alignWord (start + BitVec.ofNat 32 (4 * k)) := by
  intro h
  have h1 := congrArg BitVec.toNat h
  have hs := start.isLt
  simp only [alignWord_toNat, BitVec.toNat_add, BitVec.toNat_ofNat] at h1
  omega

/-- Words written in order, no two the same: each reads back. -/
theorem writeWords_read32 {s : State} {l : List (Word × Word)} {q : Word × Word} (hw : Memory.wf s.mem = true)
    (ha : ∀ x ∈ l, ∃ b, x.1 = alignWord b) (hn : l.Pairwise fun x y => x.1 ≠ y.1) (h : q ∈ l) :
    (s.writeWords l).read32 q.1 = q.2 := by
  induction l generalizing s with
  | nil => exact nomatch h
  | cons r rest ih =>
    rw [List.pairwise_cons] at hn
    have ha' : ∀ x ∈ rest, ∃ b, x.1 = alignWord b := fun x hx => ha x (List.mem_cons_of_mem _ hx)
    obtain rfl | h := List.mem_cons.1 h
    · obtain ⟨b, hb⟩ := ha q List.mem_cons_self
      have hout : ∀ c ∈ wordBytes q.1, ((s.write32 q.1 q.2).writeWords rest).read8 c = (s.write32 q.1 q.2).read8 c := by
        intro c hc
        refine writeWords_read8 fun hm => ?_
        obtain ⟨x, hx, hcx⟩ := List.mem_flatMap.1 hm
        obtain ⟨d, hd⟩ := ha' x hx
        have hne := hn.1 x hx
        rw [hb] at hc hne; rw [hd] at hcx hne
        exact wordBytes_disjoint hne hc hcx
      have e0 := hout q.1 (by simp [wordBytes])
      have e1 := hout (q.1 + 1) (by simp [wordBytes])
      have e2 := hout (q.1 + 2) (by simp [wordBytes])
      have e3 := hout (q.1 + 3) (by simp [wordBytes])
      rw [← read32_write32_self q.1 q.2 hw]
      show State.read32 ((s.write32 q.1 q.2).writeWords rest) q.1 = _
      unfold State.read32
      rw [e0, e1, e2, e3]
    · exact ih (s := s.write32 r.1 r.2) (wf_write32 _ _ hw) ha' hn.2 h

/-- What an STM changes, after the form checks (R343, R348). -/
theorem storeMultiple_effect {p u sb w : Bool} {rn : Reg} {list : BitVec 16} {s t : State} {pw : Bool}
    (h : storeMultiple p u sb w rn list s = .ok t pw) :
    let slot := fun k : Nat => alignWord (blockStart p u (s.readReg rn) list + BitVec.ofNat 32 (4 * k))
    RegsSameExcept (if w then [phys s.cpsr.m rn] else []) s t ∧
    (w = true → t.readReg rn = blockWriteback u (s.readReg rn) list) ∧
    t.cpsr = s.cpsr ∧ SpecialsSame s t ∧ t.fetchAddr = s.fetchAddr ∧ pw = false ∧
    MemSameExcept ((List.range (listRegs list).length).flatMap fun k => wordBytes (slot k)) s t ∧
    (Memory.wf s.mem = true → Memory.wf t.mem = true ∧ ∀ (k : Nat) (hk : k < (listRegs list).length),
      t.read32 (slot k) = State.blockStored sb s (listRegs list)[k]) := by
  intro slot
  obtain ⟨rfl, rfl⟩ := StepResult.ok.inj h
  have hl16 : (listRegs list).length ≤ 16 := (List.length_filter_le _ _).trans (by simp)
  have hlen : (State.storeBlock sb s (blockStart p u (s.readReg rn) list) list).length = (listRegs list).length := by
    simp [State.storeBlock]
  have hget : ∀ (k : Nat) (hk : k < (listRegs list).length),
      (State.storeBlock sb s (blockStart p u (s.readReg rn) list) list)[k]'(by rw [hlen]; exact hk)
        = (slot k, State.blockStored sb s (listRegs list)[k]) := by
    intro k hk
    simp only [State.storeBlock, List.getElem_map]
    rw [getElem_blockSlots _ _ _ _ hk]
  have hmem : ∀ f : State → State, (∀ x, (f x).mem = x.mem) → ∀ a,
      (f (s.writeWords (State.storeBlock sb s (blockStart p u (s.readReg rn) list) list))).read32 a
        = (s.writeWords (State.storeBlock sb s (blockStart p u (s.readReg rn) list) list)).read32 a :=
    fun f hf a => read32_congr (hf _) a
  refine ⟨?_, ?_, by cases w <;> simp, by cases w <;> simp [SpecialsSame], by cases w <;> simp, rfl, ?_, ?_⟩
  · cases w
    · exact RegsSameExcept.refl (by simp)
    · intro q hq
      have h2 := regsSameExcept_writeReg
        (s.writeWords (State.storeBlock sb s (blockStart p u (s.readReg rn) list) list)) rn
        (blockWriteback u (s.readReg rn) list)
      rw [writeWords_cpsr] at h2
      exact (h2 q hq).trans (by rw [writeWords_regs])
  · rintro rfl; simp [readReg_writeReg]
  · intro a ha
    have h1 : (s.writeWords (State.storeBlock sb s (blockStart p u (s.readReg rn) list) list)).read8 a = s.read8 a := by
      refine writeWords_read8 fun hm => ha ?_
      obtain ⟨x, hx, hax⟩ := List.mem_flatMap.1 hm
      obtain ⟨k, hk, rfl⟩ := List.getElem_of_mem hx
      rw [hlen] at hk
      rw [hget k hk] at hax
      exact List.mem_flatMap.2 ⟨k, List.mem_range.2 hk, hax⟩
    exact (read8_congr (by cases w <;> simp) a).trans h1
  · intro hw
    refine ⟨by have := wf_writeWords (State.storeBlock sb s (blockStart p u (s.readReg rn) list) list) hw
               cases w <;> simpa using this, fun k hk => ?_⟩
    have hp : (State.storeBlock sb s (blockStart p u (s.readReg rn) list) list).Pairwise fun x y => x.1 ≠ y.1 := by
      rw [List.pairwise_iff_getElem]
      intro i j hi hj hij
      rw [hlen] at hi hj
      rw [hget i hi, hget j hj]
      exact slots_ne _ hij (by omega)
    have ha : ∀ x ∈ State.storeBlock sb s (blockStart p u (s.readReg rn) list) list, ∃ b, x.1 = alignWord b := by
      intro x hx
      obtain ⟨k, hk, rfl⟩ := List.getElem_of_mem hx
      rw [hlen] at hk
      rw [hget k hk]
      exact ⟨_, rfl⟩
    have h1 := writeWords_read32 hw ha hp (List.getElem_mem (by rw [hlen]; exact hk : k < _))
    rw [hget k hk] at h1
    refine Eq.trans ?_ h1
    cases w
    · rfl
    · exact hmem (fun x => x.writeReg rn (blockWriteback u (s.readReg rn) list)) (fun _ => rfl) _

end Sys2Proof.Machine
end

