-- ==== Sys2Proof/Laws/Encoding.lean ====
section
/-! SUPPORT. The laws of the fields of a word: a field cut from a concatenation, and the numbers of the encoded
names. -/

namespace Sys2Proof

/-! ## A field of a concatenation -/

theorem field_low {n m k l : Nat} (a : BitVec n) (b : BitVec m) (h : k + l ≤ m) :
    (a ++ b).extractLsb' k l = b.extractLsb' k l := by
  apply BitVec.eq_of_getLsbD_eq
  intro i hi
  simp only [BitVec.getLsbD_extractLsb', BitVec.getLsbD_append, hi, decide_true, Bool.true_and]
  rw [if_pos (by omega)]

theorem field_high {n m k l : Nat} (a : BitVec n) (b : BitVec m) (h : m ≤ k) :
    (a ++ b).extractLsb' k l = a.extractLsb' (k - m) l := by
  apply BitVec.eq_of_getLsbD_eq
  intro i hi
  simp only [BitVec.getLsbD_extractLsb', BitVec.getLsbD_append, hi, decide_true, Bool.true_and]
  rw [if_neg (by omega)]
  congr 1; omega

theorem field_all {m : Nat} (b : BitVec m) : b.extractLsb' 0 m = b := by
  apply BitVec.eq_of_getLsbD_eq
  intro i hi
  simp [hi]

/-- A field of a field is a field. -/
theorem field_field (w : Word) {k l m : Nat} (h : k + l ≤ m) : (w.extractLsb' 0 m).extractLsb' k l = bits w k l := by
  unfold bits
  apply BitVec.eq_of_getLsbD_eq
  intro i hi
  simp only [BitVec.getLsbD_extractLsb', hi, decide_true, Bool.true_and, Nat.zero_add]
  rw [decide_eq_true (by omega), Bool.true_and]

theorem bit_field (w : Word) {k m : Nat} (h : k < m) : (w.extractLsb' 0 m).getLsbD k = bit w k := by
  simp [bit, h]

/-- Part of a field. -/
theorem field_sub (w : Word) {k l d e : Nat} (h : d + e ≤ l) : bits w (k + d) e = (bits w k l).extractLsb' d e := by
  unfold bits
  apply BitVec.eq_of_getLsbD_eq
  intro i hi
  simp only [BitVec.getLsbD_extractLsb', hi, decide_true, Bool.true_and]
  rw [decide_eq_true (by omega), Bool.true_and]; congr 1; omega

/-- Two neighbouring fields are one. -/
theorem field_join (w : Word) {hi n lo m : Nat} (h : hi = lo + m) : bits w hi n ++ bits w lo m = bits w lo (n + m) := by
  subst h
  unfold bits
  apply BitVec.eq_of_getLsbD_eq
  intro i hi
  simp only [BitVec.getLsbD_append, BitVec.getLsbD_extractLsb', hi, decide_true, Bool.true_and]
  split
  · simp [*]
  · rw [decide_eq_true (by omega), Bool.true_and]; congr 1; omega

theorem bits_all (w : Word) : bits w 0 32 = w := field_all w

@[simp] theorem regBits_regAt (w : Word) (lo : Nat) : regBits (regAt w lo) = bits w lo 4 := rfl

theorem flag_bit (w : Word) (k : Nat) : flag (bit w k) = bits w k 1 := by
  unfold flag bit bits
  apply BitVec.eq_of_getLsbD_eq
  intro i hi
  obtain rfl : i = 0 := by omega
  simp

theorem bit_eq_field (w : Word) (i : Nat) : bit w i = (bits w i 1).getLsbD 0 := by
  simp [bit, bits]

/-! ## The numbers of the encoded names -/

@[simp] theorem Cond.ofBits_bits (c : Cond) : Cond.ofBits c.bits = c := by cases c <;> rfl

@[simp] theorem ShiftKind.ofBits_bits (k : ShiftKind) : ShiftKind.ofBits k.bits = k := by cases k <;> rfl

@[simp] theorem DpOp.ofBits_bits (op : DpOp) : DpOp.ofBits op.bits = op := by cases op <;> rfl

theorem Cond.bits_ofBits (b : BitVec 4) : (Cond.ofBits b).bits = b := by revert b; decide

theorem ShiftKind.bits_ofBits (b : BitVec 2) : (ShiftKind.ofBits b).bits = b := by revert b; decide

theorem DpOp.bits_ofBits (b : BitVec 4) : (DpOp.ofBits b).bits = b := by revert b; decide

/-! ## Bits 31:28 of each format -/

theorem cond_encodeDp (op : DpOp) (c : Cond) (sb : Bool) (rn rd : Reg) (o : Operand2) :
    bits (encodeDp op c sb rn rd o) 28 4 = c.bits := by
  unfold bits encodeDp
  cases o <;> simp (disch := decide) only [field_high, field_all, Nat.reduceSub]

theorem cond_encodeMsrReg (c : Cond) (pd full : Bool) (rm : Reg) :
    bits (encodeMsrReg c pd full rm) 28 4 = c.bits := by
  unfold bits encodeMsrReg
  simp (disch := decide) only [field_high, field_all, Nat.reduceSub]

theorem cond_encodeMultiply (c : Cond) (a sb : Bool) (rd rn rs rm : Reg) :
    bits (encodeMultiply c a sb rd rn rs rm) 28 4 = c.bits := by
  unfold bits encodeMultiply
  simp (disch := decide) only [field_high, field_all, Nat.reduceSub]

theorem cond_encodeMultiplyLong (c : Cond) (u a sb : Bool) (rdHi rdLo rs rm : Reg) :
    bits (encodeMultiplyLong c u a sb rdHi rdLo rs rm) 28 4 = c.bits := by
  unfold bits encodeMultiplyLong
  simp (disch := decide) only [field_high, field_all, Nat.reduceSub]

theorem cond_encodeSwap (c : Cond) (b : Bool) (rn rd rm : Reg) :
    bits (encodeSwap c b rn rd rm) 28 4 = c.bits := by
  unfold bits encodeSwap
  simp (disch := decide) only [field_high, field_all, Nat.reduceSub]

theorem cond_encodeHalf (op : HalfOp) (c : Cond) (p u w : Bool) (rn rd : Reg) (o : HalfOffset) :
    bits (encodeHalf op c p u w rn rd o) 28 4 = c.bits := by
  unfold bits encodeHalf
  cases o <;> simp (disch := decide) only [field_high, field_all, Nat.reduceSub]

theorem cond_encodeSingle (op : SingleOp) (c : Cond) (p u w : Bool) (rn rd : Reg) (o : WordOffset) :
    bits (encodeSingle op c p u w rn rd o) 28 4 = c.bits := by
  unfold bits encodeSingle
  cases o <;> simp (disch := decide) only [field_high, field_all, Nat.reduceSub]

theorem cond_encodeBlock (c : Cond) (p u sb w l : Bool) (rn : Reg) (list : BitVec 16) :
    bits (encodeBlock c p u sb w l rn list) 28 4 = c.bits := by
  unfold bits encodeBlock
  simp (disch := decide) only [field_high, field_all, Nat.reduceSub]

theorem cond_encodeCopTransfer (c : Cond) (p u n w l : Bool) (rn : Reg) (crd cpNum : BitVec 4) (offset8 : BitVec 8) :
    bits (encodeCopTransfer c p u n w l rn crd cpNum offset8) 28 4 = c.bits := by
  unfold bits encodeCopTransfer
  simp (disch := decide) only [field_high, field_all, Nat.reduceSub]

theorem cond_encodeCopReg (c : Cond) (l : Bool) (opc : BitVec 3) (crn : BitVec 4) (rd : Reg) (cpNum : BitVec 4)
    (cp : BitVec 3) (crm : BitVec 4) :
    bits (encodeCopReg c l opc crn rd cpNum cp crm) 28 4 = c.bits := by
  unfold bits encodeCopReg
  simp (disch := decide) only [field_high, field_all, Nat.reduceSub]

end Sys2Proof
end

