-- ==== Sys2Proof/Laws/PerInstr.lean ====
section
/-! SUPPORT. One statement per instruction as syntax: bits 31:28 of its word are its condition field
(spec/30_encoding.md R91). -/

namespace Sys2Proof.Laws

/-- "In every format bits 31:28 are the condition field" (R91). -/
def CondField.Statement (i : Instr) : Prop := bits (encode i) 28 4 = i.cond.bits

theorem CondField.andImm (c : Cond) (sb : Bool) (rn rd : Reg) (rot : BitVec 4) (imm8 : BitVec 8) :
    CondField.Statement (.andImm c sb rn rd rot imm8) :=
  cond_encodeDp ..

theorem CondField.andShiftImm (c : Cond) (sb : Bool) (rn rd : Reg) (amount5 : BitVec 5) (kind : ShiftKind) (rm : Reg) :
    CondField.Statement (.andShiftImm c sb rn rd amount5 kind rm) :=
  cond_encodeDp ..

theorem CondField.andShiftReg (c : Cond) (sb : Bool) (rn rd rs : Reg) (kind : ShiftKind) (rm : Reg) :
    CondField.Statement (.andShiftReg c sb rn rd rs kind rm) :=
  cond_encodeDp ..

theorem CondField.eorImm (c : Cond) (sb : Bool) (rn rd : Reg) (rot : BitVec 4) (imm8 : BitVec 8) :
    CondField.Statement (.eorImm c sb rn rd rot imm8) :=
  cond_encodeDp ..

theorem CondField.eorShiftImm (c : Cond) (sb : Bool) (rn rd : Reg) (amount5 : BitVec 5) (kind : ShiftKind) (rm : Reg) :
    CondField.Statement (.eorShiftImm c sb rn rd amount5 kind rm) :=
  cond_encodeDp ..

theorem CondField.eorShiftReg (c : Cond) (sb : Bool) (rn rd rs : Reg) (kind : ShiftKind) (rm : Reg) :
    CondField.Statement (.eorShiftReg c sb rn rd rs kind rm) :=
  cond_encodeDp ..

theorem CondField.subImm (c : Cond) (sb : Bool) (rn rd : Reg) (rot : BitVec 4) (imm8 : BitVec 8) :
    CondField.Statement (.subImm c sb rn rd rot imm8) :=
  cond_encodeDp ..

theorem CondField.subShiftImm (c : Cond) (sb : Bool) (rn rd : Reg) (amount5 : BitVec 5) (kind : ShiftKind) (rm : Reg) :
    CondField.Statement (.subShiftImm c sb rn rd amount5 kind rm) :=
  cond_encodeDp ..

theorem CondField.subShiftReg (c : Cond) (sb : Bool) (rn rd rs : Reg) (kind : ShiftKind) (rm : Reg) :
    CondField.Statement (.subShiftReg c sb rn rd rs kind rm) :=
  cond_encodeDp ..

theorem CondField.rsbImm (c : Cond) (sb : Bool) (rn rd : Reg) (rot : BitVec 4) (imm8 : BitVec 8) :
    CondField.Statement (.rsbImm c sb rn rd rot imm8) :=
  cond_encodeDp ..

theorem CondField.rsbShiftImm (c : Cond) (sb : Bool) (rn rd : Reg) (amount5 : BitVec 5) (kind : ShiftKind) (rm : Reg) :
    CondField.Statement (.rsbShiftImm c sb rn rd amount5 kind rm) :=
  cond_encodeDp ..

theorem CondField.rsbShiftReg (c : Cond) (sb : Bool) (rn rd rs : Reg) (kind : ShiftKind) (rm : Reg) :
    CondField.Statement (.rsbShiftReg c sb rn rd rs kind rm) :=
  cond_encodeDp ..

theorem CondField.addImm (c : Cond) (sb : Bool) (rn rd : Reg) (rot : BitVec 4) (imm8 : BitVec 8) :
    CondField.Statement (.addImm c sb rn rd rot imm8) :=
  cond_encodeDp ..

theorem CondField.addShiftImm (c : Cond) (sb : Bool) (rn rd : Reg) (amount5 : BitVec 5) (kind : ShiftKind) (rm : Reg) :
    CondField.Statement (.addShiftImm c sb rn rd amount5 kind rm) :=
  cond_encodeDp ..

theorem CondField.addShiftReg (c : Cond) (sb : Bool) (rn rd rs : Reg) (kind : ShiftKind) (rm : Reg) :
    CondField.Statement (.addShiftReg c sb rn rd rs kind rm) :=
  cond_encodeDp ..

theorem CondField.adcImm (c : Cond) (sb : Bool) (rn rd : Reg) (rot : BitVec 4) (imm8 : BitVec 8) :
    CondField.Statement (.adcImm c sb rn rd rot imm8) :=
  cond_encodeDp ..

theorem CondField.adcShiftImm (c : Cond) (sb : Bool) (rn rd : Reg) (amount5 : BitVec 5) (kind : ShiftKind) (rm : Reg) :
    CondField.Statement (.adcShiftImm c sb rn rd amount5 kind rm) :=
  cond_encodeDp ..

theorem CondField.adcShiftReg (c : Cond) (sb : Bool) (rn rd rs : Reg) (kind : ShiftKind) (rm : Reg) :
    CondField.Statement (.adcShiftReg c sb rn rd rs kind rm) :=
  cond_encodeDp ..

theorem CondField.sbcImm (c : Cond) (sb : Bool) (rn rd : Reg) (rot : BitVec 4) (imm8 : BitVec 8) :
    CondField.Statement (.sbcImm c sb rn rd rot imm8) :=
  cond_encodeDp ..

theorem CondField.sbcShiftImm (c : Cond) (sb : Bool) (rn rd : Reg) (amount5 : BitVec 5) (kind : ShiftKind) (rm : Reg) :
    CondField.Statement (.sbcShiftImm c sb rn rd amount5 kind rm) :=
  cond_encodeDp ..

theorem CondField.sbcShiftReg (c : Cond) (sb : Bool) (rn rd rs : Reg) (kind : ShiftKind) (rm : Reg) :
    CondField.Statement (.sbcShiftReg c sb rn rd rs kind rm) :=
  cond_encodeDp ..

theorem CondField.rscImm (c : Cond) (sb : Bool) (rn rd : Reg) (rot : BitVec 4) (imm8 : BitVec 8) :
    CondField.Statement (.rscImm c sb rn rd rot imm8) :=
  cond_encodeDp ..

theorem CondField.rscShiftImm (c : Cond) (sb : Bool) (rn rd : Reg) (amount5 : BitVec 5) (kind : ShiftKind) (rm : Reg) :
    CondField.Statement (.rscShiftImm c sb rn rd amount5 kind rm) :=
  cond_encodeDp ..

theorem CondField.rscShiftReg (c : Cond) (sb : Bool) (rn rd rs : Reg) (kind : ShiftKind) (rm : Reg) :
    CondField.Statement (.rscShiftReg c sb rn rd rs kind rm) :=
  cond_encodeDp ..

theorem CondField.tstImm (c : Cond) (rn rd : Reg) (rot : BitVec 4) (imm8 : BitVec 8) :
    CondField.Statement (.tstImm c rn rd rot imm8) :=
  cond_encodeDp ..

theorem CondField.tstShiftImm (c : Cond) (rn rd : Reg) (amount5 : BitVec 5) (kind : ShiftKind) (rm : Reg) :
    CondField.Statement (.tstShiftImm c rn rd amount5 kind rm) :=
  cond_encodeDp ..

theorem CondField.tstShiftReg (c : Cond) (rn rd rs : Reg) (kind : ShiftKind) (rm : Reg) :
    CondField.Statement (.tstShiftReg c rn rd rs kind rm) :=
  cond_encodeDp ..

theorem CondField.teqImm (c : Cond) (rn rd : Reg) (rot : BitVec 4) (imm8 : BitVec 8) :
    CondField.Statement (.teqImm c rn rd rot imm8) :=
  cond_encodeDp ..

theorem CondField.teqShiftImm (c : Cond) (rn rd : Reg) (amount5 : BitVec 5) (kind : ShiftKind) (rm : Reg) :
    CondField.Statement (.teqShiftImm c rn rd amount5 kind rm) :=
  cond_encodeDp ..

theorem CondField.teqShiftReg (c : Cond) (rn rd rs : Reg) (kind : ShiftKind) (rm : Reg) :
    CondField.Statement (.teqShiftReg c rn rd rs kind rm) :=
  cond_encodeDp ..

theorem CondField.cmpImm (c : Cond) (rn rd : Reg) (rot : BitVec 4) (imm8 : BitVec 8) :
    CondField.Statement (.cmpImm c rn rd rot imm8) :=
  cond_encodeDp ..

theorem CondField.cmpShiftImm (c : Cond) (rn rd : Reg) (amount5 : BitVec 5) (kind : ShiftKind) (rm : Reg) :
    CondField.Statement (.cmpShiftImm c rn rd amount5 kind rm) :=
  cond_encodeDp ..

theorem CondField.cmpShiftReg (c : Cond) (rn rd rs : Reg) (kind : ShiftKind) (rm : Reg) :
    CondField.Statement (.cmpShiftReg c rn rd rs kind rm) :=
  cond_encodeDp ..

theorem CondField.cmnImm (c : Cond) (rn rd : Reg) (rot : BitVec 4) (imm8 : BitVec 8) :
    CondField.Statement (.cmnImm c rn rd rot imm8) :=
  cond_encodeDp ..

theorem CondField.cmnShiftImm (c : Cond) (rn rd : Reg) (amount5 : BitVec 5) (kind : ShiftKind) (rm : Reg) :
    CondField.Statement (.cmnShiftImm c rn rd amount5 kind rm) :=
  cond_encodeDp ..

theorem CondField.cmnShiftReg (c : Cond) (rn rd rs : Reg) (kind : ShiftKind) (rm : Reg) :
    CondField.Statement (.cmnShiftReg c rn rd rs kind rm) :=
  cond_encodeDp ..

theorem CondField.orrImm (c : Cond) (sb : Bool) (rn rd : Reg) (rot : BitVec 4) (imm8 : BitVec 8) :
    CondField.Statement (.orrImm c sb rn rd rot imm8) :=
  cond_encodeDp ..

theorem CondField.orrShiftImm (c : Cond) (sb : Bool) (rn rd : Reg) (amount5 : BitVec 5) (kind : ShiftKind) (rm : Reg) :
    CondField.Statement (.orrShiftImm c sb rn rd amount5 kind rm) :=
  cond_encodeDp ..

theorem CondField.orrShiftReg (c : Cond) (sb : Bool) (rn rd rs : Reg) (kind : ShiftKind) (rm : Reg) :
    CondField.Statement (.orrShiftReg c sb rn rd rs kind rm) :=
  cond_encodeDp ..

theorem CondField.movImm (c : Cond) (sb : Bool) (rn rd : Reg) (rot : BitVec 4) (imm8 : BitVec 8) :
    CondField.Statement (.movImm c sb rn rd rot imm8) :=
  cond_encodeDp ..

theorem CondField.movShiftImm (c : Cond) (sb : Bool) (rn rd : Reg) (amount5 : BitVec 5) (kind : ShiftKind) (rm : Reg) :
    CondField.Statement (.movShiftImm c sb rn rd amount5 kind rm) :=
  cond_encodeDp ..

theorem CondField.movShiftReg (c : Cond) (sb : Bool) (rn rd rs : Reg) (kind : ShiftKind) (rm : Reg) :
    CondField.Statement (.movShiftReg c sb rn rd rs kind rm) :=
  cond_encodeDp ..

theorem CondField.bicImm (c : Cond) (sb : Bool) (rn rd : Reg) (rot : BitVec 4) (imm8 : BitVec 8) :
    CondField.Statement (.bicImm c sb rn rd rot imm8) :=
  cond_encodeDp ..

theorem CondField.bicShiftImm (c : Cond) (sb : Bool) (rn rd : Reg) (amount5 : BitVec 5) (kind : ShiftKind) (rm : Reg) :
    CondField.Statement (.bicShiftImm c sb rn rd amount5 kind rm) :=
  cond_encodeDp ..

theorem CondField.bicShiftReg (c : Cond) (sb : Bool) (rn rd rs : Reg) (kind : ShiftKind) (rm : Reg) :
    CondField.Statement (.bicShiftReg c sb rn rd rs kind rm) :=
  cond_encodeDp ..

theorem CondField.mvnImm (c : Cond) (sb : Bool) (rn rd : Reg) (rot : BitVec 4) (imm8 : BitVec 8) :
    CondField.Statement (.mvnImm c sb rn rd rot imm8) :=
  cond_encodeDp ..

theorem CondField.mvnShiftImm (c : Cond) (sb : Bool) (rn rd : Reg) (amount5 : BitVec 5) (kind : ShiftKind) (rm : Reg) :
    CondField.Statement (.mvnShiftImm c sb rn rd amount5 kind rm) :=
  cond_encodeDp ..

theorem CondField.mvnShiftReg (c : Cond) (sb : Bool) (rn rd rs : Reg) (kind : ShiftKind) (rm : Reg) :
    CondField.Statement (.mvnShiftReg c sb rn rd rs kind rm) :=
  cond_encodeDp ..

theorem CondField.mrs (c : Cond) (ps : Bool) (rd : Reg) :
    CondField.Statement (.mrs c ps rd) := by
  unfold CondField.Statement bits encode Instr.cond
  simp (disch := decide) only [field_high, field_all, Nat.reduceSub]

theorem CondField.msrCpsr (c : Cond) (rm : Reg) :
    CondField.Statement (.msrCpsr c rm) :=
  cond_encodeMsrReg ..

theorem CondField.msrSpsr (c : Cond) (rm : Reg) :
    CondField.Statement (.msrSpsr c rm) :=
  cond_encodeMsrReg ..

theorem CondField.msrFlagsReg (c : Cond) (pd : Bool) (rm : Reg) :
    CondField.Statement (.msrFlagsReg c pd rm) :=
  cond_encodeMsrReg ..

theorem CondField.msrFlagsImm (c : Cond) (pd : Bool) (rot : BitVec 4) (imm8 : BitVec 8) :
    CondField.Statement (.msrFlagsImm c pd rot imm8) := by
  unfold CondField.Statement bits encode Instr.cond
  simp (disch := decide) only [field_high, field_all, Nat.reduceSub]

theorem CondField.mul (c : Cond) (sb : Bool) (rd rn rs rm : Reg) :
    CondField.Statement (.mul c sb rd rn rs rm) :=
  cond_encodeMultiply ..

theorem CondField.mla (c : Cond) (sb : Bool) (rd rn rs rm : Reg) :
    CondField.Statement (.mla c sb rd rn rs rm) :=
  cond_encodeMultiply ..

theorem CondField.umull (c : Cond) (sb : Bool) (rdHi rdLo rs rm : Reg) :
    CondField.Statement (.umull c sb rdHi rdLo rs rm) :=
  cond_encodeMultiplyLong ..

theorem CondField.umlal (c : Cond) (sb : Bool) (rdHi rdLo rs rm : Reg) :
    CondField.Statement (.umlal c sb rdHi rdLo rs rm) :=
  cond_encodeMultiplyLong ..

theorem CondField.smull (c : Cond) (sb : Bool) (rdHi rdLo rs rm : Reg) :
    CondField.Statement (.smull c sb rdHi rdLo rs rm) :=
  cond_encodeMultiplyLong ..

theorem CondField.smlal (c : Cond) (sb : Bool) (rdHi rdLo rs rm : Reg) :
    CondField.Statement (.smlal c sb rdHi rdLo rs rm) :=
  cond_encodeMultiplyLong ..

theorem CondField.swp (c : Cond) (rn rd rm : Reg) :
    CondField.Statement (.swp c rn rd rm) :=
  cond_encodeSwap ..

theorem CondField.swpb (c : Cond) (rn rd rm : Reg) :
    CondField.Statement (.swpb c rn rd rm) :=
  cond_encodeSwap ..

theorem CondField.bx (c : Cond) (rn : Reg) :
    CondField.Statement (.bx c rn) := by
  unfold CondField.Statement bits encode Instr.cond
  simp (disch := decide) only [field_high, field_all, Nat.reduceSub]

theorem CondField.strhReg (c : Cond) (p u w : Bool) (rn rd rm : Reg) :
    CondField.Statement (.strhReg c p u w rn rd rm) :=
  cond_encodeHalf ..

theorem CondField.strhImm (c : Cond) (p u w : Bool) (rn rd : Reg) (hi lo : BitVec 4) :
    CondField.Statement (.strhImm c p u w rn rd hi lo) :=
  cond_encodeHalf ..

theorem CondField.ldrhReg (c : Cond) (p u w : Bool) (rn rd rm : Reg) :
    CondField.Statement (.ldrhReg c p u w rn rd rm) :=
  cond_encodeHalf ..

theorem CondField.ldrhImm (c : Cond) (p u w : Bool) (rn rd : Reg) (hi lo : BitVec 4) :
    CondField.Statement (.ldrhImm c p u w rn rd hi lo) :=
  cond_encodeHalf ..

theorem CondField.ldrsbReg (c : Cond) (p u w : Bool) (rn rd rm : Reg) :
    CondField.Statement (.ldrsbReg c p u w rn rd rm) :=
  cond_encodeHalf ..

theorem CondField.ldrsbImm (c : Cond) (p u w : Bool) (rn rd : Reg) (hi lo : BitVec 4) :
    CondField.Statement (.ldrsbImm c p u w rn rd hi lo) :=
  cond_encodeHalf ..

theorem CondField.ldrshReg (c : Cond) (p u w : Bool) (rn rd rm : Reg) :
    CondField.Statement (.ldrshReg c p u w rn rd rm) :=
  cond_encodeHalf ..

theorem CondField.ldrshImm (c : Cond) (p u w : Bool) (rn rd : Reg) (hi lo : BitVec 4) :
    CondField.Statement (.ldrshImm c p u w rn rd hi lo) :=
  cond_encodeHalf ..

theorem CondField.strImm (c : Cond) (p u w : Bool) (rn rd : Reg) (offset12 : BitVec 12) :
    CondField.Statement (.strImm c p u w rn rd offset12) :=
  cond_encodeSingle ..

theorem CondField.strReg (c : Cond) (p u w : Bool) (rn rd : Reg) (amount5 : BitVec 5) (kind : ShiftKind) (rm : Reg) :
    CondField.Statement (.strReg c p u w rn rd amount5 kind rm) :=
  cond_encodeSingle ..

theorem CondField.ldrImm (c : Cond) (p u w : Bool) (rn rd : Reg) (offset12 : BitVec 12) :
    CondField.Statement (.ldrImm c p u w rn rd offset12) :=
  cond_encodeSingle ..

theorem CondField.ldrReg (c : Cond) (p u w : Bool) (rn rd : Reg) (amount5 : BitVec 5) (kind : ShiftKind) (rm : Reg) :
    CondField.Statement (.ldrReg c p u w rn rd amount5 kind rm) :=
  cond_encodeSingle ..

theorem CondField.strbImm (c : Cond) (p u w : Bool) (rn rd : Reg) (offset12 : BitVec 12) :
    CondField.Statement (.strbImm c p u w rn rd offset12) :=
  cond_encodeSingle ..

theorem CondField.strbReg (c : Cond) (p u w : Bool) (rn rd : Reg) (amount5 : BitVec 5) (kind : ShiftKind) (rm : Reg) :
    CondField.Statement (.strbReg c p u w rn rd amount5 kind rm) :=
  cond_encodeSingle ..

theorem CondField.ldrbImm (c : Cond) (p u w : Bool) (rn rd : Reg) (offset12 : BitVec 12) :
    CondField.Statement (.ldrbImm c p u w rn rd offset12) :=
  cond_encodeSingle ..

theorem CondField.ldrbReg (c : Cond) (p u w : Bool) (rn rd : Reg) (amount5 : BitVec 5) (kind : ShiftKind) (rm : Reg) :
    CondField.Statement (.ldrbReg c p u w rn rd amount5 kind rm) :=
  cond_encodeSingle ..

theorem CondField.stm (c : Cond) (p u sb w : Bool) (rn : Reg) (list : BitVec 16) :
    CondField.Statement (.stm c p u sb w rn list) :=
  cond_encodeBlock ..

theorem CondField.ldm (c : Cond) (p u sb w : Bool) (rn : Reg) (list : BitVec 16) :
    CondField.Statement (.ldm c p u sb w rn list) :=
  cond_encodeBlock ..

theorem CondField.b (c : Cond) (offset24 : BitVec 24) :
    CondField.Statement (.b c offset24) := by
  unfold CondField.Statement bits encode Instr.cond
  simp (disch := decide) only [field_high, field_all, Nat.reduceSub]

theorem CondField.bl (c : Cond) (offset24 : BitVec 24) :
    CondField.Statement (.bl c offset24) := by
  unfold CondField.Statement bits encode Instr.cond
  simp (disch := decide) only [field_high, field_all, Nat.reduceSub]

theorem CondField.stc (c : Cond) (p u n w : Bool) (rn : Reg) (crd cpNum : BitVec 4) (offset8 : BitVec 8) :
    CondField.Statement (.stc c p u n w rn crd cpNum offset8) :=
  cond_encodeCopTransfer ..

theorem CondField.ldc (c : Cond) (p u n w : Bool) (rn : Reg) (crd cpNum : BitVec 4) (offset8 : BitVec 8) :
    CondField.Statement (.ldc c p u n w rn crd cpNum offset8) :=
  cond_encodeCopTransfer ..

theorem CondField.cdp (c : Cond) (opc crn crd cpNum : BitVec 4) (cp : BitVec 3) (crm : BitVec 4) :
    CondField.Statement (.cdp c opc crn crd cpNum cp crm) := by
  unfold CondField.Statement bits encode Instr.cond
  simp (disch := decide) only [field_high, field_all, Nat.reduceSub]

theorem CondField.mcr (c : Cond) (opc : BitVec 3) (crn : BitVec 4) (rd : Reg) (cpNum : BitVec 4) (cp : BitVec 3) (crm : BitVec 4) :
    CondField.Statement (.mcr c opc crn rd cpNum cp crm) :=
  cond_encodeCopReg ..

theorem CondField.mrc (c : Cond) (opc : BitVec 3) (crn : BitVec 4) (rd : Reg) (cpNum : BitVec 4) (cp : BitVec 3) (crm : BitVec 4) :
    CondField.Statement (.mrc c opc crn rd cpNum cp crm) :=
  cond_encodeCopReg ..

theorem CondField.swi (c : Cond) (comment : BitVec 24) :
    CondField.Statement (.swi c comment) := by
  unfold CondField.Statement bits encode Instr.cond
  simp (disch := decide) only [field_high, field_all, Nat.reduceSub]

theorem CondField.undefined (c : Cond) (body : BitVec 28) :
    CondField.Statement (.undefined c body) := by
  unfold CondField.Statement bits encode Instr.cond
  simp (disch := decide) only [field_high, field_all, Nat.reduceSub]

end Sys2Proof.Laws
end

