-- ==== Sys2Proof/Tests/Slice0.lean ====
section
/-! SUPPORT. The model's own tests: words written out field by field from the format tables of
spec/30_encoding.md, a smoke test of `wellFormed`, one step of each instruction with the result
spec/95_test_vectors.md gives ("section" in a docstring is a section of that file), and for every obligation with
hypotheses a named state and operands that meet them (`witness_<obligation>`). -/

namespace Sys2Proof.Tests

open Sys2Proof.Machine

/-! ## Helpers -/

/-- A state at the fetch address of the spec's vectors, with a CPSR image and some registers. -/
def start (cpsr : Word) (rs : List (PhysReg × Word)) : State :=
  { State.reset with
    regs := rs.foldl (fun f q => f.set q.1 q.2) State.reset.regs
    cpsr := (Psr.toCpsr (Psr.ofImage cpsr)).getD State.reset.cpsr
    fetchAddr := 0x08000000 }

/-- Words put into memory. -/
def withWords (ws : List (Word × Word)) (s : State) : State := ws.foldl (fun t q => t.write32 q.1 q.2) s

/-- An SPSR put into a state. -/
def withSpsr (b : SpsrBank) (image : Word) (s : State) : State := { s with spsr := s.spsr.set b (Psr.ofImage image) }

/-- The next state of an outcome, if it has one. -/
def nextOf (o : Host.Outcome State Fault Refusal) : Option State :=
  match o with
  | .next t => some t
  | .fault _ => none
  | .refused _ => none

/-- One step on a word: some registers after it, the CPSR image and the next fetch address. -/
def regsAfter (w : Nat) (s : State) (ps : List PhysReg) : Option (List Word × Word × Word) :=
  (nextOf (step (s.withFetchWord 32 w))).map fun t => (ps.map t.regs.get, t.cpsrImage, t.fetchAddr)

/-- One step on a word: some words of memory after it. -/
def wordsAfter (w : Nat) (s : State) (as : List Word) : Option (List Word) :=
  (nextOf (step (s.withFetchWord 32 w))).map fun t => as.map t.read32

/-- What stops a step on a word. -/
def stopOf (w : Nat) (s : State) : Option (Fault ⊕ Refusal) :=
  match step (s.withFetchWord 32 w) with
  | .next _ => none
  | .fault f => some (.inl f)
  | .refused r => some (.inr r)

/-- Does an outcome go on? -/
def goesOn (o : Host.Outcome State Fault Refusal) : Bool := (nextOf o).isSome

theorem exists_next {o : Host.Outcome State Fault Refusal} (h : goesOn o = true) : ∃ t, o = .next t := by
  cases o with
  | next t => exact ⟨t, rfl⟩
  | fault f => cases h
  | refused r => cases h

/-! ## Well-formed and ill-formed terms: R105 -/

/-- R105 (a): the smallest and the last word of the architected undefined space; 0x06000000 is a load's word. -/
theorem test_wellFormed_architected :
    (Instr.undefined .al 0x6000010).wellFormed = true ∧ (Instr.undefined .al 0x7FFFFFF).wellFormed = true ∧
    (Instr.undefined .al 0x6000000).wellFormed = false := by
  decide

/-- R105 (b): a row of R120 with bits 6:5 = 00, a signed store, a register-offset transfer with bits 11:8 not 0; a
multiply's, a load's and a halfword store's words are not undefined. -/
theorem test_wellFormed_extension :
    (Instr.undefined .al 0x0400090).wellFormed = true ∧ (Instr.undefined .al 0x1C000D0).wellFormed = true ∧
    (Instr.undefined .al 0x19101B2).wellFormed = true ∧ (Instr.undefined .al 0x0000291).wellFormed = false ∧
    (Instr.undefined .al 0x1D100D4).wellFormed = false ∧ (Instr.undefined .al 0x1C100B2).wellFormed = false := by
  decide

/-- R105 (c): MRS with a bit set that must be 0; the MRS, MSR and BX words are not undefined. -/
theorem test_wellFormed_psr :
    (Instr.undefined .al 0x10F0001).wellFormed = true ∧ (Instr.undefined .al 0x329F000).wellFormed = true ∧
    (Instr.undefined .al 0x10F0000).wellFormed = false ∧ (Instr.undefined .al 0x129F000).wellFormed = false ∧
    (Instr.undefined .al 0x328F20F).wellFormed = false ∧ (Instr.undefined .al 0x12FFF10).wellFormed = false := by
  decide

/-- Fewer than four bytes are rejected by name; the bytes of a word are read lowest first (R64). -/
theorem test_decode_bytes :
    decode [0x03, 0x20, 0x81] = .error .truncated ∧
    decode [0x03, 0x20, 0x81, 0xE0, 0xFF] = .ok (.addShiftImm .al false 1 2 0 .lsl 3, [0xFF]) := by
  decide

/-! ## Decoding -/

/-- R94 to R96: AND, EOR, ORR, BIC, MOV, MVN. -/
theorem test_decode_logical_imm :
    decodeWord 0b1110_00_1_0000_1_0001_0010_0110_10011010#32 = .andImm .al true 1 2 6 0x9A ∧
    decodeWord 0b1110_00_1_0001_0_0001_0010_0110_10011010#32 = .eorImm .al false 1 2 6 0x9A ∧
    decodeWord 0b1110_00_1_1100_1_0001_0010_0110_10011010#32 = .orrImm .al true 1 2 6 0x9A ∧
    decodeWord 0b1110_00_1_1110_1_0001_0010_0110_10011010#32 = .bicImm .al true 1 2 6 0x9A ∧
    decodeWord 0b1110_00_1_1101_0_0001_0010_0110_10011010#32 = .movImm .al false 1 2 6 0x9A ∧
    decodeWord 0b1110_00_1_1111_0_0001_0010_0110_10011010#32 = .mvnImm .al false 1 2 6 0x9A := by
  decide

/-- R94 to R96: AND, EOR, ORR, BIC, MOV, MVN. -/
theorem test_decode_logical_shiftimm :
    decodeWord 0b0001_00_0_0000_1_0011_0101_10011_00_0_1001#32 = .andShiftImm .ne true 3 5 19 .lsl 9 ∧
    decodeWord 0b0001_00_0_0001_0_0011_0101_10011_01_0_1001#32 = .eorShiftImm .ne false 3 5 19 .lsr 9 ∧
    decodeWord 0b0001_00_0_1100_1_0011_0101_10011_00_0_1001#32 = .orrShiftImm .ne true 3 5 19 .lsl 9 ∧
    decodeWord 0b0001_00_0_1110_1_0011_0101_10011_10_0_1001#32 = .bicShiftImm .ne true 3 5 19 .asr 9 ∧
    decodeWord 0b0001_00_0_1101_0_0011_0101_10011_01_0_1001#32 = .movShiftImm .ne false 3 5 19 .lsr 9 ∧
    decodeWord 0b0001_00_0_1111_0_0011_0101_10011_11_0_1001#32 = .mvnShiftImm .ne false 3 5 19 .ror 9 := by
  decide

/-- R94 to R96: AND, EOR, ORR, BIC, MOV, MVN. -/
theorem test_decode_logical_shiftreg :
    decodeWord 0b1110_00_0_0000_1_0110_1010_1100_0_01_1_0111#32 = .andShiftReg .al true 6 10 12 .lsr 7 ∧
    decodeWord 0b1110_00_0_0001_0_0110_1010_1100_0_10_1_0111#32 = .eorShiftReg .al false 6 10 12 .asr 7 ∧
    decodeWord 0b1110_00_0_1100_1_0110_1010_1100_0_01_1_0111#32 = .orrShiftReg .al true 6 10 12 .lsr 7 ∧
    decodeWord 0b1110_00_0_1110_1_0110_1010_1100_0_11_1_0111#32 = .bicShiftReg .al true 6 10 12 .ror 7 ∧
    decodeWord 0b1110_00_0_1101_0_0110_1010_1100_0_10_1_0111#32 = .movShiftReg .al false 6 10 12 .asr 7 ∧
    decodeWord 0b1110_00_0_1111_0_0110_1010_1100_0_00_1_0111#32 = .mvnShiftReg .al false 6 10 12 .lsl 7 := by
  decide

/-- R94 to R96: SUB, RSB, ADD, ADC, SBC, RSC. -/
theorem test_decode_arithmetic_imm :
    decodeWord 0b1110_00_1_0010_1_0001_0010_0110_10011010#32 = .subImm .al true 1 2 6 0x9A ∧
    decodeWord 0b1110_00_1_0011_0_0001_0010_0110_10011010#32 = .rsbImm .al false 1 2 6 0x9A ∧
    decodeWord 0b1110_00_1_0100_1_0001_0010_0110_10011010#32 = .addImm .al true 1 2 6 0x9A ∧
    decodeWord 0b1110_00_1_0101_0_0001_0010_0110_10011010#32 = .adcImm .al false 1 2 6 0x9A ∧
    decodeWord 0b1110_00_1_0110_1_0001_0010_0110_10011010#32 = .sbcImm .al true 1 2 6 0x9A ∧
    decodeWord 0b1110_00_1_0111_0_0001_0010_0110_10011010#32 = .rscImm .al false 1 2 6 0x9A := by
  decide

/-- R94 to R96: SUB, RSB, ADD, ADC, SBC, RSC. -/
theorem test_decode_arithmetic_shiftimm :
    decodeWord 0b0001_00_0_0010_1_0011_0101_10011_10_0_1001#32 = .subShiftImm .ne true 3 5 19 .asr 9 ∧
    decodeWord 0b0001_00_0_0011_0_0011_0101_10011_11_0_1001#32 = .rsbShiftImm .ne false 3 5 19 .ror 9 ∧
    decodeWord 0b0001_00_0_0100_1_0011_0101_10011_00_0_1001#32 = .addShiftImm .ne true 3 5 19 .lsl 9 ∧
    decodeWord 0b0001_00_0_0101_0_0011_0101_10011_01_0_1001#32 = .adcShiftImm .ne false 3 5 19 .lsr 9 ∧
    decodeWord 0b0001_00_0_0110_1_0011_0101_10011_10_0_1001#32 = .sbcShiftImm .ne true 3 5 19 .asr 9 ∧
    decodeWord 0b0001_00_0_0111_0_0011_0101_10011_11_0_1001#32 = .rscShiftImm .ne false 3 5 19 .ror 9 := by
  decide

/-- R94 to R96: SUB, RSB, ADD, ADC, SBC, RSC. -/
theorem test_decode_arithmetic_shiftreg :
    decodeWord 0b1110_00_0_0010_1_0110_1010_1100_0_11_1_0111#32 = .subShiftReg .al true 6 10 12 .ror 7 ∧
    decodeWord 0b1110_00_0_0011_0_0110_1010_1100_0_00_1_0111#32 = .rsbShiftReg .al false 6 10 12 .lsl 7 ∧
    decodeWord 0b1110_00_0_0100_1_0110_1010_1100_0_01_1_0111#32 = .addShiftReg .al true 6 10 12 .lsr 7 ∧
    decodeWord 0b1110_00_0_0101_0_0110_1010_1100_0_10_1_0111#32 = .adcShiftReg .al false 6 10 12 .asr 7 ∧
    decodeWord 0b1110_00_0_0110_1_0110_1010_1100_0_11_1_0111#32 = .sbcShiftReg .al true 6 10 12 .ror 7 ∧
    decodeWord 0b1110_00_0_0111_0_0110_1010_1100_0_00_1_0111#32 = .rscShiftReg .al false 6 10 12 .lsl 7 := by
  decide

/-- R94 to R96: TST, TEQ, CMP, CMN, with an Rd field that is not 0. -/
theorem test_decode_compares_imm :
    decodeWord 0b1110_00_1_1000_1_0001_0010_0110_10011010#32 = .tstImm .al 1 2 6 0x9A ∧
    decodeWord 0b1110_00_1_1001_1_0001_0010_0110_10011010#32 = .teqImm .al 1 2 6 0x9A ∧
    decodeWord 0b1110_00_1_1010_1_0001_0010_0110_10011010#32 = .cmpImm .al 1 2 6 0x9A ∧
    decodeWord 0b1110_00_1_1011_1_0001_0010_0110_10011010#32 = .cmnImm .al 1 2 6 0x9A := by
  decide

/-- R94 to R96: TST, TEQ, CMP, CMN, with an Rd field that is not 0. -/
theorem test_decode_compares_shiftimm :
    decodeWord 0b0001_00_0_1000_1_0011_0101_10011_00_0_1001#32 = .tstShiftImm .ne 3 5 19 .lsl 9 ∧
    decodeWord 0b0001_00_0_1001_1_0011_0101_10011_01_0_1001#32 = .teqShiftImm .ne 3 5 19 .lsr 9 ∧
    decodeWord 0b0001_00_0_1010_1_0011_0101_10011_10_0_1001#32 = .cmpShiftImm .ne 3 5 19 .asr 9 ∧
    decodeWord 0b0001_00_0_1011_1_0011_0101_10011_11_0_1001#32 = .cmnShiftImm .ne 3 5 19 .ror 9 := by
  decide

/-- R94 to R96: TST, TEQ, CMP, CMN, with an Rd field that is not 0. -/
theorem test_decode_compares_shiftreg :
    decodeWord 0b1110_00_0_1000_1_0110_1010_1100_0_01_1_0111#32 = .tstShiftReg .al 6 10 12 .lsr 7 ∧
    decodeWord 0b1110_00_0_1001_1_0110_1010_1100_0_10_1_0111#32 = .teqShiftReg .al 6 10 12 .asr 7 ∧
    decodeWord 0b1110_00_0_1010_1_0110_1010_1100_0_11_1_0111#32 = .cmpShiftReg .al 6 10 12 .ror 7 ∧
    decodeWord 0b1110_00_0_1011_1_0110_1010_1100_0_00_1_0111#32 = .cmnShiftReg .al 6 10 12 .lsl 7 := by
  decide

/-- R97. -/
theorem test_decode_psr :
    decodeWord 0b1110_00010_1_001111_0101_000000000000#32 = .mrs .al true 5 ∧
    decodeWord 0b1110_00010_0_101001_1111_00000000_0110#32 = .msrCpsr .al 6 ∧
    decodeWord 0b1110_00010_1_101001_1111_00000000_1001#32 = .msrSpsr .al 9 ∧
    decodeWord 0b0001_00010_1_101000_1111_00000000_0011#32 = .msrFlagsReg .ne true 3 ∧
    decodeWord 0b1110_00110_1_101000_1111_0100_10100101#32 = .msrFlagsImm .al true 4 0xA5 := by
  decide

/-- R98, R99. -/
theorem test_decode_multiply :
    decodeWord 0b1110_000000_0_1_0001_0100_0011_1001_0010#32 = .mul .al true 1 4 3 2 ∧
    decodeWord 0b1110_000000_1_0_0110_0101_1001_1001_1010#32 = .mla .al false 6 5 9 10 ∧
    decodeWord 0b1110_00001_0_0_1_0010_0001_0100_1001_0011#32 = .umull .al true 2 1 4 3 ∧
    decodeWord 0b1110_00001_0_1_0_0010_0001_0100_1001_0011#32 = .umlal .al false 2 1 4 3 ∧
    decodeWord 0b1110_00001_1_0_0_0010_0001_0100_1001_0011#32 = .smull .al false 2 1 4 3 ∧
    decodeWord 0b1110_00001_1_1_1_0010_0001_0100_1001_0011#32 = .smlal .al true 2 1 4 3 := by
  decide

/-- R100, R101. -/
theorem test_decode_swap_bx :
    decodeWord 0b1110_00010_0_00_0001_0110_0000_1001_0011#32 = .swp .al 1 6 3 ∧
    decodeWord 0b1110_00010_1_00_1100_0110_0000_1001_1001#32 = .swpb .al 12 6 9 ∧
    decodeWord 0b0001_000100101111111111110001_1110#32 = .bx .ne 14 := by
  decide

/-- R102, R103. -/
theorem test_decode_half :
    decodeWord 0b1110_000_1_0_0_1_0_0001_0110_0000_1_01_1_0011#32 = .strhReg .al true false true 1 6 3 ∧
    decodeWord 0b1110_000_1_0_1_1_0_0010_0101_1100_1_01_1_1010#32 = .strhImm .al true false true 2 5 12 10 ∧
    decodeWord 0b1110_000_1_1_0_0_1_0001_0110_0000_1_01_1_0011#32 = .ldrhReg .al true true false 1 6 3 ∧
    decodeWord 0b1110_000_1_1_1_0_1_0010_0101_1100_1_01_1_1010#32 = .ldrhImm .al true true false 2 5 12 10 ∧
    decodeWord 0b1110_000_0_1_0_0_1_0001_0110_0000_1_10_1_0011#32 = .ldrsbReg .al false true false 1 6 3 ∧
    decodeWord 0b1110_000_0_1_1_0_1_0010_0101_1100_1_10_1_1010#32 = .ldrsbImm .al false true false 2 5 12 10 ∧
    decodeWord 0b1110_000_0_0_0_1_1_0001_0110_0000_1_11_1_0011#32 = .ldrshReg .al false false true 1 6 3 ∧
    decodeWord 0b1110_000_0_0_1_1_1_0010_0101_1100_1_11_1_1010#32 = .ldrshImm .al false false true 2 5 12 10 := by
  decide

/-- R104. -/
theorem test_decode_single :
    decodeWord 0b1110_01_0_1_0_0_1_0_0001_0110_101010111100#32 = .strImm .al true false true 1 6 0xABC ∧
    decodeWord 0b0001_01_1_1_0_0_1_0_0010_0101_10101_10_0_1011#32 = .strReg .ne true false true 2 5 21 .asr 11 ∧
    decodeWord 0b1110_01_0_0_1_0_1_1_0001_0110_101010111100#32 = .ldrImm .al false true true 1 6 0xABC ∧
    decodeWord 0b0001_01_1_0_1_0_1_1_0010_0101_10101_10_0_1011#32 = .ldrReg .ne false true true 2 5 21 .asr 11 ∧
    decodeWord 0b1110_01_0_1_1_1_0_0_0001_0110_101010111100#32 = .strbImm .al true true false 1 6 0xABC ∧
    decodeWord 0b0001_01_1_1_1_1_0_0_0010_0101_10101_10_0_1011#32 = .strbReg .ne true true false 2 5 21 .asr 11 ∧
    decodeWord 0b1110_01_0_0_0_1_0_1_0001_0110_101010111100#32 = .ldrbImm .al false false false 1 6 0xABC ∧
    decodeWord 0b0001_01_1_0_0_1_0_1_0010_0101_10101_10_0_1011#32 = .ldrbReg .ne false false false 2 5 21 .asr 11 := by
  decide

/-- R106, R107. -/
theorem test_decode_block_branch :
    decodeWord 0b1110_100_1_0_0_1_0_1101_0100000000000011#32 = .stm .al true false false true 13 0x4003 ∧
    decodeWord 0b1110_100_0_1_1_0_1_0111_1000000001000001#32 = .ldm .al false true true false 7 0x8041 ∧
    decodeWord 0b0001_101_0_101010111100110111101111#32 = .b .ne 0xABCDEF ∧
    decodeWord 0b1110_101_1_000000000000000000010000#32 = .bl .al 0x000010 := by
  decide

/-- R108 to R111. -/
theorem test_decode_coprocessor_swi :
    decodeWord 0b1110_110_1_0_1_0_0_0001_0110_0011_10011010#32 = .stc .al true false true false 1 6 3 0x9A ∧
    decodeWord 0b1110_110_0_1_0_1_1_0010_0101_1100_11000111#32 = .ldc .al false true false true 2 5 12 0xC7 ∧
    decodeWord 0b1110_1110_1001_0100_0011_0001_110_0_0101#32 = .cdp .al 9 4 3 1 6 5 ∧
    decodeWord 0b1110_1110_101_0_0001_0010_1111_011_1_1100#32 = .mcr .al 5 1 2 15 3 12 ∧
    decodeWord 0b1110_1110_011_1_0110_1001_1110_001_1_1010#32 = .mrc .al 3 6 9 14 1 10 ∧
    decodeWord 0b0001_1111_000100100011010001010110#32 = .swi .ne 0x123456 := by
  decide

/-- 95_test_vectors.md section 3, every row. -/
theorem test_decode_undefined :
    decodeWord 0xE7F000F0#32 = .undefined .al 0x7F000F0 ∧
    decodeWord 0xE6000010#32 = .undefined .al 0x6000010 ∧
    decodeWord 0xE0400090#32 = .undefined .al 0x0400090 ∧
    decodeWord 0xE1800090#32 = .undefined .al 0x1800090 ∧
    decodeWord 0xE1200090#32 = .undefined .al 0x1200090 ∧
    decodeWord 0xE1000190#32 = .undefined .al 0x1000190 ∧
    decodeWord 0xE1C000D0#32 = .undefined .al 0x1C000D0 ∧
    decodeWord 0xE1C000F0#32 = .undefined .al 0x1C000F0 ∧
    decodeWord 0xE19101B2#32 = .undefined .al 0x19101B2 ∧
    decodeWord 0xE10F0001#32 = .undefined .al 0x10F0001 ∧
    decodeWord 0xE10E0000#32 = .undefined .al 0x10E0000 ∧
    decodeWord 0xE121F000#32 = .undefined .al 0x121F000 ∧
    decodeWord 0xE12FF000#32 = .undefined .al 0x12FF000 ∧
    decodeWord 0xE129F010#32 = .undefined .al 0x129F010 ∧
    decodeWord 0xE1290000#32 = .undefined .al 0x1290000 ∧
    decodeWord 0xE329F000#32 = .undefined .al 0x329F000 ∧
    decodeWord 0xE3200000#32 = .undefined .al 0x3200000 ∧
    decodeWord 0xE1000000#32 = .undefined .al 0x1000000 ∧
    decodeWord 0xE1600010#32 = .undefined .al 0x1600010 ∧
    decodeWord 0xE12FFF30#32 = .undefined .al 0x12FFF30 ∧
    decodeWord 0xE1200070#32 = .undefined .al 0x1200070 ∧
    decodeWord 0xE16F0F10#32 = .undefined .al 0x16F0F10 := by
  decide

/-! ## One step -/

/-- Section 5.1. -/
theorem test_and :
    regsAfter 0xE0110002 (start 0x300000D3 [(.usr 1, 0x0000FFFF), (.usr 2, 0xFFFF0000)]) [.usr 0] = some ([0x00000000], 0x700000D3, 0x08000004) := by
  decide

/-- Section 5.1. -/
theorem test_eor :
    regsAfter 0xE0310001 (start 0x900000D3 [(.usr 1, 0x12345678)]) [.usr 0] = some ([0x00000000], 0x500000D3, 0x08000004) := by
  decide

/-- Section 5.2: R0 XOR (1 :: R0 >> 1). -/
theorem test_eor_rrx :
    regsAfter 0xE0200060 (start 0x200000D3 [(.usr 0, 0x00000002)]) [.usr 0] = some ([0x80000003], 0x200000D3, 0x08000004) := by
  decide

/-- Section 5.1. -/
theorem test_sub_no_borrow :
    regsAfter 0xE0510002 (start 0x000000D3 [(.usr 1, 0x00000005), (.usr 2, 0x00000005)]) [.usr 0] = some ([0x00000000], 0x600000D3, 0x08000004) := by
  decide

/-- Section 5.1. -/
theorem test_sub_overflow :
    regsAfter 0xE0510002 (start 0x000000D3 [(.usr 1, 0x80000000), (.usr 2, 0x00000001)]) [.usr 0] = some ([0x7FFFFFFF], 0x300000D3, 0x08000004) := by
  decide

/-- Section 5.1: negating the most negative number overflows. -/
theorem test_rsb :
    regsAfter 0xE2710000 (start 0x000000D3 [(.usr 1, 0x80000000)]) [.usr 0] = some ([0x80000000], 0x900000D3, 0x08000004) := by
  decide

/-- Section 1.1, the document's own example. -/
theorem test_add_overflow :
    regsAfter 0xE0910002 (start 0x000000D3 [(.usr 1, 0x7FFFFFFF), (.usr 2, 0x00000001)]) [.usr 0] = some ([0x80000000], 0x900000D3, 0x08000004) := by
  decide

/-- Section 5.2: an arithmetic operation drops the shifter's carry. -/
theorem test_add_shifter_carry_dropped :
    regsAfter 0xE09100A2 (start 0x000000D3 [(.usr 1, 0x00000000), (.usr 2, 0x00000003)]) [.usr 0] = some ([0x00000001], 0x000000D3, 0x08000004) := by
  decide

/-- Section 5.1. -/
theorem test_adc :
    regsAfter 0xE0B10002 (start 0x200000D3 [(.usr 1, 0xFFFFFFFF), (.usr 2, 0xFFFFFFFF)]) [.usr 0] = some ([0xFFFFFFFF], 0xA00000D3, 0x08000004) := by
  decide

/-- Section 5.1: C = 0 borrows. -/
theorem test_sbc :
    regsAfter 0xE0D10002 (start 0x000000D3 [(.usr 1, 0x00000005), (.usr 2, 0x00000005)]) [.usr 0] = some ([0xFFFFFFFF], 0x800000D3, 0x08000004) := by
  decide

/-- Section 5.1. -/
theorem test_rsc :
    regsAfter 0xE0F10002 (start 0x200000D3 [(.usr 1, 0x00000001), (.usr 2, 0x80000000)]) [.usr 0] = some ([0x7FFFFFFF], 0x300000D3, 0x08000004) := by
  decide

/-- Section 5.1: the shifter's carry goes to C. -/
theorem test_tst :
    regsAfter 0xE11100A2 (start 0x000000D3 [(.usr 1, 0x00000001), (.usr 2, 0x00000003)]) [.usr 0] = some ([0x00000000], 0x200000D3, 0x08000004) := by
  decide

/-- Section 5.1: V is kept. -/
theorem test_teq :
    regsAfter 0xE1310002 (start 0x300000D3 [(.usr 1, 0x80000000), (.usr 2, 0x00000000)]) [.usr 0] = some ([0x00000000], 0xB00000D3, 0x08000004) := by
  decide

/-- Section 5.1. -/
theorem test_cmp :
    regsAfter 0xE1510002 (start 0x000000D3 [(.usr 1, 0x80000000), (.usr 2, 0x7FFFFFFF)]) [.usr 0] = some ([0x00000000], 0x300000D3, 0x08000004) := by
  decide

/-- Section 5.1. -/
theorem test_cmn :
    regsAfter 0xE1710002 (start 0x000000D3 [(.usr 1, 0x7FFFFFFF), (.usr 2, 0x00000001)]) [.usr 0] = some ([0x00000000], 0x900000D3, 0x08000004) := by
  decide

/-- Section 5.1. -/
theorem test_orr :
    regsAfter 0xE1910002 (start 0x000000D3 [(.usr 1, 0x80000000), (.usr 2, 0x00000001)]) [.usr 0] = some ([0x80000001], 0x800000D3, 0x08000004) := by
  decide

/-- Section 4: a register amount of 36 rotates by 4. -/
theorem test_mov_ror_register :
    regsAfter 0xE1B00271 (start 0x000000D3 [(.usr 1, 0x12345678), (.usr 2, 0x00000024)]) [.usr 0] = some ([0x81234567], 0xA00000D3, 0x08000004) := by
  decide

/-- Section 5.3: R15 is not aligned, the fetch is. -/
theorem test_mov_to_pc :
    regsAfter 0xE1A0F00E (start 0x000000D3 [(.svc 1, 0x08000123)]) [.usr 15] = some ([0x08000123], 0x000000D3, 0x08000120) := by
  decide

/-- Section 5.1. -/
theorem test_bic :
    regsAfter 0xE1D10002 (start 0x000000D3 [(.usr 1, 0xFFFFFFFF), (.usr 2, 0x0000FFFF)]) [.usr 0] = some ([0xFFFF0000], 0x800000D3, 0x08000004) := by
  decide

/-- Section 5.1. -/
theorem test_mvn :
    regsAfter 0xE1F00001 (start 0x000000D3 [(.usr 1, 0xFFFFFFFF)]) [.usr 0] = some ([0x00000000], 0x400000D3, 0x08000004) := by
  decide

/-- Section 5.4: FIQ mode writes R8_fiq. -/
theorem test_mov_fiq_bank :
    regsAfter 0xE1A08001 (start 0x000000D1 [(.usr 1, 0x11111111)]) [.fiq 0, .usr 8] = some ([0x11111111, 0x00000000], 0x000000D1, 0x08000004) := by
  decide

/-- Section 6. -/
theorem test_mrs :
    regsAfter 0xE10F0000 (start 0xF0000010 []) [.usr 0] = some ([0xF0000010], 0xF0000010, 0x08000004) := by
  decide

/-- Section 6: bits 27:8 are dropped, T becomes 1. -/
theorem test_msr_cpsr :
    regsAfter 0xE129F000 (start 0x000000D3 [(.usr 0, 0xFFFFFFFF)]) [.usr 0] = some ([0xFFFFFFFF], 0xF00000FF, 0x08000004) := by
  decide

/-- Section 6: USR mode writes the flags only. -/
theorem test_msr_cpsr_user :
    regsAfter 0xE129F000 (start 0x00000010 [(.usr 0, 0xF00000D3)]) [.usr 0] = some ([0xF00000D3], 0xF0000010, 0x08000004) := by
  decide

/-- Section 6. -/
theorem test_msr_flags_imm :
    regsAfter 0xE328F202 (start 0xF00000D3 []) [.usr 0] = some ([0x00000000], 0x200000D3, 0x08000004) := by
  decide

/-- Section 7: the largest backward offset. -/
theorem test_b :
    regsAfter 0xEA800000 (start 0x000000D3 []) [.usr 15] = some ([0x06000008], 0x000000D3, 0x06000008) := by
  decide

/-- Section 7: USR mode writes the user-bank R14. -/
theorem test_bl :
    regsAfter 0xEB00007E (start 0x00000010 []) [.usr 14, .usr 15, .svc 1] = some ([0x08000004, 0x08000200, 0x00000000], 0x00000010, 0x08000200) := by
  decide

/-- Section 7: T is set. -/
theorem test_bx :
    regsAfter 0xE12FFF10 (start 0x000000D3 [(.usr 0, 0x08000201)]) [.usr 15] = some ([0x08000200], 0x000000F3, 0x08000200) := by
  decide

/-- Section 7: bit 1 is kept in R15. -/
theorem test_bx_bit1 :
    regsAfter 0xE12FFF10 (start 0x000000D3 [(.usr 0, 0x08000202)]) [.usr 15] = some ([0x08000202], 0x000000D3, 0x08000200) := by
  decide

/-- Section 7: R14 is not written when the condition fails. -/
theorem test_condition_fails :
    regsAfter 0x1B00007E (start 0x400000D3 []) [.svc 1, .usr 15] = some ([0x00000000, 0x08000008], 0x400000D3, 0x08000004) := by
  decide

/-- Section 8. -/
theorem test_mul :
    regsAfter 0xE0000291 (start 0x000000D3 [(.usr 1, 0xFFFFFFFF), (.usr 2, 0xFFFFFFFF)]) [.usr 0] = some ([0x00000001], 0x000000D3, 0x08000004) := by
  decide

/-- Section 8. -/
theorem test_mla :
    regsAfter 0xE0203291 (start 0x000000D3 [(.usr 1, 0x00000007), (.usr 2, 0x00000006), (.usr 3, 0x00000064)]) [.usr 0] = some ([0x0000008E], 0x000000D3, 0x08000004) := by
  decide

/-- Section 8. -/
theorem test_umull :
    regsAfter 0xE0810392 (start 0x000000D3 [(.usr 2, 0xFFFFFFFF), (.usr 3, 0xFFFFFFFF)]) [.usr 0, .usr 1] = some ([0x00000001, 0xFFFFFFFE], 0x000000D3, 0x08000004) := by
  decide

/-- Section 8. -/
theorem test_umlal :
    regsAfter 0xE0A10392 (start 0x000000D3 [(.usr 0, 0xFFFFFFFF), (.usr 1, 0x00000000), (.usr 2, 0x00000001), (.usr 3, 0x00000001)]) [.usr 0, .usr 1] = some ([0x00000000, 0x00000001], 0x000000D3, 0x08000004) := by
  decide

/-- Section 8. -/
theorem test_smull :
    regsAfter 0xE0C10392 (start 0x000000D3 [(.usr 2, 0xFFFFFFFE), (.usr 3, 0x00000003)]) [.usr 0, .usr 1] = some ([0xFFFFFFFA, 0xFFFFFFFF], 0x000000D3, 0x08000004) := by
  decide

/-- Section 8. -/
theorem test_smlal :
    regsAfter 0xE0E10392 (start 0x000000D3 [(.usr 0, 0x00000000), (.usr 1, 0x80000000), (.usr 2, 0xFFFFFFFF), (.usr 3, 0x00000001)]) [.usr 0, .usr 1] = some ([0xFFFFFFFF, 0x7FFFFFFF], 0x000000D3, 0x08000004) := by
  decide

/-- Section 9.1. -/
theorem test_ldr_rotated :
    regsAfter 0xE5910003 (withWords [(0x03000000, 0x11223344), (0x03000004, 0xAABBCCDD), (0x03000008, 0x8899EEFF)] (start 0x000000D3 [(.usr 1, 0x03000000)])) [.usr 0] = some ([0x22334411], 0x000000D3, 0x08000004) := by
  decide

/-- Section 9.1. -/
theorem test_ldr_pre_index :
    regsAfter 0xE5B10004 (withWords [(0x03000000, 0x11223344), (0x03000004, 0xAABBCCDD), (0x03000008, 0x8899EEFF)] (start 0x000000D3 [(.usr 1, 0x03000000)])) [.usr 0, .usr 1] = some ([0xAABBCCDD, 0x03000004], 0x000000D3, 0x08000004) := by
  decide

/-- Section 9.1: RRX of 8 with C = 0. -/
theorem test_ldr_register_offset :
    regsAfter 0xE7910062 (withWords [(0x03000000, 0x11223344), (0x03000004, 0xAABBCCDD), (0x03000008, 0x8899EEFF)] (start 0x000000D3 [(.usr 1, 0x03000000), (.usr 2, 0x00000008)])) [.usr 0] = some ([0xAABBCCDD], 0x000000D3, 0x08000004) := by
  decide

/-- Section 9.1. -/
theorem test_str_post_index :
    regsAfter 0xE4810004 (withWords [(0x03000000, 0x11223344), (0x03000004, 0xAABBCCDD), (0x03000008, 0x8899EEFF)] (start 0x000000D3 [(.usr 0, 0xCAFEF00D), (.usr 1, 0x03000000)])) [.usr 1] = some ([0x03000004], 0x000000D3, 0x08000004) ∧
    wordsAfter 0xE4810004 (withWords [(0x03000000, 0x11223344), (0x03000004, 0xAABBCCDD), (0x03000008, 0x8899EEFF)] (start 0x000000D3 [(.usr 0, 0xCAFEF00D), (.usr 1, 0x03000000)])) [0x03000000, 0x03000004] = some [0xCAFEF00D, 0xAABBCCDD] := by
  decide

/-- Section 9.1: R15 is stored plus 4. -/
theorem test_str_pc :
    regsAfter 0xE581F000 (withWords [(0x03000000, 0x11223344), (0x03000004, 0xAABBCCDD), (0x03000008, 0x8899EEFF)] (start 0x000000D3 [(.usr 1, 0x03000000)])) [.usr 1] = some ([0x03000000], 0x000000D3, 0x08000004) ∧
    wordsAfter 0xE581F000 (withWords [(0x03000000, 0x11223344), (0x03000004, 0xAABBCCDD), (0x03000008, 0x8899EEFF)] (start 0x000000D3 [(.usr 1, 0x03000000)])) [0x03000000] = some [0x0800000C] := by
  decide

/-- Section 9.1. -/
theorem test_ldrb :
    regsAfter 0xE5D10007 (withWords [(0x03000000, 0x11223344), (0x03000004, 0xAABBCCDD), (0x03000008, 0x8899EEFF)] (start 0x000000D3 [(.usr 1, 0x03000000)])) [.usr 0] = some ([0x000000AA], 0x000000D3, 0x08000004) := by
  decide

/-- Section 9.1. -/
theorem test_strb :
    regsAfter 0xE5E10003 (withWords [(0x03000000, 0x11223344), (0x03000004, 0xAABBCCDD), (0x03000008, 0x8899EEFF)] (start 0x000000D3 [(.usr 0, 0x00000100), (.usr 1, 0x03000000)])) [.usr 1] = some ([0x03000003], 0x000000D3, 0x08000004) ∧
    wordsAfter 0xE5E10003 (withWords [(0x03000000, 0x11223344), (0x03000004, 0xAABBCCDD), (0x03000008, 0x8899EEFF)] (start 0x000000D3 [(.usr 0, 0x00000100), (.usr 1, 0x03000000)])) [0x03000000] = some [0x00223344] := by
  decide

/-- Section 9.2. -/
theorem test_ldrh :
    regsAfter 0xE1F101B2 (withWords [(0x03000000, 0x11223344), (0x03000004, 0xAABBCCDD), (0x03000008, 0x8899EEFF)] (start 0x000000D3 [(.usr 1, 0x02FFFFF2)])) [.usr 0, .usr 1] = some ([0x0000CCDD, 0x03000004], 0x000000D3, 0x08000004) := by
  decide

/-- Section 9.2. -/
theorem test_ldrh_register :
    regsAfter 0xE11100B2 (withWords [(0x03000000, 0x11223344), (0x03000004, 0xAABBCCDD), (0x03000008, 0x8899EEFF)] (start 0x000000D3 [(.usr 1, 0x03000008), (.usr 2, 0x00000002)])) [.usr 0] = some ([0x0000AABB], 0x000000D3, 0x08000004) := by
  decide

/-- Section 9.2. -/
theorem test_strh :
    regsAfter 0xE1C100B2 (withWords [(0x03000000, 0x11223344), (0x03000004, 0xAABBCCDD), (0x03000008, 0x8899EEFF)] (start 0x000000D3 [(.usr 0, 0x1234BEEF), (.usr 1, 0x03000000)])) [.usr 1] = some ([0x03000000], 0x000000D3, 0x08000004) ∧
    wordsAfter 0xE1C100B2 (withWords [(0x03000000, 0x11223344), (0x03000004, 0xAABBCCDD), (0x03000008, 0x8899EEFF)] (start 0x000000D3 [(.usr 0, 0x1234BEEF), (.usr 1, 0x03000000)])) [0x03000000] = some [0xBEEF3344] := by
  decide

/-- Section 9.2. -/
theorem test_ldrsb :
    regsAfter 0xE1D100D7 (withWords [(0x03000000, 0x11223344), (0x03000004, 0xAABBCCDD), (0x03000008, 0x8899EEFF)] (start 0x000000D3 [(.usr 1, 0x03000000)])) [.usr 0] = some ([0xFFFFFFAA], 0x000000D3, 0x08000004) := by
  decide

/-- Section 9.2. -/
theorem test_ldrsh :
    regsAfter 0xE1D100F6 (withWords [(0x03000000, 0x11223344), (0x03000004, 0xAABBCCDD), (0x03000008, 0x8899EEFF)] (start 0x000000D3 [(.usr 1, 0x03000000)])) [.usr 0] = some ([0xFFFFAABB], 0x000000D3, 0x08000004) := by
  decide

/-- Section 9.3: the loaded value is rotated, the write is aligned. -/
theorem test_swp :
    regsAfter 0xE1010092 (withWords [(0x03000000, 0x11223344), (0x03000004, 0xAABBCCDD), (0x03000008, 0x8899EEFF)] (start 0x000000D3 [(.usr 1, 0x03000006), (.usr 2, 0xCAFEF00D)])) [.usr 0] = some ([0xCCDDAABB], 0x000000D3, 0x08000004) ∧
    wordsAfter 0xE1010092 (withWords [(0x03000000, 0x11223344), (0x03000004, 0xAABBCCDD), (0x03000008, 0x8899EEFF)] (start 0x000000D3 [(.usr 1, 0x03000006), (.usr 2, 0xCAFEF00D)])) [0x03000004] = some [0xCAFEF00D] := by
  decide

/-- Section 9.3. -/
theorem test_swpb :
    regsAfter 0xE1410092 (withWords [(0x03000000, 0x11223344), (0x03000004, 0xAABBCCDD), (0x03000008, 0x8899EEFF)] (start 0x000000D3 [(.usr 1, 0x03000005), (.usr 2, 0xCAFEF00D)])) [.usr 0] = some ([0x000000CC], 0x000000D3, 0x08000004) ∧
    wordsAfter 0xE1410092 (withWords [(0x03000000, 0x11223344), (0x03000004, 0xAABBCCDD), (0x03000008, 0x8899EEFF)] (start 0x000000D3 [(.usr 1, 0x03000005), (.usr 2, 0xCAFEF00D)])) [0x03000004] = some [0xAABB0DDD] := by
  decide

/-- Section 10.1. -/
theorem test_ldm_decrement_before :
    regsAfter 0xE930000E (withWords [(0x03000000, 0x00000100), (0x03000004, 0x00000101), (0x03000008, 0x00000102), (0x0300000C, 0x00000103), (0x03000010, 0x00000104)] (start 0x000000D3 [(.usr 0, 0x03000010)])) [.usr 0, .usr 1, .usr 2, .usr 3] = some ([0x03000004, 0x00000101, 0x00000102, 0x00000103], 0x000000D3, 0x08000004) := by
  decide

/-- Section 10.1: IRQ mode, the user-bank registers are loaded. -/
theorem test_ldm_user_bank :
    regsAfter 0xE8D06000 (withWords [(0x03000000, 0x00000100), (0x03000004, 0x00000101), (0x03000008, 0x00000102), (0x0300000C, 0x00000103), (0x03000010, 0x00000104)] (start 0x000000D2 [(.usr 0, 0x03000000)])) [.usr 13, .usr 14, .irq 0] = some ([0x00000100, 0x00000101, 0x00000000], 0x000000D2, 0x08000004) := by
  decide

/-- Section 10.2: the original base is stored. -/
theorem test_stm_base_lowest :
    regsAfter 0xE8A00003 (withWords [(0x03000000, 0x00000100), (0x03000004, 0x00000101), (0x03000008, 0x00000102), (0x0300000C, 0x00000103), (0x03000010, 0x00000104)] (start 0x000000D3 [(.usr 0, 0x03000010), (.usr 1, 0x000000A1)])) [.usr 0] = some ([0x03000018], 0x000000D3, 0x08000004) ∧
    wordsAfter 0xE8A00003 (withWords [(0x03000000, 0x00000100), (0x03000004, 0x00000101), (0x03000008, 0x00000102), (0x0300000C, 0x00000103), (0x03000010, 0x00000104)] (start 0x000000D3 [(.usr 0, 0x03000010), (.usr 1, 0x000000A1)])) [0x03000010, 0x03000014] = some [0x03000010, 0x000000A1] := by
  decide

/-- Section 10.2: the user-bank values are stored. -/
theorem test_stm_user_bank :
    regsAfter 0xE8C06000 (withWords [(0x03000000, 0x00000100), (0x03000004, 0x00000101), (0x03000008, 0x00000102), (0x0300000C, 0x00000103), (0x03000010, 0x00000104)] (start 0x000000D2 [(.usr 0, 0x03000010), (.usr 13, 0x0300FF00), (.usr 14, 0x08001234), (.irq 0, 0x0300AA00), (.irq 1, 0x08005678)])) [.usr 13] = some ([0x0300FF00], 0x000000D2, 0x08000004) ∧
    wordsAfter 0xE8C06000 (withWords [(0x03000000, 0x00000100), (0x03000004, 0x00000101), (0x03000008, 0x00000102), (0x0300000C, 0x00000103), (0x03000010, 0x00000104)] (start 0x000000D2 [(.usr 0, 0x03000010), (.usr 13, 0x0300FF00), (.usr 14, 0x08001234), (.irq 0, 0x0300AA00), (.irq 1, 0x08005678)])) [0x03000010, 0x03000014] = some [0x0300FF00, 0x08001234] := by
  decide

/-- Sections 11 and 12.1 (TakeException of R391). -/
theorem test_swi :
    regsAfter 0xEF000005 (start 0x60000010 []) [.svc 1] = some ([0x08000004], 0x60000093, 0x00000008) := by
  decide

/-- Section 11 and R392: Undefined is taken. -/
theorem test_mrc_enters_und :
    regsAfter 0xEE100F10 (start 0x20000010 []) [.und 1] = some ([0x08000004], 0x2000009B, 0x00000004) := by
  decide

/-- Section 11 and R392: Undefined is taken. -/
theorem test_mcr_enters_und :
    regsAfter 0xEE010F10 (start 0x20000010 []) [.und 1] = some ([0x08000004], 0x2000009B, 0x00000004) := by
  decide

/-- Section 11 and R392: Undefined is taken. -/
theorem test_cdp_enters_und :
    regsAfter 0xEE2431C5 (start 0x20000010 []) [.und 1] = some ([0x08000004], 0x2000009B, 0x00000004) := by
  decide

/-- Section 11 and R392: Undefined is taken. -/
theorem test_ldc_enters_und :
    regsAfter 0xED901200 (start 0x20000010 []) [.und 1] = some ([0x08000004], 0x2000009B, 0x00000004) := by
  decide

/-- Section 11 and R392: Undefined is taken. -/
theorem test_stc_enters_und :
    regsAfter 0xED801200 (start 0x20000010 []) [.und 1] = some ([0x08000004], 0x2000009B, 0x00000004) := by
  decide

/-- Sections 3 and 12.1. -/
theorem test_undefined_enters_und :
    regsAfter 0xE7F000F0 (start 0x80000010 []) [.und 1] = some ([0x08000004], 0x8000009B, 0x00000004) := by
  decide

/-- The outcomes that end a run: `InvalidModeAccess` (sections 1.6, 1.9), `IllegalMode` (sections 1.6, 6), `UnpredictableForm` (sections 8 to 10). -/
theorem test_stops :
    stopOf 0xE1B0F00E (start 0x0000001F []) = some (.inl .invalidModeAccess) ∧
    stopOf 0xE14F0000 (start 0x00000010 []) = some (.inl .invalidModeAccess) ∧
    stopOf 0xE1B0F00E (start 0x000000D3 []) = some (.inl .illegalMode) ∧
    stopOf 0xE129F000 (start 0x000000D3 [(.usr 0, 0x00000014)]) = some (.inl .illegalMode) ∧
    stopOf 0xE0000090 (start 0x000000D3 []) = some (.inr .unpredictableForm) ∧
    stopOf 0xE5BF0004 (start 0x000000D3 []) = some (.inr .unpredictableForm) ∧
    stopOf 0xE1D100B1 (start 0x000000D3 []) = some (.inr .unpredictableForm) ∧
    stopOf 0xE10F0092 (start 0x000000D3 []) = some (.inr .unpredictableForm) ∧
    stopOf 0xE8A10003 (start 0x000000D3 []) = some (.inr .unpredictableForm) ∧
    stopOf 0xE8F06000 (start 0x000000D2 []) = some (.inr .unpredictableForm) ∧
    stopOf 0xE3A00001 (start 0x000000F3 []) = some (.inr .thumbState) := by
  decide

/-! ## Exceptions, interrupts, reset -/

/-- Section 12.1: FIQ interrupts an IRQ handler; the flags are kept, R14_fiq is A + 4. -/
theorem test_fiq_entry :
    (takeException .fiq 0x08000300 (start 0x30000092 [])).regs.get (.fiq 6) = 0x08000304 ∧
    (takeException .fiq 0x08000300 (start 0x30000092 [])).cpsrImage = 0x300000D1 ∧
    (takeException .fiq 0x08000300 (start 0x30000092 [])).spsr.fiq.image = 0x30000092 ∧
    (takeException .fiq 0x08000300 (start 0x30000092 [])).fetchAddr = 0x1C := by
  decide

/-- Section 12.1, the acceptance table, every row. -/
theorem test_interrupt_acceptance :
    ((start 0x00000010 []).withRequests false true).pendingInterrupt = some .irq ∧
    ((start 0x00000090 []).withRequests false true).pendingInterrupt = none ∧
    ((start 0x00000050 []).withRequests false true).pendingInterrupt = some .irq ∧
    ((start 0x00000010 []).withRequests true false).pendingInterrupt = some .fiq ∧
    ((start 0x00000050 []).withRequests true false).pendingInterrupt = none ∧
    ((start 0x00000010 []).withRequests true true).pendingInterrupt = some .fiq ∧
    ((start 0x00000050 []).withRequests true true).pendingInterrupt = some .irq ∧
    ((start 0x00000090 []).withRequests true true).pendingInterrupt = some .fiq ∧
    ((start 0x000000D3 []).withRequests true true).pendingInterrupt = none ∧
    ((start 0x00000010 []).withRequests false false).pendingInterrupt = none := by
  decide

/-- Sections 12.1 and 5.1: an IRQ is taken, then the word at the vector runs (MOV R0,#42), in one step. -/
theorem test_irq_step :
    regsAfter 0xE3A0002A ((start 0x40000010 []).withRequests false true) [.usr 0, .irq 1, .usr 15]
      = some ([42, 0x08000004, 0x20], 0x40000092, 0x1C) := by
  decide

/-- Section 12.2: the return from an IRQ. -/
theorem test_irq_return :
    regsAfter 0xE25EF004 (withSpsr .irq 0x40000010 (start 0x40000092 [(.irq 1, 0x08000304)])) [.usr 15]
      = some ([0x08000300], 0x40000010, 0x08000300) := by
  decide

/-- Section 5.3: a compare with Rd = 15 replaces the CPSR and does not write R15. -/
theorem test_compare_restores :
    regsAfter 0xE151F002 (withSpsr .svc 0x1000001F (start 0x000000D3 [(.usr 1, 1), (.usr 2, 1)])) [.usr 15]
      = some ([0x08000008], 0x1000001F, 0x08000004) := by
  decide

/-- Section 10.1: R8 is loaded in the old mode, and the CPSR is the SPSR. -/
theorem test_ldm_restores :
    regsAfter 0xE8D08100 (withWords [(0x03000000, 0x100), (0x03000004, 0x101)]
        (withSpsr .fiq 0x6000001F (start 0x000000D1 [(.usr 0, 0x03000000)]))) [.fiq 0, .usr 8, .usr 15]
      = some ([0x100, 0, 0x101], 0x6000001F, 0x100) := by
  decide

/-- Section 12.3: the fixed bits of the CPSR after reset, and the first step from reset fetches at 0. -/
theorem test_reset :
    State.reset.cpsrImage &&& 0x0FFFFFFF = 0x000000D3 ∧
    regsAfter 0xE3A0002A State.reset [.usr 0, .usr 15] = some ([42, 8], 0x000000D3, 4) := by
  decide

/-! ## Witnesses: states and operands that meet the hypotheses of the obligations -/

/-- SVC mode, Z = 1, C = 1; R1 to R4 hold aligned addresses and small numbers. -/
def svc : State :=
  withWords [(0x03000000, 0x11223344), (0x03000004, 0xAABBCCDD)]
    (withSpsr .svc 0x60000010 (start 0x600000D3 [(.usr 1, 0x03000000), (.usr 2, 4), (.usr 3, 7), (.usr 4, 0x80000000)]))

/-- The same in USR, SYS and IRQ mode, and with an illegal mode in SPSR_svc. -/
def usr : State := { svc with cpsr := { svc.cpsr with m := .usr } }
def sys : State := { svc with cpsr := { svc.cpsr with m := .sys } }
def irq : State := { svc with cpsr := { svc.cpsr with m := .irq } }
def badSpsr : State := withSpsr .svc 0x60000000 svc

theorem witness_StepKeepsInvariant :
    svc.Inv ∧ ∃ t, step (svc.withFetchWord 32 0xE5810004) = .next t :=
  ⟨by unfold State.Inv; decide, exists_next (by decide)⟩

theorem witness_StepRunsDecodedInstruction :
    let s := svc.withFetchWord 32 0xE0812003
    ¬ (s.fiqRequest = true ∧ s.cpsr.f = false) ∧ ¬ (s.irqRequest = true ∧ s.cpsr.i = false) ∧ s.cpsr.t = false ∧
    decode [s.read8 (alignWord s.fetchAddr), s.read8 (alignWord s.fetchAddr + 1),
      s.read8 (alignWord s.fetchAddr + 2), s.read8 (alignWord s.fetchAddr + 3)]
      = .ok (.addShiftImm .al false 1 2 0 .lsl 3, []) := by
  decide

/-- An FIQ that F lets in; an IRQ that I lets in while a requested FIQ is masked. -/
theorem witness_InterruptEntersBeforeFetch :
    (let s := (start 0x00000010 []).withRequests true true; s.fiqRequest = true ∧ s.cpsr.f = false) ∧
    (let s := (start 0x00000050 []).withRequests true true
     ¬ (s.fiqRequest = true ∧ s.cpsr.f = false) ∧ s.irqRequest = true ∧ s.cpsr.i = false) := by
  decide

theorem witness_ThumbStateIsRefused :
    (start 0x000000F3 []).cpsr.t = true ∧ (start 0x000000F3 []).fiqRequest = false ∧
    (start 0x000000F3 []).irqRequest = false := by
  decide

theorem witness_FailedConditionIsNoOp :
    svc.passes (Instr.cond (.swi .ne 5)) = false ∧ bits 0xF3A00001 28 4 = 0b1111#4 := by
  decide

theorem witness_DecodeOfEncode :
    (Instr.stm .nv true true true true 15 0xFFFF).wellFormed = true ∧
    (Instr.undefined .al 0x6000010).wellFormed = true ∧ (Instr.undefined .al 0x12FFF30).wellFormed = true := by
  decide

/-- Section 4, at the boundary values of every clause: 1, 31, 32, 33, 255. -/
theorem witness_ShiftByEveryAmount :
    shift 0x80000001 .lsl 1 false = (0x00000002, some true) ∧ shift 0x80000001 .lsl 31 false = (0x80000000, some false) ∧
    shift 0x80000001 .lsl 33 true = (0, some false) ∧ shift 0xFFFFFFFF .lsl 255 true = (0, some false) ∧
    shift 0x80000001 .lsr 1 false = (0x40000000, some true) ∧ shift 0x80000001 .lsr 31 false = (1, some false) ∧
    shift 0xFFFFFFFF .lsr 33 true = (0, some false) ∧ shift 0x80000001 .asr 1 false = (0xC0000000, some true) ∧
    shift 0x40000000 .asr 31 true = (0, some true) ∧ shift 0x80000000 .asr 32 false = (0xFFFFFFFF, some true) ∧
    shift 0x7FFFFFFF .asr 255 true = (0, some false) := by
  decide

/-- Section 4: rotates by 1, 31, 32, 40, 64 and 255, and the 33-bit rotate. -/
theorem witness_RotateByEveryAmount :
    shift 0x80000001 .ror 1 false = (0xC0000000, some true) ∧ shift 0x80000001 .ror 31 false = (3, some false) ∧
    shift 0x80000001 .ror 32 false = (0x80000001, some true) ∧ shift 0x12345678 .ror 40 false = (0x78123456, some false) ∧
    shift 0x80000001 .ror 64 false = (0x80000001, some true) ∧ shift 0x12345678 .ror 255 false = (0x2468ACF0, some false) ∧
    shift 0x80000001 .rrx 0 true = (0xC0000000, some true) := by
  decide

/-- Amount field 1 and 31, rotate field 1 and 15: the two clauses of R177 and R181 with a premise. -/
theorem witness_Operand2ReachesShifter :
    (1 : BitVec 5) ≠ 0 ∧ (31 : BitVec 5) ≠ 0 ∧ (1 : BitVec 4) ≠ 0 ∧ (15 : BitVec 4) ≠ 0 ∧
    operand2 (.imm 1 0xFF) svc = (0xC000003F, some true) ∧ operand2 (.imm 15 0xFF) svc = (0x3FC, some false) := by
  decide

/-- Each operation of the statement, with S = 0, with S = 1, as a compare with any Rd but 15, and Rd = 15 with S = 0. -/
theorem witness_LogicalResultsAndFlags :
    svc.passes .eq = true ∧ ¬ ((0 : Reg) = 15 ∧ (true || DpOp.isCompare .mov) = true) ∧
    ¬ ((15 : Reg) = 15 ∧ (false || DpOp.isCompare .mov) = true) ∧
    ¬ ((14 : Reg) = 15 ∧ (true || DpOp.isCompare .tst) = true) := by
  decide

theorem witness_AdditionResultsAndFlags :
    svc.passes .cs = true ∧ svc.cpsr.c.toNat = 1 ∧ ¬ ((0 : Reg) = 15 ∧ (true || DpOp.isCompare .adc) = true) ∧
    ¬ ((15 : Reg) = 15 ∧ (false || DpOp.isCompare .add) = true) ∧
    ¬ ((14 : Reg) = 15 ∧ (true || DpOp.isCompare .cmn) = true) := by
  decide

theorem witness_SubtractionResultsAndFlags :
    svc.passes .al = true ∧ 1 - svc.cpsr.c.toNat = 0 ∧ svc.readReg 1 = 0x03000000 ∧ (operand2 (.imm 0 1) svc).1 = 1 ∧
    ¬ ((0 : Reg) = 15 ∧ (true || DpOp.isCompare .rsc) = true) ∧
    ¬ ((15 : Reg) = 15 ∧ (false || DpOp.isCompare .sub) = true) ∧
    ¬ ((14 : Reg) = 15 ∧ (true || DpOp.isCompare .cmp) = true) := by
  decide

/-- USR and SYS mode; an illegal and a legal mode in the SPSR of SVC mode. -/
theorem witness_DataProcessingRestoresCpsr :
    (usr.passes .al = true ∧ usr.cpsr.m = .usr) ∧ (sys.passes .al = true ∧ sys.cpsr.m = .sys) ∧
    (true || DpOp.isCompare .mov) = true ∧ (false || DpOp.isCompare .cmp) = true ∧
    badSpsr.cpsr.m.spsrBank = some .svc ∧ Mode.ofBits (badSpsr.spsr.get .svc).m = none ∧
    svc.cpsr.m.spsrBank = some .svc ∧ Mode.ofBits (svc.spsr.get .svc).m = some .usr := by
  decide

/-- Without S, with S, a compare, and a restore. -/
theorem witness_DataProcessingFrame :
    (∃ t, exec (.ofDp .add .al false 1 0 (.imm 0 1)) svc = .next t) ∧
    (∃ t, exec (.ofDp .and .al true 1 0 (.shiftReg 2 .lsl 3)) svc = .next t) ∧
    (∃ t, exec (.ofDp .teq .al true 1 0 (.shiftImm 0 .ror 3)) svc = .next t) ∧
    (∃ t, exec (.ofDp .mov .al true 0 15 (.shiftImm 0 .lsl 3)) svc = .next t) :=
  ⟨exists_next (by decide), exists_next (by decide), exists_next (by decide), exists_next (by decide)⟩

/-- The ranges of the bank table at their ends. -/
theorem witness_BankedRegistersKeepTheirContent :
    ((7 : Reg).val ≤ 7 ∧ phys .fiq 7 = .usr 7 ∧ phys .und 15 = .usr 15) ∧
    ((8 : Reg).val = 8 + (0 : Fin 7).val ∧ (14 : Reg).val = 8 + (6 : Fin 7).val) ∧
    (8 ≤ (8 : Reg).val ∧ (12 : Reg).val ≤ 12) ∧
    ((13 : Reg).val = 13 + (0 : Fin 2).val ∧ (14 : Reg).val = 13 + (1 : Fin 2).val) := by
  decide

theorem witness_SpsrAccessByMode :
    usr.cpsr.m = .usr ∧ sys.cpsr.m = .sys ∧ svc.cpsr.m.spsrBank = some .svc ∧ irq.cpsr.m.spsrBank = some .irq := by
  decide

/-- A legal and an illegal mode value; a mask over the mode field with each, and the flags-only mask. -/
theorem witness_CpsrWriteChecksTheMode :
    (∀ m : Mode, m.bits ≠ 0b10100#5) ∧ Mode.bits .sys = 0b11111#5 ∧
    (0xF00000FF : Word).extractLsb' 0 5 = 0b11111#5 ∧ (∀ m : Mode, m.bits ≠ (0x14 : Word).extractLsb' 0 5) ∧
    Mode.bits .irq = (0xD2 : Word).extractLsb' 0 5 ∧ (0xF0000000 : Word).extractLsb' 0 5 = 0#5 := by
  refine ⟨fun m => ?_, ?_, ?_, fun m => ?_, ?_, ?_⟩ <;> first | decide | (cases m <;> decide)

theorem witness_MrsReadsTheImage :
    svc.passes .al = true ∧ usr.passes .al = true ∧ usr.cpsr.m = .usr ∧ sys.passes .al = true ∧ sys.cpsr.m = .sys ∧
    svc.cpsr.m.spsrBank = some .svc := by
  decide

/-- USR mode; another mode with an illegal mode value in R2 (4) and a legal one in R5; the SPSR clauses. -/
theorem witness_MsrFullForms :
    (usr.passes .al = true ∧ usr.cpsr.m = .usr) ∧
    (svc.cpsr.m ≠ .usr ∧ ∀ m : Mode, m.bits ≠ (svc.readReg 2).extractLsb' 0 5) ∧
    (let s := svc.writeReg 5 0xD2; s.passes .al = true ∧ s.cpsr.m ≠ .usr ∧
      Mode.bits .irq = (s.readReg 5).extractLsb' 0 5) ∧
    sys.cpsr.m = .sys ∧ svc.cpsr.m.spsrBank = some .svc := by
  refine ⟨by decide, ⟨by decide, fun m => ?_⟩, by decide, by decide, by decide⟩
  cases m <;> decide

theorem witness_MsrFlagsOnlyForms :
    svc.passes .al = true ∧ (0x80000000 : Word) = svc.readReg 4 ∧
    (0xF0000000 : Word) = (shift ((0x0F : BitVec 8).zeroExtend 32) .ror (2 * (2 : BitVec 4).toNat) false).1 ∧
    usr.passes .al = true ∧ usr.cpsr.m = .usr ∧ svc.cpsr.m.spsrBank = some .svc := by
  decide

theorem witness_PsrTransferFrame :
    (∃ t, exec (.mrs .al true 5) svc = .next t) ∧ (∃ t, exec (.msrCpsr .al 4) usr = .next t) ∧
    (∃ t, exec (.msrFlagsReg .al false 4) svc = .next t) ∧ (∃ t, exec (.msrFlagsImm .al false 2 0x0F) svc = .next t) ∧
    (∃ t, exec (.msrSpsr .al 4) svc = .next t) ∧ (∃ t, exec (.msrFlagsReg .al true 4) svc = .next t) ∧
    (∃ t, exec (.msrFlagsImm .al true 2 0x0F) svc = .next t) :=
  ⟨exists_next (by decide), exists_next (by decide), exists_next (by decide), exists_next (by decide),
    exists_next (by decide), exists_next (by decide), exists_next (by decide)⟩

/-- One bad form of each group; and the operands of the sections 8 vectors, which are good ones. -/
theorem witness_MultiplyBadForms :
    svc.passes .al = true ∧ (1 : Reg) = 1 ∧
    ((0 : Reg) ≠ 1 ∧ (0 : Reg) ≠ 15 ∧ (1 : Reg) ≠ 15 ∧ (2 : Reg) ≠ 15) := by
  decide

theorem witness_MultiplyResultsAndFlags :
    svc.passes .al = true ∧ (0 : Reg) ≠ 1 ∧ (0 : Reg) ≠ 15 ∧ (1 : Reg) ≠ 15 ∧ (2 : Reg) ≠ 15 ∧ (3 : Reg) ≠ 15 ∧
    goesOn (exec (.mul .al true 0 3 2 1) svc) = true ∧ goesOn (exec (.mla .al true 0 3 2 1) svc) = true := by
  decide

theorem witness_LongMultiplyResultsAndFlags :
    svc.passes .al = true ∧ (1 : Reg) ≠ 0 ∧ (1 : Reg) ≠ 2 ∧ (0 : Reg) ≠ 2 ∧ (1 : Reg) ≠ 15 ∧ (0 : Reg) ≠ 15 ∧
    (2 : Reg) ≠ 15 ∧ (3 : Reg) ≠ 15 ∧
    goesOn (exec (.umull .al true 1 0 3 2) svc) = true ∧ goesOn (exec (.umlal .al true 1 0 3 2) svc) = true ∧
    goesOn (exec (.smull .al true 1 0 3 2) svc) = true ∧ goesOn (exec (.smlal .al true 1 0 3 2) svc) = true := by
  decide

theorem witness_MultiplyFrame :
    (∃ t, exec (.mul .al true 0 3 2 1) svc = .next t) ∧ (∃ t, exec (.mla .al false 0 3 2 1) svc = .next t) ∧
    (∃ t, exec (.umull .al true 1 0 3 2) svc = .next t) ∧ (∃ t, exec (.smlal .al false 1 0 3 2) svc = .next t) :=
  ⟨exists_next (by decide), exists_next (by decide), exists_next (by decide), exists_next (by decide)⟩

theorem witness_BranchResults : svc.passes .al = true ∧ svc.passes .eq = true ∧ svc.readReg 3 = 7 := by
  decide

theorem witness_BranchFrame :
    (∃ t, exec (.b .al 0xFFFFFE) svc = .next t) ∧ (∃ t, exec (.bl .al 0x7FFFFF) svc = .next t) ∧
    (∃ t, exec (.bx .al 3) svc = .next t) :=
  ⟨exists_next (by decide), exists_next (by decide), exists_next (by decide)⟩

theorem witness_LittleEndianMemory : Memory.wf svc.mem = true ∧ svc.mem ≠ [] := by
  decide

/-- Every byte number, and an aligned address. -/
theorem witness_MisalignedLoadRotates :
    0 < 4 ∧ 3 < 4 ∧ (0x03000004 : Word).toNat % 4 = 0 ∧
    svc.loadWordRotated 0x03000003 = 0x22334411 ∧ svc.loadWordRotated 0x03000004 = 0xAABBCCDD := by
  decide

/-- Without write-back the base may be Rd and may be R15; with write-back it is neither; an offset register that is
not R15. -/
theorem witness_LoadWordAndByte :
    svc.passes .al = true ∧ ¬ (writesBack true false = true ∧ ((1 : Reg) = 15 ∨ (1 : Reg) = 1)) ∧
    ¬ (writesBack true false = true ∧ ((15 : Reg) = 15 ∨ (15 : Reg) = 0)) ∧
    ¬ (writesBack false true = true ∧ ((1 : Reg) = 15 ∨ (1 : Reg) = 15)) ∧
    (∀ a k, WordOffset.reg 2 .lsl 14 ≠ .reg a k 15) ∧ (∀ a k, WordOffset.imm 0xFFF ≠ .reg a k 15) ∧ (14 : Reg) ≠ 15 := by
  refine ⟨by decide, by decide, by decide, by decide, fun a k h => ?_, fun a k h => ?_, by decide⟩
  · injection h with _ _ h
    exact absurd h (by decide)
  · cases h

theorem witness_StoreWordAndByte :
    svc.passes .al = true ∧ ¬ (writesBack false false = true ∧ ((1 : Reg) = 15 ∨ (1 : Reg) = 0)) ∧
    (∀ a k, WordOffset.imm 4 ≠ .reg a k 15) ∧ (0 : Reg) ≠ 15 :=
  ⟨by decide, by decide, fun a k h => by (cases h), by decide⟩

/-- The addresses are even here; the three addressing forms. -/
theorem witness_HalfAndSignedTransfers :
    svc.passes .al = true ∧ ¬ (writesBack true true = true ∧ ((1 : Reg) = 15 ∨ (1 : Reg) = 0)) ∧
    HalfOffset.reg 2 ≠ .reg 15 ∧ (0 : Reg) ≠ 15 ∧ ¬ ((true : Bool) = false ∧ (true : Bool) = true) ∧
    ¬ ((false : Bool) = false ∧ (false : Bool) = true) ∧
    (indexed true (svc.readReg 1) (halfOffset (.reg 2) svc)).toNat % 2 = 0 := by
  decide

/-- A bad form of every kind, the odd halfword address among them. -/
theorem witness_TransferBadForms :
    svc.passes .al = true ∧ (writesBack false false = true ∧ (1 : Reg) = 1) ∧
    (∃ a k, WordOffset.reg 0 .lsl 15 = .reg a k 15) ∧ HalfOffset.reg 15 = .reg 15 ∧
    HalfOp.strh ≠ .ldrsb ∧ (effectiveAddr true true (svc.readReg 1) (halfOffset (.imm 0 3) svc)).toNat % 2 = 1 :=
  ⟨by decide, by decide, ⟨0, .lsl, rfl⟩, rfl, by decide, by decide⟩

theorem witness_LoadFrame :
    (SingleOp.load .ldr = true ∧ ∃ t, exec (.ofSingle .ldr .al true true true 1 0 (.reg 0 .lsl 2)) svc = .next t) ∧
    (SingleOp.load .ldrb = true ∧ ∃ t, exec (.ofSingle .ldrb .al false true false 1 0 (.imm 1)) svc = .next t) ∧
    (HalfOp.load .ldrh = true ∧ ∃ t, exec (.ofHalf .ldrh .al true true false 1 0 (.imm 0 2)) svc = .next t) ∧
    (HalfOp.load .ldrsb = true ∧ ∃ t, exec (.ofHalf .ldrsb .al true true false 1 0 (.imm 0 3)) svc = .next t) :=
  ⟨⟨rfl, exists_next (by decide)⟩, ⟨rfl, exists_next (by decide)⟩, ⟨rfl, exists_next (by decide)⟩,
    ⟨rfl, exists_next (by decide)⟩⟩

/-- A word stored at a misaligned address with write-back, a byte, a halfword. -/
theorem witness_StoreFrame :
    ((∃ t, exec (.ofSingle .str .al true true true 1 0 (.imm 6)) svc = .next t) ∧
      effectiveAddr true true (svc.readReg 1) (wordOffset (.imm 6) svc) = 0x03000006) ∧
    ((∃ t, exec (.ofSingle .strb .al false true false 1 0 (.imm 1)) svc = .next t) ∧
      effectiveAddr false true (svc.readReg 1) (wordOffset (.imm 1) svc) = 0x03000000) ∧
    ((∃ t, exec (.ofHalf .strh .al true false false 1 0 (.imm 0 2)) svc = .next t) ∧
      effectiveAddr true false (svc.readReg 1) (halfOffset (.imm 0 2) svc) = 0x02FFFFFE) :=
  ⟨⟨exists_next (by decide), by decide⟩, ⟨exists_next (by decide), by decide⟩, ⟨exists_next (by decide), by decide⟩⟩

/-- Good operands, Rd = Rm among them; and each kind of bad ones. -/
theorem witness_SwapExchangesRegisterAndMemory :
    svc.passes .al = true ∧ ((1 : Reg) ≠ 15 ∧ (3 : Reg) ≠ 15 ∧ (1 : Reg) ≠ 3) ∧ ((1 : Reg) = 1 ∨ (1 : Reg) = 15) := by
  decide

theorem witness_SwapFrame :
    (∃ t, exec (.swp .al 1 3 3) svc = .next t) ∧ (∃ t, exec (.swpb .al 1 0 2) svc = .next t) :=
  ⟨exists_next (by decide), exists_next (by decide)⟩

/-- A bad form of every kind, for LDM and for STM. -/
theorem witness_BlockBadForms :
    svc.passes .al = true ∧ inList 0x0003 1 = true ∧ (inList 0x0003 0 = true ∧ (0 : Reg) < 1) ∧
    inList 0x6000 15 = false ∧ usr.passes .al = true ∧ usr.cpsr.m = .usr ∧ sys.passes .al = true ∧
    sys.cpsr.m = .sys := by
  decide

/-- S = 0 with write-back and R15 in the list; S = 1 in IRQ mode; a list of one and of all sixteen registers. -/
theorem witness_LoadMultipleLoadsTheList :
    svc.passes .al = true ∧ (0x8006 : BitVec 16) ≠ 0 ∧ (3 : Reg) ≠ 15 ∧ ¬ (true = true ∧ inList 0x8006 3 = true) ∧
    irq.passes .al = true ∧ (inList 0x6000 15 = false ∧ irq.cpsr.m ≠ .usr ∧ irq.cpsr.m ≠ .sys) ∧
    0 < (listRegs 0x0001).length ∧ 15 < (listRegs 0xFFFF).length := by
  decide

theorem witness_LoadMultipleRestoresCpsr :
    (usr.passes .al = true ∧ usr.cpsr.m = .usr) ∧ inList 0x8001 15 = true ∧ (13 : Reg) ≠ 15 ∧
    ¬ (true = true ∧ inList 0x8001 13 = true) ∧ badSpsr.cpsr.m.spsrBank = some .svc ∧
    Mode.ofBits (badSpsr.spsr.get .svc).m = none ∧ svc.passes .al = true ∧ svc.cpsr.m.spsrBank = some .svc ∧
    Mode.ofBits (svc.spsr.get .svc).m = some .usr := by
  decide

/-- Write-back with the base lowest in the list; S = 1 in SVC mode. -/
theorem witness_StoreMultipleStoresTheList :
    svc.passes .al = true ∧ (0x8006 : BitVec 16) ≠ 0 ∧ (1 : Reg) ≠ 15 ∧ Memory.wf svc.mem = true ∧
    ¬ (true = true ∧ inList 0x8006 1 = true ∧ ∃ r, inList 0x8006 r = true ∧ r < (1 : Reg)) ∧
    (svc.cpsr.m ≠ .usr ∧ svc.cpsr.m ≠ .sys) ∧ 2 < (listRegs 0x8006).length := by
  decide

theorem witness_SwiAndUndefinedEntry : usr.passes .al = true ∧ svc.passes .al = true ∧ irq.passes .al = true := by
  decide

/-- Each row of the table is one choice of the kind; the abort rows too. -/
theorem witness_ExceptionEntryTable :
    (ExceptionKind.vector .dataAbort = 0x10 ∧ ExceptionKind.mode .dataAbort = .abt ∧
      ExceptionKind.linkOffset .dataAbort = 8) ∧
    (ExceptionKind.vector .fiq = 0x1C ∧ ExceptionKind.masksFiq .fiq = true ∧ phys .fiq 14 = .fiq 6) := by
  decide

theorem witness_UserModeIsContained :
    usr.cpsr.m = .usr ∧ (∃ t, exec (.msrCpsr .al 4) usr = .next t) ∧ (∃ t, exec (.swi .al 5) usr = .next t) ∧
    (∃ t, exec (.undefined .al 0x7F000F0) usr = .next t) ∧ (∃ t, exec (.bx .al 3) usr = .next t) :=
  ⟨rfl, exists_next (by decide), exists_next (by decide), exists_next (by decide), exists_next (by decide)⟩

/-- A branch, whose R15 and fetch address change. -/
theorem witness_OnlyListedInstructionsWritePc :
    ((nextOf (exec (.b .al 0x10) svc)).map fun t => (decide (t.pc ≠ svc.pc), decide (t.fetchAddr ≠ svc.fetchAddr + 4)))
      = some (true, true) := by
  decide

theorem witness_OnlyListedInstructionsWriteFlags :
    ((nextOf (exec (.subImm .al true 2 0 0 5) svc)).map fun t => decide (t.cpsr.c ≠ svc.cpsr.c)) = some true := by
  decide

theorem witness_OnlyStoresWriteMemory :
    ((nextOf (exec (.strImm .al true true false 1 4 0) svc)).map fun t =>
      decide (t.read8 0x03000003 ≠ svc.read8 0x03000003)) = some true := by
  decide

theorem witness_OnlyListedInstructionsChangeMode :
    ((nextOf (exec (.movShiftImm .al true 0 15 0 .lsl 3) svc)).map fun t => decide (t.cpsr.m ≠ svc.cpsr.m)) = some true ∧
    ((nextOf (exec (.msrSpsr .al 4) svc)).map fun t => decide (t.spsr ≠ svc.spsr)) = some true := by
  decide

end Sys2Proof.Tests
end

namespace Sys2Proof.Machine

/-! ## The bank table (R22, R23) -/

/-- R0 to R7 and R15 are shared by all modes (R22). -/
theorem phys_of_shared (m : Mode) {n : Reg} (h : n.val ≤ 7 ∨ n = 15) : phys m n = .usr n := by
  revert n
  cases m <;> decide

/-- FIQ mode has its own R8 to R14 (R22). -/
theorem phys_fiq_of_banked {n : Reg} {k : Fin 7} (h : n.val = 8 + k.val) : phys .fiq n = .fiq k := by
  revert n k
  decide

/-- Only FIQ mode banks R8 to R12 (R22). -/
theorem phys_of_fiq_only {n : Reg} (h8 : 8 ≤ n.val) (h12 : n.val ≤ 12) :
    phys .irq n = .usr n ∧ phys .svc n = .usr n ∧ phys .abt n = .usr n ∧ phys .und n = .usr n := by
  revert n
  decide

/-- IRQ, SVC, ABT and UND mode have their own R13 and R14 (R22). -/
theorem phys_of_pair {n : Reg} {k : Fin 2} (h : n.val = 13 + k.val) :
    phys .irq n = .irq k ∧ phys .svc n = .svc k ∧ phys .abt n = .abt k ∧ phys .und n = .und k := by
  revert n k
  decide

/-- A register written in one mode and read there again, after a write in another mode (R38). -/
theorem readReg_after_other_mode (s : State) (n k : Reg) (x y : Word) (m' : Mode) :
    let u := { s.writeReg n x with cpsr := { s.cpsr with m := m' } }
    let v := { u.writeReg k y with cpsr := s.cpsr }
    v.readReg n = if phys m' k = phys s.cpsr.m n then y else x := by
  intro u v
  have hv : v.readReg n = ((s.regs.set (phys s.cpsr.m n) x).set (phys m' k) y).get (phys s.cpsr.m n) := rfl
  rw [hv, get_set, get_set_self]
  exact if_congr eq_comm rfl rfl

/-- Settles O22: the table of R22 mode by mode, and reads after writes by the law of the register file. -/
theorem bankedRegistersKeepTheirContent : Obligations.BankedRegistersKeepTheirContent := by
  unfold Obligations.BankedRegistersKeepTheirContent
  refine ⟨fun m n h => phys_of_shared m h, fun n => ⟨rfl, rfl⟩, fun k n h => phys_fiq_of_banked h,
    fun n h8 h12 => phys_of_fiq_only h8 h12, fun k n h => phys_of_pair h, fun s n k x y m' => ?_⟩
  exact ⟨readReg_writeReg s n k x, fun p hp => get_set_ne _ _ hp, readReg_after_other_mode s n k x y m'⟩

/-! ## Images of a PSR (R29, R39) -/

/-- A concatenation as a number. -/
theorem toNat_append_eq_add {n m : Nat} (a : BitVec n) (b : BitVec m) :
    (a ++ b).toNat = a.toNat * 2 ^ m + b.toNat := by
  rw [BitVec.toNat_append, ← Nat.shiftLeft_add_eq_or_of_lt b.isLt, Nat.shiftLeft_eq]

/-- The image as a number: each field at its place (R29). -/
theorem image_toNat (p : Spsr) :
    p.image.toNat = p.n.toNat * 2 ^ 31 + p.z.toNat * 2 ^ 30 + p.c.toNat * 2 ^ 29 + p.v.toNat * 2 ^ 28 +
      p.i.toNat * 2 ^ 7 + p.f.toNat * 2 ^ 6 + p.t.toNat * 2 ^ 5 + p.m.toNat := by
  simp only [Psr.image, toNat_append_eq_add, BitVec.toNat_ofBool, BitVec.toNat_ofNat]
  omega

/-- An image moved into a PSR keeps its implemented bits and loses the reserved ones (R39). -/
theorem image_ofImage (w : Word) : (Psr.ofImage w).image = w &&& Config.psrImpl := by
  apply BitVec.eq_of_getLsbD_eq
  intro k hk
  rw [image_getLsbD, BitVec.getLsbD_and, getLsbD_psrImpl]
  simp only [Psr.ofImage, BitVec.getLsbD_extractLsb', Nat.zero_add]
  interval_cases k <;> simp

/-- Settles O23: the image as a number, the masks by computation, and the reserved bits bit by bit. -/
theorem psrImageLayout : Obligations.PsrImageLayout := by
  unfold Obligations.PsrImageLayout
  exact ⟨image_toNat, rfl, rfl, image_ofImage⟩

/-- An image has no reserved bit (R39). -/
theorem image_and_psrImpl (p : Spsr) : p.image &&& Config.psrImpl = p.image := by
  rw [← image_ofImage, ofImage_image]

/-- A masked write of an image touches implemented bits only, so storing it in a PSR loses nothing (R34, R39, R40). -/
theorem image_ofImage_masked (old : Spsr) (value mask : Word) :
    (Psr.ofImage (maskedImage old.image value mask)).image = maskedImage old.image value mask := by
  rw [image_ofImage]
  apply BitVec.eq_of_getLsbD_eq
  intro k hk
  have hold : (old.image.getLsbD k && Config.psrImpl.getLsbD k) = old.image.getLsbD k := by
    rw [← BitVec.getLsbD_and, image_and_psrImpl]
  simp only [maskedImage, BitVec.getLsbD_and, BitVec.getLsbD_or]
  grind

/-! ## The SPSR of the mode (R33 to R35) -/

/-- `read_spsr` where the mode has an SPSR (R33, R35). -/
theorem readSpsr_of_bank {s : State} {b : SpsrBank} (h : s.cpsr.m.spsrBank = some b) :
    s.readSpsr = .ok (s.spsr.get b) := by
  unfold State.readSpsr
  rw [h]

/-- `read_spsr` in USR and SYS mode (R33). -/
theorem readSpsr_of_noSpsr {s : State} (h : s.cpsr.m.spsrBank = none) : s.readSpsr = .error .invalidModeAccess := by
  unfold State.readSpsr
  rw [h]

/-- `write_spsr` where the mode has an SPSR (R34, R35). -/
theorem writeSpsr_of_bank {s : State} {b : SpsrBank} (h : s.cpsr.m.spsrBank = some b) (value mask : Word) :
    s.writeSpsr value mask
      = .ok { s with spsr := s.spsr.set b (Psr.ofImage (maskedImage (s.spsr.get b).image value mask)) } := by
  unfold State.writeSpsr
  rw [h]

/-- `write_spsr` in USR and SYS mode (R34). -/
theorem writeSpsr_of_noSpsr {s : State} (h : s.cpsr.m.spsrBank = none) (value mask : Word) :
    s.writeSpsr value mask = .error .invalidModeAccess := by
  unfold State.writeSpsr
  rw [h]

/-- Settles O24: the two accesses by whether the mode has an SPSR. -/
theorem spsrAccessByMode : Obligations.SpsrAccessByMode := by
  unfold Obligations.SpsrAccessByMode
  intro s value mask
  refine ⟨rfl, rfl, rfl, rfl, rfl, fun hm => ?_, fun b hb => ?_⟩
  · have hnone := spsrBank_eq_none.2 hm
    exact ⟨readSpsr_of_noSpsr hnone, writeSpsr_of_noSpsr hnone value mask⟩
  · exact ⟨readSpsr_of_bank hb, _, writeSpsr_of_bank hb value mask, image_ofImage_masked _ value mask⟩

/-! ## Writes of the CPSR (R36, R40) -/

/-- The mode field of a masked image: PSR_IMPL covers it, so the mask alone decides (R34, R40). -/
theorem mode_maskedImage (old value mask : Word) :
    (maskedImage old value mask).extractLsb' 0 5 =
      old.extractLsb' 0 5 &&& ~~~(mask.extractLsb' 0 5) ||| value.extractLsb' 0 5 &&& mask.extractLsb' 0 5 := by
  apply BitVec.eq_of_getLsbD_eq
  intro k hk
  simp only [maskedImage, BitVec.getLsbD_extractLsb', BitVec.getLsbD_or, BitVec.getLsbD_and, BitVec.getLsbD_not,
    getLsbD_psrImpl, Nat.zero_add]
  simp [hk, show k < 8 by omega, show k < 32 by omega]

theorem mode_maskedImage_of_covered {mask : Word} (old value : Word) (h : mask.extractLsb' 0 5 = 0b11111#5) :
    (maskedImage old value mask).extractLsb' 0 5 = value.extractLsb' 0 5 := by
  have hclear : ~~~0b11111#5 = 0#5 := rfl
  have hones : 0b11111#5 = BitVec.allOnes 5 := rfl
  rw [mode_maskedImage, h, hclear, hones, BitVec.and_zero, BitVec.and_allOnes, BitVec.zero_or]

theorem mode_maskedImage_of_clear {mask : Word} (old value : Word) (h : mask.extractLsb' 0 5 = 0#5) :
    (maskedImage old value mask).extractLsb' 0 5 = old.extractLsb' 0 5 := by
  rw [mode_maskedImage, h, BitVec.not_zero, BitVec.and_allOnes, BitVec.and_zero, BitVec.or_zero]

/-- The mode field of the CPSR's image is the number of its mode (R29, R30). -/
theorem cpsrImage_mode (s : State) : s.cpsrImage.extractLsb' 0 5 = s.cpsr.m.bits :=
  congrArg Psr.m (ofImage_image s.cpsr.toSpsr)

/-- `WriteCPSR` of an image with an illegal mode field (R40). -/
theorem writeCpsr_of_illegal {s : State} {value mask : Word}
    (h : ∀ m : Mode, m.bits ≠ (maskedImage s.cpsrImage value mask).extractLsb' 0 5) :
    s.writeCpsr value mask = .error .illegalMode := by
  unfold State.writeCpsr
  rw [toCpsr_of_illegal (ofBits_eq_none.2 h)]

/-- `WriteCPSR` of an image with a legal mode field: the CPSR becomes that image (R40). -/
theorem writeCpsr_of_legal {s : State} {value mask : Word} {m : Mode}
    (h : (maskedImage s.cpsrImage value mask).extractLsb' 0 5 = m.bits) :
    ∃ p, s.writeCpsr value mask = .ok { s with cpsr := p } ∧ p.toSpsr.image = maskedImage s.cpsrImage value mask := by
  obtain ⟨p, hp⟩ : ∃ p, (Psr.ofImage (maskedImage s.cpsrImage value mask)).toCpsr = some p :=
    ⟨_, toCpsr_of_legal (ofBits_eq_some.2 h)⟩
  refine ⟨p, ?_, ?_⟩
  · unfold State.writeCpsr
    rw [hp]
  · rw [toSpsr_of_toCpsr hp]
    exact image_ofImage_masked s.cpsr.toSpsr value mask

/-- `set_mode` of a value that is no mode's number (R36). -/
theorem setMode_of_illegal {b : BitVec 5} (s : State) (h : ∀ m : Mode, m.bits ≠ b) :
    s.setMode b = .error .illegalMode := by
  unfold State.setMode
  rw [ofBits_eq_none.2 h]

/-- `set_mode` of a mode's number (R36). -/
theorem setMode_bits (s : State) (m : Mode) : s.setMode m.bits = .ok { s with cpsr := { s.cpsr with m := m } } := by
  unfold State.setMode
  rw [ofBits_bits]

/-- Settles O25: `set_mode` by whether the value names a mode, `WriteCPSR` by the mode field of the masked image. -/
theorem cpsrWriteChecksTheMode : Obligations.CpsrWriteChecksTheMode := by
  unfold Obligations.CpsrWriteChecksTheMode
  intro s value mask b
  refine ⟨setMode_of_illegal s, fun m hm => hm ▸ setMode_bits s m, fun hmask hv => ?_, ?_⟩
  · refine writeCpsr_of_illegal ?_
    rwa [mode_maskedImage_of_covered _ _ hmask]
  · rintro (⟨hmask, m, hm⟩ | hmask)
    · exact writeCpsr_of_legal ((mode_maskedImage_of_covered _ _ hmask).trans hm.symm)
    · exact writeCpsr_of_legal ((mode_maskedImage_of_clear _ _ hmask).trans (cpsrImage_mode s))

end Sys2Proof.Machine

namespace Sys2Proof

open Machine

/-! ## What an instruction can do to the status registers (R32, R36, R400) -/

/-- The MSR forms that write the SPSR of the mode (R253 to R255). -/
def Instr.WritesSpsr (i : Instr) : Prop :=
  (∃ c rm, i = .msrSpsr c rm) ∨ (∃ c rm, i = .msrFlagsReg c true rm) ∨ (∃ c rot imm8, i = .msrFlagsImm c true rot imm8)

/-- A restore of the CPSR may write the flags too (R32). -/
theorem Instr.IsRestore.mayWriteFlags {i : Instr} (h : i.IsRestore) : i.MayWriteFlags := by
  simp only [Instr.MayWriteFlags, h, or_true]

end Sys2Proof

namespace Sys2Proof.Machine

/-- What becomes of the status registers when instruction `i` takes `s` to `t`: one of five things. -/
inductive PsrEffect (i : Instr) (s t : State) : Prop
  /-- The flags, the mode and every SPSR are kept. -/
  | kept (flags : FlagsSame s t) (mode : t.cpsr.m = s.cpsr.m) (spsr : t.spsr = s.spsr)
  /-- A flag may change, the mode and every SPSR are kept. -/
  | flags (may : i.MayWriteFlags) (mode : t.cpsr.m = s.cpsr.m) (spsr : t.spsr = s.spsr)
  /-- The CPSR may be replaced, every SPSR is kept. -/
  | cpsr (may : i.MayWriteFlags) (mayMode : i.MayWriteMode) (spsr : t.spsr = s.spsr)
  /-- An SPSR may change, the CPSR is kept. -/
  | spsr (may : i.WritesSpsr) (cpsr : t.cpsr = s.cpsr)
  /-- An exception is entered with the flags kept. -/
  | exception (takes : i.TakesException) (flags : FlagsSame s t)

/-! ### Outcomes that raise no exception -/

/-- The outcome is no cause for the environment to enter an exception (R149, R392). -/
def StepResult.GoesOn (r : StepResult) : Prop := r ≠ .err .undefinedInstruction ∧ ∀ k, r ≠ .trap k

theorem goesOn_ok (u : State) (w : Bool) : (StepResult.ok u w).GoesOn := ⟨nofun, nofun⟩

theorem goesOn_unlessForm {r : StepResult} (bad : Bool) (h : r.GoesOn) : (unlessForm bad r).GoesOn := by
  cases bad
  · exact h
  · exact ⟨nofun, nofun⟩

theorem goesOn_err {e : ExecError} (h : e ≠ .undefinedInstruction) : (StepResult.err e).GoesOn :=
  ⟨fun he => h (StepResult.err.inj he), nofun⟩

theorem goesOn_ofExcept {r : Except ExecError State} {k : State → StepResult}
    (hr : ∀ e, r = .error e → e ≠ .undefinedInstruction) (hk : ∀ t, (k t).GoesOn) :
    (StepResult.ofExcept r k).GoesOn := by
  cases r with
  | ok t => exact hk t
  | error e => exact goesOn_err (hr e rfl)

theorem readSpsr_error {s : State} {e : ExecError} (h : s.readSpsr = .error e) : e = .invalidModeAccess := by
  cases hb : s.cpsr.m.spsrBank with
  | none => rw [readSpsr_of_noSpsr hb] at h; exact (Except.error.inj h).symm
  | some b => rw [readSpsr_of_bank hb] at h; exact nomatch h

theorem writeSpsr_error {s : State} {value mask : Word} {e : ExecError} (h : s.writeSpsr value mask = .error e) :
    e = .invalidModeAccess := by
  cases hb : s.cpsr.m.spsrBank with
  | none => rw [writeSpsr_of_noSpsr hb] at h; exact (Except.error.inj h).symm
  | some b => rw [writeSpsr_of_bank hb] at h; exact nomatch h

theorem writeCpsr_error {s : State} {value mask : Word} {e : ExecError} (h : s.writeCpsr value mask = .error e) :
    e = .illegalMode := by
  unfold State.writeCpsr at h
  split at h
  · exact (Except.error.inj h).symm
  · exact nomatch h

theorem goesOn_psrWrite (pd : Bool) (value mask : Word) (s : State) : (psrWrite pd value mask s).GoesOn := by
  refine goesOn_ofExcept (fun e he => ?_) (fun t => goesOn_ok t false)
  cases pd
  · rw [writeCpsr_error he]; exact nofun
  · rw [writeSpsr_error he]; exact nofun

theorem psrRead_error {ps : Bool} {s : State} {e : ExecError} (h : psrRead ps s = .error e) :
    e = .invalidModeAccess := by
  unfold psrRead at h
  split at h
  · split at h
    · exact nomatch h
    · next e' he' => exact Except.error.inj h ▸ readSpsr_error he'
  · exact nomatch h

theorem goesOn_moveFromPsr (ps : Bool) (rd : Reg) (s : State) : (moveFromPsr ps rd s).GoesOn := by
  unfold moveFromPsr
  split
  · exact goesOn_ok _ _
  · next e he => rw [psrRead_error he]; exact goesOn_err nofun

theorem goesOn_loadMultiple (p u sb w : Bool) (rn : Reg) (list : BitVec 16) (s : State) :
    (loadMultiple p u sb w rn list s).GoesOn := by
  unfold loadMultiple
  split
  · refine goesOn_ofExcept (fun e he => ?_) (fun t => goesOn_ok _ _)
    obtain rfl | rfl := restoreCpsr_error he <;> exact nofun
  · exact goesOn_ok _ _

/-! ### The effect of each shared form -/

/-- The environment's next fetch address is no status register. -/
theorem PsrEffect.withFetchAddr {i : Instr} {s u : State} (h : PsrEffect i s u) (a : Word) :
    PsrEffect i s { u with fetchAddr := a } := by
  cases h with
  | kept hf hm hs => exact .kept hf hm hs
  | flags hi hm hs => exact .flags hi hm hs
  | cpsr hi hi' hs => exact .cpsr hi hi' hs
  | spsr hi hc => exact .spsr hi hc
  | exception hi hf => exact .exception hi hf

theorem PsrEffect.of_same {i : Instr} {s t : State} (hc : t.cpsr = s.cpsr) (hs : t.spsr = s.spsr) :
    PsrEffect i s t := .kept (by simp [FlagsSame, hc]) (by rw [hc]) hs

/-- An instruction with an S bit: the CPSR is kept with S = 0, the mode in any case. -/
theorem PsrEffect.of_sbit {i : Instr} {s t : State} {sb : Bool} (hi : sb = true → i.MayWriteFlags)
    (hc : sb = false → t.cpsr = s.cpsr) (hm : t.cpsr.m = s.cpsr.m) (hs : t.spsr = s.spsr) : PsrEffect i s t := by
  cases sb
  · exact .of_same (hc rfl) hs
  · exact .flags (hi rfl) hm hs

/-- A meaning under its condition, by what its `Ok` does: a failed condition keeps everything, an exception keeps
the flags. -/
theorem PsrEffect.of_conditionally {i : Instr} {c : Cond} {s t : State} {r : StepResult}
    (h : conditionally c s r = .next t) (hr : r.GoesOn ∨ i.TakesException)
    (hok : ∀ u w, r = .ok u w → PsrEffect i s u) : PsrEffect i s t := by
  obtain ⟨-, rfl⟩ | ⟨-, h⟩ := conditionally_next h
  · exact .of_same rfl rfl
  · obtain ⟨u, hu, rfl⟩ | ⟨u, hu, rfl⟩ | ⟨he, rfl⟩ | ⟨k, he, rfl⟩ := environment_next h
    · exact (hok u _ hu).withFetchAddr _
    · exact (hok u _ hu).withFetchAddr _
    · exact .exception (hr.resolve_left fun hg => hg.1 he) ⟨rfl, rfl, rfl, rfl⟩
    · exact .exception (hr.resolve_left fun hg => hg.2 k he) ⟨rfl, rfl, rfl, rfl⟩

/-- A meaning behind a form check, by what its `Ok` does. -/
theorem PsrEffect.of_unlessForm {i : Instr} {c : Cond} {s t : State} {r : StepResult} {bad : Bool}
    (h : conditionally c s (unlessForm bad r) = .next t) (hr : r.GoesOn)
    (hok : ∀ u w, r = .ok u w → PsrEffect i s u) : PsrEffect i s t :=
  .of_conditionally h (.inl (goesOn_unlessForm bad hr)) fun u w hu => hok u w (unlessForm_ok hu).2

/-- A coprocessor instruction: nothing answers, and the Undefined exception is taken (R363). -/
theorem psrEffect_noCoprocessor {i : Instr} {c : Cond} {s t : State} (hi : i.TakesException)
    (h : conditionally c s noCoprocessor = .next t) : PsrEffect i s t :=
  .of_conditionally h (.inr hi) fun _ _ hu => nomatch (hu : StepResult.err .undefinedInstruction = _)

@[simp] theorem flagsAfter_m (out : AluOut) (sc : Option Bool) (p : Cpsr) : (flagsAfter out sc p).m = p.m := by
  cases out <;> rfl

theorem psrEffect_dataProcessing {op : DpOp} {c : Cond} {sb : Bool} {rn rd : Reg} {o : Operand2} {s u : State}
    {w : Bool} (h : dataProcessing op (sb || op.isCompare) rn rd o s = .ok u w) :
    PsrEffect (.ofDp op c sb rn rd o) s u := by
  obtain ⟨hS, rfl, -, b, p, -, -, rfl⟩ | ⟨-, -, rfl⟩ := dataProcessing_ok h
  · have hi : (Instr.ofDp op c sb rn 15 o).IsRestore := .inl ⟨op, c, sb, rn, o, hS, rfl⟩
    exact .cpsr hi.mayWriteFlags (.inr hi) (by split <;> rfl)
  · refine .of_sbit (fun hS => .inl ⟨op, c, sb, rn, rd, o, hS, rfl⟩) (fun hS => ?_) ?_ ?_
    · simp [hS]
    · dsimp only; split <;> simp
    · dsimp only; split <;> simp

theorem psrEffect_load {i : Instr} {k : LoadKind} {p u w : Bool} {rn rd : Reg} {off : Word} {s t : State} {pw : Bool}
    (h : load k p u w rn rd off s = .ok t pw) : PsrEffect i s t := by
  obtain ⟨-, hc, ⟨hs, -⟩, -⟩ := load_effect h
  exact .of_same hc hs

theorem psrEffect_store {i : Instr} {k : StoreKind} {p u w : Bool} {rn rd : Reg} {off : Word} {s t : State}
    {pw : Bool} (h : store k p u w rn rd off s = .ok t pw) : PsrEffect i s t := by
  obtain ⟨-, hc, ⟨hs, -⟩, -⟩ := store_effect h
  exact .of_same hc hs

theorem psrEffect_swap {i : Instr} {lk : LoadKind} {sk : StoreKind} {rn rd rm : Reg} {s t : State} {pw : Bool}
    (h : swap lk sk rn rd rm s = .ok t pw) : PsrEffect i s t := by
  obtain ⟨-, hc, ⟨hs, -⟩, -⟩ := swap_effect h
  exact .of_same hc hs

theorem psrEffect_multiply {i : Instr} {sb : Bool} {rd rs rm : Reg} {acc : Word} {s t : State} {pw : Bool}
    (hi : sb = true → i.MayWriteFlags) (h : multiply sb rd rs rm acc s = .ok t pw) : PsrEffect i s t := by
  obtain ⟨-, ⟨-, -, -, hm⟩, -, hc, hs, -⟩ := multiply_effect h
  exact .of_sbit hi hc hm hs

theorem psrEffect_writeLong {i : Instr} {sb : Bool} {rdHi rdLo rs rm : Reg} {r : BitVec 64} {s t : State}
    {pw : Bool} (hi : sb = true → i.MayWriteFlags) (h : writeLong sb rdHi rdLo rs rm r s = .ok t pw) :
    PsrEffect i s t := by
  obtain ⟨-, ⟨-, -, -, hm⟩, hc, hs, -⟩ := writeLong_effect h
  exact .of_sbit hi hc hm hs

theorem psrEffect_loadMultiple {c : Cond} {p u sb w : Bool} {rn : Reg} {list : BitVec 16} {s t : State} {pw : Bool}
    (h : loadMultiple p u sb w rn list s = .ok t pw) : PsrEffect (.ldm c p u sb w rn list) s t := by
  obtain ⟨-, -, -, hc, ⟨hs, -⟩, -⟩ := loadedBlock_effect p u sb w rn list s
  obtain ⟨hr, -, b, q, -, -, rfl⟩ | ⟨-, -, rfl⟩ := loadMultiple_ok h
  · obtain ⟨rfl, h15⟩ : sb = true ∧ inList list 15 = true := by simpa [isRestore] using hr
    have hi : (Instr.ldm c p u true w rn list).IsRestore := .inr ⟨c, p, u, w, rn, list, h15, rfl⟩
    exact .cpsr hi.mayWriteFlags (.inr hi) hs
  · exact .of_same hc hs

/-- An MSR of the flag bits to the CPSR writes the four flags and nothing else (R256, R259). -/
theorem psrWrite_cpsr_flags (value : Word) (s : State) :
    psrWrite false value Config.psrFlags s = .ok { s with cpsr := { s.cpsr with
      n := value.getLsbD 31, z := value.getLsbD 30, c := value.getLsbD 29, v := value.getLsbD 28 } } false := by
  unfold psrWrite
  rw [if_neg Bool.false_ne_true, writeCpsr_flags]
  rfl

theorem psrEffect_flagWrite {i : Instr} {pd : Bool} {value : Word} {s t : State} {pw : Bool}
    (hcpsr : pd = false → i.MayWriteFlags) (hspsr : pd = true → i.WritesSpsr)
    (h : psrWrite pd value Config.psrFlags s = .ok t pw) : PsrEffect i s t := by
  cases pd
  · rw [psrWrite_cpsr_flags] at h
    obtain ⟨rfl, -⟩ := StepResult.ok.inj h
    exact .flags (hcpsr rfl) rfl rfl
  · obtain ⟨-, b, -, rfl⟩ := psrWrite_spsr_effect h
    exact .spsr (hspsr rfl) rfl

theorem psrEffect_single {op : SingleOp} {c : Cond} {p u w : Bool} {rn rd : Reg} {o : WordOffset} {s t : State}
    (h : exec (.ofSingle op c p u w rn rd o) s = .next t) : PsrEffect (.ofSingle op c p u w rn rd o) s t := by
  cases op with
  | str =>
    rw [exec_str] at h
    exact .of_unlessForm h (goesOn_ok _ _) fun _ _ => psrEffect_store
  | ldr =>
    rw [exec_ldr] at h
    exact .of_unlessForm h (goesOn_ok _ _) fun _ _ => psrEffect_load
  | strb =>
    rw [exec_strb] at h
    exact .of_unlessForm h (goesOn_ok _ _) fun _ _ => psrEffect_store
  | ldrb =>
    rw [exec_ldrb] at h
    exact .of_unlessForm h (goesOn_ok _ _) fun _ _ => psrEffect_load

theorem psrEffect_half {op : HalfOp} {c : Cond} {p u w : Bool} {rn rd : Reg} {o : HalfOffset} {s t : State}
    (h : exec (.ofHalf op c p u w rn rd o) s = .next t) : PsrEffect (.ofHalf op c p u w rn rd o) s t := by
  cases op with
  | strh =>
    rw [exec_strh] at h
    exact .of_unlessForm h (goesOn_unlessForm _ (goesOn_ok _ _)) fun _ _ hu => psrEffect_store (unlessForm_ok hu).2
  | ldrh =>
    rw [exec_ldrh] at h
    exact .of_unlessForm h (goesOn_unlessForm _ (goesOn_ok _ _)) fun _ _ hu => psrEffect_load (unlessForm_ok hu).2
  | ldrsb =>
    rw [exec_ldrsb] at h
    exact .of_unlessForm h (goesOn_ok _ _) fun _ _ => psrEffect_load
  | ldrsh =>
    rw [exec_ldrsh] at h
    exact .of_unlessForm h (goesOn_unlessForm _ (goesOn_ok _ _)) fun _ _ hu => psrEffect_load (unlessForm_ok hu).2

/-- What any instruction does to the status registers, form by form. -/
theorem exec_psrEffect {i : Instr} {s t : State} (h : exec i s = .next t) : PsrEffect i s t := by
  cases i using Instr.byForm with
  | dp op c sb rn rd o =>
    rw [exec_ofDp] at h
    exact .of_conditionally h (.inl (dataProcessing_goes_on _ _ _ _ _ _)) fun _ _ => psrEffect_dataProcessing
  | single op c p u w rn rd o => exact psrEffect_single h
  | half op c p u w rn rd o => exact psrEffect_half h
  | mrs c ps rd =>
    refine .of_conditionally h (.inl (goesOn_moveFromPsr _ _ _)) fun u w hu => ?_
    obtain ⟨x, -, rfl, -⟩ := moveFromPsr_effect hu
    exact .of_same rfl rfl
  | msrCpsr c rm =>
    refine .of_conditionally h (.inl (goesOn_psrWrite _ _ _ _)) fun u w hu => ?_
    obtain ⟨-, p, -, rfl⟩ := psrWrite_cpsr_effect hu
    exact .cpsr (.inr (.inl ⟨c, rm, rfl⟩)) (.inl ⟨c, rm, rfl⟩) rfl
  | msrSpsr c rm =>
    refine .of_conditionally h (.inl (goesOn_psrWrite _ _ _ _)) fun u w hu => ?_
    obtain ⟨-, b, -, rfl⟩ := psrWrite_spsr_effect hu
    exact .spsr (.inl ⟨c, rm, rfl⟩) rfl
  | msrFlagsReg c pd rm =>
    exact .of_conditionally h (.inl (goesOn_psrWrite _ _ _ _)) fun _ _ => psrEffect_flagWrite
      (by rintro rfl; simp [Instr.MayWriteFlags]) (by rintro rfl; simp [Instr.WritesSpsr])
  | msrFlagsImm c pd rot imm8 =>
    exact .of_conditionally h (.inl (goesOn_psrWrite _ _ _ _)) fun _ _ => psrEffect_flagWrite
      (by rintro rfl; simp [Instr.MayWriteFlags]) (by rintro rfl; simp [Instr.WritesSpsr])
  | mul c sb rd rn rs rm =>
    exact .of_unlessForm h (goesOn_ok _ _) fun _ _ => psrEffect_multiply (by rintro rfl; simp [Instr.MayWriteFlags])
  | mla c sb rd rn rs rm =>
    exact .of_unlessForm h (goesOn_ok _ _) fun _ _ => psrEffect_multiply (by rintro rfl; simp [Instr.MayWriteFlags])
  | umull c sb rdHi rdLo rs rm =>
    exact .of_unlessForm h (goesOn_ok _ _) fun _ _ => psrEffect_writeLong (by rintro rfl; simp [Instr.MayWriteFlags])
  | umlal c sb rdHi rdLo rs rm =>
    exact .of_unlessForm h (goesOn_ok _ _) fun _ _ => psrEffect_writeLong (by rintro rfl; simp [Instr.MayWriteFlags])
  | smull c sb rdHi rdLo rs rm =>
    exact .of_unlessForm h (goesOn_ok _ _) fun _ _ => psrEffect_writeLong (by rintro rfl; simp [Instr.MayWriteFlags])
  | smlal c sb rdHi rdLo rs rm =>
    exact .of_unlessForm h (goesOn_ok _ _) fun _ _ => psrEffect_writeLong (by rintro rfl; simp [Instr.MayWriteFlags])
  | swp c rn rd rm =>
    exact .of_unlessForm h (goesOn_ok _ _) fun _ _ => psrEffect_swap
  | swpb c rn rd rm =>
    exact .of_unlessForm h (goesOn_ok _ _) fun _ _ => psrEffect_swap
  | bx c rn =>
    refine .of_conditionally h (.inl (goesOn_ok _ _)) fun u w hu => ?_
    obtain ⟨rfl, -⟩ := StepResult.ok.inj hu
    exact .kept ⟨rfl, rfl, rfl, rfl⟩ rfl rfl
  | stm c p u sb w rn list =>
    refine .of_unlessForm h (goesOn_ok _ _) fun _ _ hu => ?_
    obtain ⟨-, -, hc, ⟨hs, -⟩, -⟩ := storeMultiple_effect hu
    exact .of_same hc hs
  | ldm c p u sb w rn list =>
    exact .of_unlessForm h (goesOn_loadMultiple _ _ _ _ _ _ _) fun _ _ => psrEffect_loadMultiple
  | b c offset24 =>
    refine .of_conditionally h (.inl (goesOn_ok _ _)) fun u w hu => ?_
    obtain ⟨rfl, -⟩ := StepResult.ok.inj hu
    exact .of_same rfl rfl
  | bl c offset24 =>
    refine .of_conditionally h (.inl (goesOn_ok _ _)) fun u w hu => ?_
    obtain ⟨rfl, -⟩ := StepResult.ok.inj hu
    exact .of_same rfl rfl
  | stc => exact psrEffect_noCoprocessor (by simp [Instr.TakesException]) h
  | ldc => exact psrEffect_noCoprocessor (by simp [Instr.TakesException]) h
  | cdp => exact psrEffect_noCoprocessor (by simp [Instr.TakesException]) h
  | mcr => exact psrEffect_noCoprocessor (by simp [Instr.TakesException]) h
  | mrc => exact psrEffect_noCoprocessor (by simp [Instr.TakesException]) h
  | swi => exact .of_conditionally h (.inr (by simp [Instr.TakesException])) fun _ _ hu => nomatch hu
  | undefined => exact .of_conditionally h (.inr (by simp [Instr.TakesException])) fun _ _ hu => nomatch hu

/-! ### The condition -/

/-- Every arm of the dispatcher is a meaning under the instruction's own condition (R91, R140). -/
theorem exec_conditional (i : Instr) (s : State) : ∃ r, exec i s = conditionally i.cond s r := by
  cases i <;> exact ⟨_, rfl⟩

/-- With a failed condition an instruction only moves on to the next address (R143). -/
theorem exec_of_fails {i : Instr} {s : State} (h : s.passes i.cond = false) :
    exec i s = .next { s with fetchAddr := s.fetchAddr + 4 } := by
  obtain ⟨r, hr⟩ := exec_conditional i s
  rw [hr, conditionally_of_fails h]

/-! ### The two statements -/

/-- Settles O57: a flag changes only in the two effects that need a listed instruction, and a failed condition keeps
them all. -/
theorem onlyListedInstructionsWriteFlags : Obligations.OnlyListedInstructionsWriteFlags := by
  unfold Obligations.OnlyListedInstructionsWriteFlags
  intro i s t h hne
  constructor
  · cases exec_psrEffect h with
    | kept hf _ _ => exact absurd hf hne
    | flags hi _ _ => exact hi
    | cpsr hi _ _ => exact hi
    | spsr _ hc => exact absurd (by simp [FlagsSame, hc]) hne
    | exception _ hf => exact absurd hf hne
  · by_contra hp
    rw [exec_of_fails (by simpa using hp)] at h
    obtain rfl := Host.Outcome.next.inj h
    exact hne ⟨rfl, rfl, rfl, rfl⟩

/-- Settles O59: the mode and the SPSRs by the five effects on the status registers. -/
theorem onlyListedInstructionsChangeMode : Obligations.OnlyListedInstructionsChangeMode := by
  unfold Obligations.OnlyListedInstructionsChangeMode
  intro i s t h
  cases exec_psrEffect h with
  | kept _ hm hs => exact ⟨fun hne => absurd hm hne, fun hne => absurd hs hne⟩
  | flags _ hm hs => exact ⟨fun hne => absurd hm hne, fun hne => absurd hs hne⟩
  | cpsr _ hi hs => exact ⟨fun _ => .inl hi, fun hne => absurd hs hne⟩
  | spsr hi hc => exact ⟨fun hne => absurd (by rw [hc]) hne, fun _ => hi.imp_right (·.imp_right .inl)⟩
  | exception hi _ => exact ⟨fun _ => .inr hi, fun _ => .inr (.inr (.inr hi))⟩

end Sys2Proof.Machine

namespace Sys2Proof.Machine

/-! ## Little-endian memory (R61, R64) -/

/-- A word read as a number: its four bytes, lowest address least significant (R64). -/
theorem read32_toNat (s : State) (a : Word) :
    (s.read32 a).toNat = (s.read8 a).toNat + 2 ^ 8 * (s.read8 (a + 1)).toNat + 2 ^ 16 * (s.read8 (a + 2)).toNat +
      2 ^ 24 * (s.read8 (a + 3)).toNat := by
  simp only [State.read32, toNat_append_eq_add]
  omega

/-- A halfword read as a number: its two bytes, lowest address least significant (R64). -/
theorem read16_toNat (s : State) (a : Word) :
    (s.read16 a).toNat = (s.read8 a).toNat + 2 ^ 8 * (s.read8 (a + 1)).toNat := by
  simp only [State.read16, toNat_append_eq_add]
  omega

theorem memSameExcept_write16 (s : State) (a : Word) (x : BitVec 16) :
    MemSameExcept [a, a + 1] s (s.write16 a x) := fun b hb => by
  simp only [List.mem_cons, List.not_mem_nil, or_false, not_or] at hb
  exact read8_write16_ne s x hb.1 hb.2

/-- The two bytes of a halfword write, lowest first. -/
theorem read8_write16 {s : State} (a : Word) (x : BitVec 16) (h : Memory.wf s.mem = true) :
    (s.write16 a x).read8 a = x.extractLsb' 0 8 ∧ (s.write16 a x).read8 (a + 1) = x.extractLsb' 8 8 := by
  unfold State.write16
  constructor
  · rw [read8_write8_ne _ _ (by bv_omega), read8_write8_self _ _ h]
  · exact read8_write8_self _ _ (wf_write8 _ _ h)

/-- Settles O36: the reads as numbers, and the bytes inside and outside what a write covers. -/
theorem littleEndianMemory : Obligations.LittleEndianMemory := by
  unfold Obligations.LittleEndianMemory
  intro s a v h
  refine ⟨read32_toNat s a, read16_toNat s a, rfl, memSameExcept_write32 s a v, memSameExcept_write16 s a h,
    fun hw => ?_⟩
  obtain ⟨h0, h1, h2, h3⟩ := read8_write32 a v hw
  exact ⟨h0, h1, h2, h3, read8_write16 a h hw⟩

/-! ## Misaligned word loads (R65, R66) -/

/-- Byte `k` of a word read is the byte at the `k`-th address from `a` (R64). -/
theorem byte_read32 (s : State) (a : Word) {k : Nat} (hk : k < 4) :
    (s.read32 a).extractLsb' (8 * k) 8 = s.read8 (a + BitVec.ofNat 32 k) := by
  apply BitVec.eq_of_toNat_eq
  rw [BitVec.extractLsb'_toNat, read32_toNat, Nat.shiftRight_eq_div_pow]
  have h0 := (s.read8 a).isLt
  have h1 := (s.read8 (a + 1)).isLt
  have h2 := (s.read8 (a + 2)).isLt
  have h3 := (s.read8 (a + 3)).isLt
  obtain rfl | rfl | rfl | rfl : k = 0 ∨ k = 1 ∨ k = 2 ∨ k = 3 := by omega
  · rw [BitVec.add_zero]; omega
  · change _ = (s.read8 (a + 1)).toNat; omega
  · change _ = (s.read8 (a + 2)).toNat; omega
  · change _ = (s.read8 (a + 3)).toNat; omega

/-- Rotating a word right by `k` bytes moves byte `(j + k) mod 4` to place `j`. -/
theorem byte_rotateRight (x : Word) {j k : Nat} (hj : j < 4) (hk : k < 4) :
    (x.rotateRight (8 * k)).extractLsb' (8 * j) 8 = x.extractLsb' (8 * ((j + k) % 4)) 8 := by
  apply BitVec.eq_of_getLsbD_eq
  intro i hi
  simp only [BitVec.getLsbD_extractLsb', BitVec.getLsbD_rotateRight, hi, decide_true, Bool.true_and]
  by_cases hjk : j + k < 4
  · rw [decide_eq_true (by omega), cond_true]
    congr 1
    omega
  · rw [decide_eq_false (by omega), cond_false, decide_eq_true (by omega), Bool.true_and]
    congr 1
    omega

theorem rotateRight_zero (x : Word) : x.rotateRight 0 = x := by
  ext i hi
  simp [hi]

/-- A load at `ea` rotates the aligned word by as many bytes as `ea` is past it (R66). -/
theorem loadWordRotated_eq (s : State) (ea : Word) :
    s.loadWordRotated ea = (s.read32 (alignWord ea)).rotateRight (8 * (ea.toNat % 4)) := by
  rw [State.loadWordRotated, BitVec.extractLsb'_toNat, Nat.shiftRight_zero]

theorem alignWord_of_aligned {ea : Word} (h : ea.toNat % 4 = 0) : alignWord ea = ea := by
  apply BitVec.eq_of_toNat_eq
  rw [alignWord_toNat]
  omega

/-- Settles O37: the rotation byte by byte, and no rotation at an aligned address. -/
theorem misalignedLoadRotates : Obligations.MisalignedLoadRotates := by
  unfold Obligations.MisalignedLoadRotates
  intro s ea
  rw [loadWordRotated_eq]
  constructor
  · intro j hj
    rw [byte_rotateRight _ hj (Nat.mod_lt _ (by decide)), byte_read32 _ _ (Nat.mod_lt _ (by decide)), alignWord]
  · intro hea
    rw [hea, alignWord_of_aligned hea]
    exact rotateRight_zero _

/-! ## Instructions that leave memory alone (R67, R69) -/

/-- A meaning whose `Ok` keeps memory keeps it under its condition: a failed condition and an exception write no
memory (R69). -/
theorem conditionally_mem {c : Cond} {s t : State} {r : StepResult} (h : conditionally c s r = .next t)
    (hok : ∀ u w, r = .ok u w → u.mem = s.mem) : t.mem = s.mem := by
  obtain ⟨-, rfl⟩ | ⟨-, h⟩ := conditionally_next h
  · rfl
  · obtain ⟨u, hu, rfl⟩ | ⟨u, hu, rfl⟩ | ⟨-, rfl⟩ | ⟨k, -, rfl⟩ := environment_next h
    · exact hok u _ hu
    · exact hok u _ hu
    · rfl
    · rfl

/-- The same behind a form check. -/
theorem conditionally_unlessForm_mem {c : Cond} {s t : State} {r : StepResult} {bad : Bool}
    (h : conditionally c s (unlessForm bad r) = .next t) (hok : ∀ u w, r = .ok u w → u.mem = s.mem) :
    t.mem = s.mem :=
  conditionally_mem h fun u w hu => hok u w (unlessForm_ok hu).2

theorem dataProcessing_mem {op : DpOp} {sb : Bool} {rn rd : Reg} {o : Operand2} {s u : State} {w : Bool}
    (h : dataProcessing op sb rn rd o s = .ok u w) : u.mem = s.mem := by
  obtain ⟨-, -, -, b, p, -, -, rfl⟩ | ⟨-, -, rfl⟩ := dataProcessing_ok h
  · split <;> rfl
  · dsimp only; split <;> rfl

theorem load_mem {k : LoadKind} {p u w : Bool} {rn rd : Reg} {off : Word} {s t : State} {pw : Bool}
    (h : load k p u w rn rd off s = .ok t pw) : t.mem = s.mem := by
  obtain ⟨-, -, -, hm, -⟩ := load_effect h
  exact hm

theorem multiply_mem {sb : Bool} {rd rs rm : Reg} {acc : Word} {s t : State} {pw : Bool}
    (h : multiply sb rd rs rm acc s = .ok t pw) : t.mem = s.mem := by
  obtain ⟨-, -, -, -, -, -, -, hm, -⟩ := multiply_effect h
  exact hm

theorem writeLong_mem {sb : Bool} {rdHi rdLo rs rm : Reg} {r : BitVec 64} {s t : State} {pw : Bool}
    (h : writeLong sb rdHi rdLo rs rm r s = .ok t pw) : t.mem = s.mem := by
  obtain ⟨-, -, -, -, -, -, hm, -⟩ := writeLong_effect h
  exact hm

theorem moveFromPsr_mem {ps : Bool} {rd : Reg} {s t : State} {pw : Bool} (h : moveFromPsr ps rd s = .ok t pw) :
    t.mem = s.mem := by
  obtain ⟨x, -, rfl, -⟩ := moveFromPsr_effect h
  rfl

theorem psrWrite_mem {pd : Bool} {value mask : Word} {s t : State} {pw : Bool}
    (h : psrWrite pd value mask s = .ok t pw) : t.mem = s.mem := by
  cases pd with
  | false => obtain ⟨-, p, -, rfl⟩ := psrWrite_cpsr_effect h; rfl
  | true => obtain ⟨-, b, -, rfl⟩ := psrWrite_spsr_effect h; rfl

theorem loadMultiple_mem {p u sb w : Bool} {rn : Reg} {list : BitVec 16} {s t : State} {pw : Bool}
    (h : loadMultiple p u sb w rn list s = .ok t pw) : t.mem = s.mem := by
  obtain ⟨-, -, -, -, -, hm, -⟩ := loadedBlock_effect p u sb w rn list s
  obtain ⟨-, -, b, q, -, -, rfl⟩ | ⟨-, -, rfl⟩ := loadMultiple_ok h <;> exact hm

/-- LDR and LDRB write no memory (R67). -/
theorem exec_single_load_mem {op : SingleOp} {c : Cond} {p u w : Bool} {rn rd : Reg} {o : WordOffset} {s t : State}
    (hl : op.load = true) (h : exec (.ofSingle op c p u w rn rd o) s = .next t) : t.mem = s.mem := by
  cases op with
  | ldr => rw [exec_ldr] at h; exact conditionally_unlessForm_mem h fun _ _ => load_mem
  | ldrb => rw [exec_ldrb] at h; exact conditionally_unlessForm_mem h fun _ _ => load_mem
  | str | strb => exact nomatch hl

/-- LDRH, LDRSB and LDRSH write no memory (R67). -/
theorem exec_half_load_mem {op : HalfOp} {c : Cond} {p u w : Bool} {rn rd : Reg} {o : HalfOffset} {s t : State}
    (hl : op.load = true) (h : exec (.ofHalf op c p u w rn rd o) s = .next t) : t.mem = s.mem := by
  cases op with
  | ldrh =>
    rw [exec_ldrh] at h
    exact conditionally_unlessForm_mem h fun _ _ hu => load_mem (unlessForm_ok hu).2
  | ldrsb => rw [exec_ldrsb] at h; exact conditionally_unlessForm_mem h fun _ _ => load_mem
  | ldrsh =>
    rw [exec_ldrsh] at h
    exact conditionally_unlessForm_mem h fun _ _ hu => load_mem (unlessForm_ok hu).2
  | strh => exact nomatch hl

/-- A coprocessor instruction writes no memory: nothing answers it (R363). -/
theorem noCoprocessor_mem {c : Cond} {s t : State} (h : conditionally c s noCoprocessor = .next t) : t.mem = s.mem :=
  conditionally_mem h fun _ _ hu => nomatch (hu : StepResult.err .undefinedInstruction = _)

/-- Any instruction is a store, an STM or a swap, or it keeps the whole memory, form by form (R67, R69). -/
theorem exec_mayStore_or_mem {i : Instr} {s t : State} (h : exec i s = .next t) : i.MayStore ∨ t.mem = s.mem := by
  cases i using Instr.byForm with
  | dp op c sb rn rd o =>
    rw [exec_ofDp] at h
    exact .inr (conditionally_mem h fun _ _ => dataProcessing_mem)
  | single op c p u w rn rd o =>
    cases hl : op.load with
    | true => exact .inr (exec_single_load_mem hl h)
    | false => exact .inl (.inl ⟨op, c, p, u, w, rn, rd, o, hl, rfl⟩)
  | half op c p u w rn rd o =>
    cases hl : op.load with
    | true => exact .inr (exec_half_load_mem hl h)
    | false =>
      cases op with
      | strh => exact .inl (.inr (.inl ⟨c, p, u, w, rn, rd, o, rfl⟩))
      | ldrh | ldrsb | ldrsh => exact nomatch hl
  | stm c p u sb w rn list => exact .inl (.inr (.inr (.inl ⟨c, p, u, sb, w, rn, list, rfl⟩)))
  | swp c rn rd rm => exact .inl (.inr (.inr (.inr (.inl ⟨c, rn, rd, rm, rfl⟩))))
  | swpb c rn rd rm => exact .inl (.inr (.inr (.inr (.inr ⟨c, rn, rd, rm, rfl⟩))))
  | mrs c ps rd => exact .inr (conditionally_mem h fun _ _ => moveFromPsr_mem)
  | msrCpsr c rm => exact .inr (conditionally_mem h fun _ _ => psrWrite_mem)
  | msrSpsr c rm => exact .inr (conditionally_mem h fun _ _ => psrWrite_mem)
  | msrFlagsReg c pd rm => exact .inr (conditionally_mem h fun _ _ => psrWrite_mem)
  | msrFlagsImm c pd rot imm8 => exact .inr (conditionally_mem h fun _ _ => psrWrite_mem)
  | mul c sb rd rn rs rm => exact .inr (conditionally_unlessForm_mem h fun _ _ => multiply_mem)
  | mla c sb rd rn rs rm => exact .inr (conditionally_unlessForm_mem h fun _ _ => multiply_mem)
  | umull c sb rdHi rdLo rs rm => exact .inr (conditionally_unlessForm_mem h fun _ _ => writeLong_mem)
  | umlal c sb rdHi rdLo rs rm => exact .inr (conditionally_unlessForm_mem h fun _ _ => writeLong_mem)
  | smull c sb rdHi rdLo rs rm => exact .inr (conditionally_unlessForm_mem h fun _ _ => writeLong_mem)
  | smlal c sb rdHi rdLo rs rm => exact .inr (conditionally_unlessForm_mem h fun _ _ => writeLong_mem)
  | ldm c p u sb w rn list => exact .inr (conditionally_unlessForm_mem h fun _ _ => loadMultiple_mem)
  | bx c rn => exact .inr (conditionally_mem h fun _ _ hu => (StepResult.ok.inj hu).1 ▸ rfl)
  | b c offset24 => exact .inr (conditionally_mem h fun _ _ hu => (StepResult.ok.inj hu).1 ▸ rfl)
  | bl c offset24 => exact .inr (conditionally_mem h fun _ _ hu => (StepResult.ok.inj hu).1 ▸ rfl)
  | stc => exact .inr (noCoprocessor_mem h)
  | ldc => exact .inr (noCoprocessor_mem h)
  | cdp => exact .inr (noCoprocessor_mem h)
  | mcr => exact .inr (noCoprocessor_mem h)
  | mrc => exact .inr (noCoprocessor_mem h)
  | swi => exact .inr (conditionally_mem h fun _ _ hu => nomatch hu)
  | undefined => exact .inr (conditionally_mem h fun _ _ hu => nomatch hu)

/-- Settles O58: an instruction outside the list keeps memory, so no byte reads otherwise. -/
theorem onlyStoresWriteMemory : Obligations.OnlyStoresWriteMemory := by
  unfold Obligations.OnlyStoresWriteMemory
  intro i s t a h hne
  exact (exec_mayStore_or_mem h).resolve_right fun hm => hne (read8_congr hm a)

end Sys2Proof.Machine

namespace Sys2Proof

/-! ## Fields of a word (R14, R91)

A format of R94 to R111 is a concatenation of fields. A word is that concatenation exactly when it has each field at
its place, so every `encode... = w` becomes a list of equations about the bits of `w`. -/

/-- The field `x` stands in `w` from bit `lo` up. -/
def HasField (w : Word) (lo : Nat) {n : Nat} (x : BitVec n) : Prop := bits w lo n = x

theorem eq_iff_hasField (x w : Word) : x = w ↔ HasField w 0 x := by
  unfold HasField
  rw [bits_all]
  exact eq_comm

theorem hasField_append (w : Word) (lo : Nat) {n m : Nat} (a : BitVec n) (b : BitVec m) :
    HasField w lo (a ++ b) ↔ HasField w (lo + m) a ∧ HasField w lo b := by
  unfold HasField
  constructor
  · intro h
    have hhigh : bits w (lo + m) n = (a ++ b).extractLsb' m n := h ▸ field_sub w (by omega)
    have hlow : bits w (lo + 0) m = (a ++ b).extractLsb' 0 m := h ▸ field_sub w (by omega)
    exact ⟨hhigh.trans BitVec.extractLsb'_append_eq_left, hlow.trans BitVec.extractLsb'_append_eq_right⟩
  · rintro ⟨rfl, rfl⟩
    exact (field_join w rfl).symm

theorem hasField_flag (w : Word) (lo : Nat) (b : Bool) : HasField w lo (flag b) ↔ bit w lo = b := by
  unfold HasField
  rw [← flag_bit]
  exact ⟨fun h => by simpa [flag] using congrArg (·.getLsbD 0) h, congrArg flag⟩

theorem hasField_one (w : Word) (lo : Nat) : HasField w lo 1#1 ↔ bit w lo = true := hasField_flag w lo true

theorem hasField_zero (w : Word) (lo : Nat) : HasField w lo 0#1 ↔ bit w lo = false := hasField_flag w lo false

theorem hasField_regBits (w : Word) (lo : Nat) (r : Reg) : HasField w lo (regBits r) ↔ regAt w lo = r :=
  ⟨fun h => congrArg BitVec.toFin h, fun h => congrArg regBits h⟩

theorem hasField_condBits (w : Word) (lo : Nat) (c : Cond) :
    HasField w lo c.bits ↔ Cond.ofBits (bits w lo 4) = c :=
  ⟨fun h => (congrArg Cond.ofBits h).trans c.ofBits_bits,
    fun h => (Cond.bits_ofBits _).symm.trans (congrArg Cond.bits h)⟩

theorem hasField_shiftKindBits (w : Word) (lo : Nat) (k : ShiftKind) :
    HasField w lo k.bits ↔ ShiftKind.ofBits (bits w lo 2) = k :=
  ⟨fun h => (congrArg ShiftKind.ofBits h).trans k.ofBits_bits,
    fun h => (ShiftKind.bits_ofBits _).symm.trans (congrArg ShiftKind.bits h)⟩

theorem hasField_dpOpBits (w : Word) (lo : Nat) (op : DpOp) :
    HasField w lo op.bits ↔ DpOp.ofBits (bits w lo 4) = op :=
  ⟨fun h => (congrArg DpOp.ofBits h).trans op.ofBits_bits,
    fun h => (DpOp.bits_ofBits _).symm.trans (congrArg DpOp.bits h)⟩

/-- Part of a field, as one bit. -/
theorem bit_sub {w : Word} {k l d : Nat} (h : d < l) : bit w (k + d) = (bits w k l).getLsbD d := by
  simp [bit, bits, h]

theorem bits_26_of_25 (w : Word) : bits w 26 2 = (bits w 25 3).extractLsb' 1 2 := field_sub (d := 1) w (by decide)

theorem bits_25_of_24 (w : Word) : bits w 25 3 = (bits w 24 4).extractLsb' 1 3 := field_sub (d := 1) w (by decide)

theorem bits_23_of_22 (w : Word) : bits w 23 2 = (bits w 22 3).extractLsb' 1 2 := field_sub (d := 1) w (by decide)

theorem bits_23_of_21 (w : Word) : bits w 23 2 = (bits w 21 4).extractLsb' 2 2 := field_sub (d := 2) w (by decide)

theorem bits_17_of_16 (w : Word) : bits w 17 5 = (bits w 16 6).extractLsb' 1 5 := field_sub (d := 1) w (by decide)

/-! ### Constant fields of the formats, cut where the tests of R93 and R120 cut them -/

theorem hasField_class (w : Word) (lo : Nat) (a : BitVec 2) (b : Bool) :
    HasField w lo (a ++ flag b) ↔ bits w (lo + 1) 2 = a ∧ bit w lo = b :=
  (hasField_append w lo a (flag b)).trans (and_congr_right' (hasField_flag w lo b))

/-- Bits 27:25 as the class in bits 27:26 and the bit I. -/
theorem bits_class_iff (w : Word) (a : BitVec 2) (b : Bool) :
    bits w 25 3 = a ++ flag b ↔ bits w 26 2 = a ∧ bit w 25 = b :=
  hasField_class w 25 a b

theorem hasField_000 (w : Word) (lo : Nat) : HasField w lo 0b000#3 ↔ bits w (lo + 1) 2 = 0b00#2 ∧ bit w lo = false :=
  hasField_class w lo 0b00#2 false

theorem hasField_001 (w : Word) (lo : Nat) : HasField w lo 0b001#3 ↔ bits w (lo + 1) 2 = 0b00#2 ∧ bit w lo = true :=
  hasField_class w lo 0b00#2 true

theorem hasField_010 (w : Word) (lo : Nat) : HasField w lo 0b010#3 ↔ bits w (lo + 1) 2 = 0b01#2 ∧ bit w lo = false :=
  hasField_class w lo 0b01#2 false

theorem hasField_011 (w : Word) (lo : Nat) : HasField w lo 0b011#3 ↔ bits w (lo + 1) 2 = 0b01#2 ∧ bit w lo = true :=
  hasField_class w lo 0b01#2 true

/-- Bits 27:22 of a multiply. -/
theorem hasField_multiplySpace (w : Word) (lo : Nat) :
    HasField w lo 0b000000#6 ↔ bits w (lo + 3) 3 = 0b000#3 ∧ bits w lo 3 = 0b000#3 :=
  hasField_append w lo 0b000#3 0b000#3

/-- Bits 27:23 of a long multiply. -/
theorem hasField_longSpace (w : Word) (lo : Nat) :
    HasField w lo 0b00001#5 ↔ bits w (lo + 2) 3 = 0b000#3 ∧ bits w lo 2 = 0b01#2 :=
  hasField_append w lo 0b000#3 0b01#2

/-- Bits 27:23 of a swap, and of MRS and MSR from a register. -/
theorem hasField_00010 (w : Word) (lo : Nat) :
    HasField w lo 0b00010#5 ↔ bits w (lo + 2) 3 = 0b000#3 ∧ bits w lo 2 = 0b10#2 :=
  hasField_append w lo 0b000#3 0b10#2

/-- Bits 27:23 of MSR from an immediate. -/
theorem hasField_msrImmSpace (w : Word) (lo : Nat) :
    HasField w lo 0b00110#5 ↔ (bits w (lo + 3) 2 = 0b00#2 ∧ bit w (lo + 2) = true) ∧ bits w lo 2 = 0b10#2 :=
  (hasField_append w lo 0b001#3 0b10#2).trans (and_congr_left' (hasField_001 w _))

/-- Bits 7:4 of the multiplies and of a swap. -/
theorem hasField_1001 (w : Word) (lo : Nat) :
    HasField w lo 0b1001#4 ↔ bit w (lo + 3) = true ∧ bits w (lo + 1) 2 = 0b00#2 ∧ bit w lo = true := by
  rw [← hasField_one, ← hasField_one]
  calc HasField w lo ((1#1 ++ 0b00#2) ++ 1#1)
      ↔ HasField w (lo + 1) (1#1 ++ 0b00#2) ∧ HasField w lo 1#1 := hasField_append ..
    _ ↔ (HasField w (lo + 3) 1#1 ∧ HasField w (lo + 1) 0b00#2) ∧ HasField w lo 1#1 :=
        and_congr_left' (hasField_append ..)
    _ ↔ _ := and_assoc

/-- Bits 11:4 of a swap. -/
theorem hasField_00001001 (w : Word) (lo : Nat) :
    HasField w lo 0b00001001#8 ↔ bits w (lo + 4) 4 = 0#4 ∧ HasField w lo 0b1001#4 :=
  hasField_append w lo 0#4 0b1001#4

/-! ## The formats as equations about the word (R94 to R111) -/

/-- The condition field, bits 31:28 (R91). -/
abbrev condAt (w : Word) : Cond := Cond.ofBits (bits w 28 4)

theorem encodeDp_imm_eq_iff {op : DpOp} {c : Cond} {sb : Bool} {rn rd : Reg} {rot : BitVec 4} {imm8 : BitVec 8}
    {w : Word} :
    encodeDp op c sb rn rd (.imm rot imm8) = w ↔
      condAt w = c ∧ bits w 26 2 = 0b00#2 ∧ bit w 25 = true ∧ DpOp.ofBits (bits w 21 4) = op ∧ bit w 20 = sb ∧
      regAt w 16 = rn ∧ regAt w 12 = rd ∧ bits w 8 4 = rot ∧ bits w 0 8 = imm8 := by
  rw [eq_iff_hasField, encodeDp]
  simp only [hasField_append, hasField_condBits, hasField_001, hasField_dpOpBits, hasField_flag, hasField_regBits,
    and_assoc]
  rfl

theorem encodeDp_shiftImm_eq_iff {op : DpOp} {c : Cond} {sb : Bool} {rn rd : Reg} {amount5 : BitVec 5}
    {kind : ShiftKind} {rm : Reg} {w : Word} :
    encodeDp op c sb rn rd (.shiftImm amount5 kind rm) = w ↔
      condAt w = c ∧ bits w 26 2 = 0b00#2 ∧ bit w 25 = false ∧ DpOp.ofBits (bits w 21 4) = op ∧ bit w 20 = sb ∧
      regAt w 16 = rn ∧ regAt w 12 = rd ∧ bits w 7 5 = amount5 ∧ ShiftKind.ofBits (bits w 5 2) = kind ∧
      bit w 4 = false ∧ regAt w 0 = rm := by
  rw [eq_iff_hasField, encodeDp]
  simp only [hasField_append, hasField_condBits, hasField_000, hasField_dpOpBits, hasField_flag, hasField_regBits,
    hasField_shiftKindBits, hasField_zero, and_assoc]
  rfl

theorem encodeDp_shiftReg_eq_iff {op : DpOp} {c : Cond} {sb : Bool} {rn rd rs rm : Reg} {kind : ShiftKind} {w : Word} :
    encodeDp op c sb rn rd (.shiftReg rs kind rm) = w ↔
      condAt w = c ∧ bits w 26 2 = 0b00#2 ∧ bit w 25 = false ∧ DpOp.ofBits (bits w 21 4) = op ∧ bit w 20 = sb ∧
      regAt w 16 = rn ∧ regAt w 12 = rd ∧ regAt w 8 = rs ∧ bit w 7 = false ∧ ShiftKind.ofBits (bits w 5 2) = kind ∧
      bit w 4 = true ∧ regAt w 0 = rm := by
  rw [eq_iff_hasField, encodeDp]
  simp only [hasField_append, hasField_condBits, hasField_000, hasField_dpOpBits, hasField_flag, hasField_regBits,
    hasField_shiftKindBits, hasField_zero, hasField_one, and_assoc]

theorem encode_mrs_eq_iff {c : Cond} {ps : Bool} {rd : Reg} {w : Word} :
    encode (.mrs c ps rd) = w ↔
      condAt w = c ∧ bits w 25 3 = 0b000#3 ∧ bits w 23 2 = 0b10#2 ∧ bit w 22 = ps ∧ bits w 16 6 = 0b001111#6 ∧
      regAt w 12 = rd ∧ bits w 0 12 = 0#12 := by
  rw [eq_iff_hasField, encode]
  simp only [hasField_append, hasField_condBits, hasField_00010, hasField_flag, hasField_regBits, and_assoc]
  rfl

theorem encodeMsrReg_eq_iff {c : Cond} {pd full : Bool} {rm : Reg} {w : Word} :
    encodeMsrReg c pd full rm = w ↔
      condAt w = c ∧ bits w 25 3 = 0b000#3 ∧ bits w 23 2 = 0b10#2 ∧ bit w 22 = pd ∧ bits w 17 5 = 0b10100#5 ∧
      bit w 16 = full ∧ bits w 12 4 = 0b1111#4 ∧ bits w 4 8 = 0#8 ∧ regAt w 0 = rm := by
  rw [eq_iff_hasField, encodeMsrReg]
  simp only [hasField_append, hasField_condBits, hasField_00010, hasField_flag, hasField_regBits, and_assoc]
  rfl

theorem encode_msrFlagsImm_eq_iff {c : Cond} {pd : Bool} {rot : BitVec 4} {imm8 : BitVec 8} {w : Word} :
    encode (.msrFlagsImm c pd rot imm8) = w ↔
      condAt w = c ∧ bits w 26 2 = 0b00#2 ∧ bit w 25 = true ∧ bits w 23 2 = 0b10#2 ∧ bit w 22 = pd ∧
      bits w 16 6 = 0b101000#6 ∧ bits w 12 4 = 0b1111#4 ∧ bits w 8 4 = rot ∧ bits w 0 8 = imm8 := by
  rw [eq_iff_hasField, encode]
  simp only [hasField_append, hasField_condBits, hasField_flag, hasField_msrImmSpace, and_assoc]
  rfl

theorem encodeMultiply_eq_iff {c : Cond} {a sb : Bool} {rd rn rs rm : Reg} {w : Word} :
    encodeMultiply c a sb rd rn rs rm = w ↔
      condAt w = c ∧ bits w 25 3 = 0b000#3 ∧ bits w 22 3 = 0b000#3 ∧ bit w 21 = a ∧ bit w 20 = sb ∧
      regAt w 16 = rd ∧ regAt w 12 = rn ∧ regAt w 8 = rs ∧
      bit w 7 = true ∧ bits w 5 2 = 0b00#2 ∧ bit w 4 = true ∧ regAt w 0 = rm := by
  rw [eq_iff_hasField, encodeMultiply]
  simp only [hasField_append, hasField_condBits, hasField_multiplySpace, hasField_flag, hasField_regBits,
    hasField_1001, and_assoc]

theorem encodeMultiplyLong_eq_iff {c : Cond} {u a sb : Bool} {rdHi rdLo rs rm : Reg} {w : Word} :
    encodeMultiplyLong c u a sb rdHi rdLo rs rm = w ↔
      condAt w = c ∧ bits w 25 3 = 0b000#3 ∧ bits w 23 2 = 0b01#2 ∧ bit w 22 = u ∧ bit w 21 = a ∧ bit w 20 = sb ∧
      regAt w 16 = rdHi ∧ regAt w 12 = rdLo ∧ regAt w 8 = rs ∧
      bit w 7 = true ∧ bits w 5 2 = 0b00#2 ∧ bit w 4 = true ∧ regAt w 0 = rm := by
  rw [eq_iff_hasField, encodeMultiplyLong]
  simp only [hasField_append, hasField_condBits, hasField_longSpace, hasField_flag, hasField_regBits,
    hasField_1001, and_assoc]

theorem encodeSwap_eq_iff {c : Cond} {b : Bool} {rn rd rm : Reg} {w : Word} :
    encodeSwap c b rn rd rm = w ↔
      condAt w = c ∧ bits w 25 3 = 0b000#3 ∧ bits w 23 2 = 0b10#2 ∧ bit w 22 = b ∧ bits w 20 2 = 0b00#2 ∧
      regAt w 16 = rn ∧ regAt w 12 = rd ∧ bits w 8 4 = 0b0000#4 ∧
      bit w 7 = true ∧ bits w 5 2 = 0b00#2 ∧ bit w 4 = true ∧ regAt w 0 = rm := by
  rw [eq_iff_hasField, encodeSwap]
  simp only [hasField_append, hasField_condBits, hasField_00010, hasField_flag, hasField_regBits,
    hasField_00001001, hasField_1001, and_assoc]
  rfl

theorem encode_bx_eq_iff {c : Cond} {rn : Reg} {w : Word} :
    encode (.bx c rn) = w ↔ condAt w = c ∧ bits w 4 24 = 0x012FFF1#24 ∧ regAt w 0 = rn := by
  rw [eq_iff_hasField, encode]
  simp only [hasField_append, hasField_condBits, hasField_regBits, and_assoc]
  rfl

theorem encodeHalf_reg_eq_iff {op : HalfOp} {c : Cond} {p u wb : Bool} {rn rd rm : Reg} {w : Word} :
    encodeHalf op c p u wb rn rd (.reg rm) = w ↔
      condAt w = c ∧ bits w 25 3 = 0b000#3 ∧ bit w 24 = p ∧ bit w 23 = u ∧ bit w 22 = false ∧ bit w 21 = wb ∧
      bit w 20 = op.load ∧ regAt w 16 = rn ∧ regAt w 12 = rd ∧ bits w 8 4 = 0b0000#4 ∧
      bit w 7 = true ∧ bits w 5 2 = op.sh ∧ bit w 4 = true ∧ regAt w 0 = rm := by
  rw [eq_iff_hasField, encodeHalf]
  simp only [hasField_append, hasField_condBits, hasField_flag, hasField_zero, hasField_one, hasField_regBits,
    and_assoc]
  rfl

theorem encodeHalf_imm_eq_iff {op : HalfOp} {c : Cond} {p u wb : Bool} {rn rd : Reg} {hi lo : BitVec 4} {w : Word} :
    encodeHalf op c p u wb rn rd (.imm hi lo) = w ↔
      condAt w = c ∧ bits w 25 3 = 0b000#3 ∧ bit w 24 = p ∧ bit w 23 = u ∧ bit w 22 = true ∧ bit w 21 = wb ∧
      bit w 20 = op.load ∧ regAt w 16 = rn ∧ regAt w 12 = rd ∧ bits w 8 4 = hi ∧
      bit w 7 = true ∧ bits w 5 2 = op.sh ∧ bit w 4 = true ∧ bits w 0 4 = lo := by
  rw [eq_iff_hasField, encodeHalf]
  simp only [hasField_append, hasField_condBits, hasField_flag, hasField_one, hasField_regBits, and_assoc]
  rfl

theorem encodeSingle_imm_eq_iff {op : SingleOp} {c : Cond} {p u wb : Bool} {rn rd : Reg} {offset12 : BitVec 12}
    {w : Word} :
    encodeSingle op c p u wb rn rd (.imm offset12) = w ↔
      condAt w = c ∧ bits w 26 2 = 0b01#2 ∧ bit w 25 = false ∧ bit w 24 = p ∧ bit w 23 = u ∧ bit w 22 = op.byte ∧
      bit w 21 = wb ∧ bit w 20 = op.load ∧ regAt w 16 = rn ∧ regAt w 12 = rd ∧ bits w 0 12 = offset12 := by
  rw [eq_iff_hasField, encodeSingle]
  simp only [hasField_append, hasField_condBits, hasField_010, hasField_flag, hasField_regBits, and_assoc]
  rfl

theorem encodeSingle_reg_eq_iff {op : SingleOp} {c : Cond} {p u wb : Bool} {rn rd : Reg} {amount5 : BitVec 5}
    {kind : ShiftKind} {rm : Reg} {w : Word} :
    encodeSingle op c p u wb rn rd (.reg amount5 kind rm) = w ↔
      condAt w = c ∧ bits w 26 2 = 0b01#2 ∧ bit w 25 = true ∧ bit w 24 = p ∧ bit w 23 = u ∧ bit w 22 = op.byte ∧
      bit w 21 = wb ∧ bit w 20 = op.load ∧ regAt w 16 = rn ∧ regAt w 12 = rd ∧ bits w 7 5 = amount5 ∧
      ShiftKind.ofBits (bits w 5 2) = kind ∧ bit w 4 = false ∧ regAt w 0 = rm := by
  rw [eq_iff_hasField, encodeSingle]
  simp only [hasField_append, hasField_condBits, hasField_011, hasField_flag, hasField_zero, hasField_regBits,
    hasField_shiftKindBits, and_assoc]
  rfl

theorem encodeBlock_eq_iff {c : Cond} {p u sb wb l : Bool} {rn : Reg} {list : BitVec 16} {w : Word} :
    encodeBlock c p u sb wb l rn list = w ↔
      condAt w = c ∧ bits w 25 3 = 0b100#3 ∧ bit w 24 = p ∧ bit w 23 = u ∧ bit w 22 = sb ∧ bit w 21 = wb ∧
      bit w 20 = l ∧ regAt w 16 = rn ∧ bits w 0 16 = list := by
  rw [eq_iff_hasField, encodeBlock]
  simp only [hasField_append, hasField_condBits, hasField_flag, hasField_regBits, and_assoc]
  rfl

theorem encodeBranch_eq_iff {c : Cond} {l : Bool} {offset24 : BitVec 24} {w : Word} :
    c.bits ++ 0b101#3 ++ flag l ++ offset24 = w ↔
      condAt w = c ∧ bits w 25 3 = 0b101#3 ∧ bit w 24 = l ∧ bits w 0 24 = offset24 := by
  rw [eq_iff_hasField]
  simp only [hasField_append, hasField_condBits, hasField_flag, and_assoc]
  rfl

theorem encodeCopTransfer_eq_iff {c : Cond} {p u n wb l : Bool} {rn : Reg} {crd cpNum : BitVec 4}
    {offset8 : BitVec 8} {w : Word} :
    encodeCopTransfer c p u n wb l rn crd cpNum offset8 = w ↔
      condAt w = c ∧ bits w 25 3 = 0b110#3 ∧ bit w 24 = p ∧ bit w 23 = u ∧ bit w 22 = n ∧ bit w 21 = wb ∧
      bit w 20 = l ∧ regAt w 16 = rn ∧ bits w 12 4 = crd ∧ bits w 8 4 = cpNum ∧ bits w 0 8 = offset8 := by
  rw [eq_iff_hasField, encodeCopTransfer]
  simp only [hasField_append, hasField_condBits, hasField_flag, hasField_regBits, and_assoc]
  rfl

theorem encode_cdp_eq_iff {c : Cond} {opc crn crd cpNum : BitVec 4} {cp : BitVec 3} {crm : BitVec 4} {w : Word} :
    encode (.cdp c opc crn crd cpNum cp crm) = w ↔
      condAt w = c ∧ bits w 24 4 = 0b1110#4 ∧ bits w 20 4 = opc ∧ bits w 16 4 = crn ∧ bits w 12 4 = crd ∧
      bits w 8 4 = cpNum ∧ bits w 5 3 = cp ∧ bit w 4 = false ∧ bits w 0 4 = crm := by
  rw [eq_iff_hasField, encode]
  simp only [hasField_append, hasField_condBits, hasField_zero, and_assoc]
  rfl

theorem encodeCopReg_eq_iff {c : Cond} {l : Bool} {opc : BitVec 3} {crn : BitVec 4} {rd : Reg} {cpNum : BitVec 4}
    {cp : BitVec 3} {crm : BitVec 4} {w : Word} :
    encodeCopReg c l opc crn rd cpNum cp crm = w ↔
      condAt w = c ∧ bits w 24 4 = 0b1110#4 ∧ bits w 21 3 = opc ∧ bit w 20 = l ∧ bits w 16 4 = crn ∧
      regAt w 12 = rd ∧ bits w 8 4 = cpNum ∧ bits w 5 3 = cp ∧ bit w 4 = true ∧ bits w 0 4 = crm := by
  rw [eq_iff_hasField, encodeCopReg]
  simp only [hasField_append, hasField_condBits, hasField_flag, hasField_one, hasField_regBits, and_assoc]
  rfl

theorem encode_swi_eq_iff {c : Cond} {comment : BitVec 24} {w : Word} :
    encode (.swi c comment) = w ↔ condAt w = c ∧ bits w 24 4 = 0b1111#4 ∧ bits w 0 24 = comment := by
  rw [eq_iff_hasField, encode]
  simp only [hasField_append, hasField_condBits, and_assoc]
  rfl

theorem encode_undefined_eq_iff {c : Cond} {body : BitVec 28} {w : Word} :
    encode (.undefined c body) = w ↔ condAt w = c ∧ bits w 0 28 = body := by
  rw [eq_iff_hasField, encode]
  simp only [hasField_append, hasField_condBits]
  rfl

/-! ## The rules' own tests on bits 27:0 of a word (R93, R105) -/

theorem body_field {w : Word} {k l : Nat} (h : k + l ≤ 28) : (bits w 0 28).extractLsb' k l = bits w k l :=
  field_field w h

theorem body_bit {w : Word} {k : Nat} (h : k < 28) : (bits w 0 28).getLsbD k = bit w k := bit_field w h

theorem inExtensionSpace_iff {w : Word} :
    inExtensionSpace (bits w 0 28) = true ↔ bits w 25 3 = 0b000#3 ∧ bit w 7 = true ∧ bit w 4 = true := by
  unfold inExtensionSpace
  simp (disch := decide) only [body_field, body_bit, Bool.and_eq_true, beq_iff_eq, and_assoc]

/-- In the class 00 the extension space is left by any one of three bits. -/
theorem inExtensionSpace_eq_false_iff {w : Word} (h : bits w 26 2 = 0b00#2) :
    inExtensionSpace (bits w 0 28) = false ↔ bit w 25 = true ∨ bit w 7 = false ∨ bit w 4 = false := by
  rw [← Bool.not_eq_true, inExtensionSpace_iff, show 0b000#3 = 0b00#2 ++ flag false from rfl, bits_class_iff]
  simp only [h, true_and, not_and_or, Bool.not_eq_true, Bool.not_eq_false]

theorem architectedUndefined_iff {w : Word} :
    architectedUndefined (bits w 0 28) = true ↔ bits w 25 3 = 0b011#3 ∧ bit w 4 = true := by
  unfold architectedUndefined
  simp (disch := decide) only [body_field, body_bit, Bool.and_eq_true, beq_iff_eq]

theorem inPsrSpace_iff {w : Word} :
    inPsrSpace (bits w 0 28) = true ↔
      inExtensionSpace (bits w 0 28) = false ∧ bits w 4 24 ≠ 0x012FFF1#24 ∧
      bits w 26 2 = 0b00#2 ∧ bits w 23 2 = 0b10#2 ∧ bit w 20 = false := by
  unfold inPsrSpace
  simp (disch := decide) only [body_field, body_bit, Bool.and_eq_true, beq_iff_eq, bne_iff_ne, Bool.not_eq_true',
    and_assoc]

theorem psrUndefined_iff {w : Word} :
    psrUndefined (bits w 0 28) = true ↔ inPsrSpace (bits w 0 28) = true ∧
      ¬(bit w 25 = false ∧ bits w 16 6 = 0b001111#6 ∧ bits w 0 12 = 0#12) ∧
      ¬(bit w 25 = false ∧ bits w 17 5 = 0b10100#5 ∧ bits w 12 4 = 0b1111#4 ∧ bits w 4 8 = 0#8) ∧
      ¬(bit w 25 = true ∧ bits w 16 6 = 0b101000#6 ∧ bits w 12 4 = 0b1111#4) := by
  unfold psrUndefined
  simp (disch := decide) only [body_field, body_bit, Bool.and_eq_true, beq_iff_eq, Bool.not_eq_true',
    ← Bool.not_eq_true, and_assoc]

/-- The Undefined rows of R120: the words that are no multiply, long multiply or swap where SH is 00, and that fail a
check of the halfword and signed transfers elsewhere. -/
theorem extensionUndefined_iff {w : Word} :
    extensionUndefined (bits w 0 28) = true ↔ inExtensionSpace (bits w 0 28) = true ∧
      if bits w 5 2 = 0b00#2 then
        bits w 22 3 ≠ 0b000#3 ∧ bits w 23 2 ≠ 0b01#2 ∧
          ¬(bits w 23 2 = 0b10#2 ∧ bits w 20 2 = 0b00#2 ∧ bits w 8 4 = 0b0000#4)
      else
        (bit w 20 = false ∧ bits w 5 2 ≠ 0b01#2) ∨ (bit w 22 = false ∧ bits w 8 4 ≠ 0b0000#4) := by
  unfold extensionUndefined
  simp (disch := decide) only [body_field, body_bit, Bool.and_eq_true]
  refine and_congr_right fun _ => ?_
  by_cases h5 : bits w 5 2 = 0b00#2
  · have hspace : ∀ x : BitVec 3, ∀ p q : Bool,
        (x == 0b001#3 || x.extractLsb' 1 2 == 0b11#2 || (x.extractLsb' 1 2 == 0b10#2 && (p || q))) = true ↔
          x ≠ 0b000#3 ∧ x.extractLsb' 1 2 ≠ 0b01#2 ∧ ¬(x.extractLsb' 1 2 = 0b10#2 ∧ p = false ∧ q = false) := by
      decide
    rw [if_pos h5, bits_23_of_22]
    simp [h5, hspace]
  · simp [h5]

theorem undefinedBits_iff {b : BitVec 28} :
    undefinedBits b = true ↔ architectedUndefined b = true ∨ extensionUndefined b = true ∨ psrUndefined b = true := by
  simp only [undefinedBits, Bool.or_eq_true, or_assoc]

/-! ## The steps of R93 -/

/-- What the other tests of R93 read in a BX word. -/
theorem bx_tests {w : Word} (h : bits w 4 24 = 0x012FFF1#24) :
    inExtensionSpace (bits w 0 28) = false ∧ bits w 26 2 = 0b00#2 ∧ bit w 25 = false ∧ bits w 23 2 = 0b10#2 ∧
      bit w 20 = false ∧ bit w 4 = true := by
  have h26 : bits w 26 2 = (bits w 4 24).extractLsb' 22 2 := field_sub (d := 22) w (by decide)
  have h25 : bit w 25 = (bits w 4 24).getLsbD 21 := bit_sub (d := 21) (by decide)
  have h23 : bits w 23 2 = (bits w 4 24).extractLsb' 19 2 := field_sub (d := 19) w (by decide)
  have h20 : bit w 20 = (bits w 4 24).getLsbD 16 := bit_sub (d := 16) (by decide)
  have h7 : bit w 7 = (bits w 4 24).getLsbD 3 := bit_sub (d := 3) (by decide)
  have h4 : bit w 4 = (bits w 4 24).getLsbD 0 := bit_sub (d := 0) (by decide)
  rw [h] at h26 h25 h23 h20 h7 h4
  refine ⟨?_, h26, h25, h23, h20, h4⟩
  rw [inExtensionSpace_eq_false_iff h26]
  exact .inr (.inl h7)

theorem decodeWord_extension {w : Word} (h : inExtensionSpace (bits w 0 28) = true) :
    decodeWord w = decodeExtension (condAt w) w := by
  unfold decodeWord
  exact if_pos (inExtensionSpace_iff.1 h)

theorem not_extension_test {w : Word} (h : inExtensionSpace (bits w 0 28) = false) :
    ¬(bits w 25 3 = 0b000#3 ∧ bit w 7 = true ∧ bit w 4 = true) := by
  rw [← inExtensionSpace_iff, h]
  exact Bool.false_ne_true

theorem decodeWord_bx {w : Word} (h : bits w 4 24 = 0x012FFF1#24) : decodeWord w = .bx (condAt w) (regAt w 0) := by
  obtain ⟨hext, -⟩ := bx_tests h
  simp only [decodeWord]
  rw [if_neg (not_extension_test hext), if_pos h]

theorem decodeWord_psr {w : Word} (h : inPsrSpace (bits w 0 28) = true) :
    decodeWord w = decodePsr (condAt w) w := by
  obtain ⟨hext, hbx, h26, h23, h20⟩ := inPsrSpace_iff.1 h
  simp only [decodeWord]
  rw [if_neg (not_extension_test hext), if_neg hbx, if_pos ⟨h26, h23, h20⟩]

theorem decodeWord_dp {w : Word} (hext : inExtensionSpace (bits w 0 28) = false) (h26 : bits w 26 2 = 0b00#2)
    (hpsr : ¬(bits w 23 2 = 0b10#2 ∧ bit w 20 = false)) : decodeWord w = decodeDp (condAt w) w := by
  have hbx : bits w 4 24 ≠ 0x012FFF1#24 := fun h => by
    obtain ⟨-, -, -, h23, h20, -⟩ := bx_tests h
    exact hpsr ⟨h23, h20⟩
  simp only [decodeWord]
  rw [if_neg (not_extension_test hext), if_neg hbx, if_neg (fun h => hpsr h.2), if_pos h26]

/-- Steps 1 to 4 of R93 take no word outside the class 00. -/
theorem decodeWord_high {w : Word} (h26 : bits w 26 2 ≠ 0b00#2) :
    decodeWord w =
      if bits w 25 3 = 0b011#3 ∧ bit w 4 = true then decodeUndefined (condAt w) w
      else if bits w 26 2 = 0b01#2 then decodeSingle (condAt w) w
      else if bits w 25 3 = 0b100#3 then decodeBlock (condAt w) w
      else if bits w 25 3 = 0b101#3 then decodeBranch (condAt w) w
      else if bits w 25 3 = 0b110#3 then decodeCopTransfer (condAt w) w
      else if bits w 24 4 = 0b1110#4 ∧ bit w 4 = false then decodeCopOp (condAt w) w
      else if bits w 24 4 = 0b1110#4 then decodeCopReg (condAt w) w
      else .swi (condAt w) (bits w 0 24) := by
  have hbx : bits w 4 24 ≠ 0x012FFF1#24 := fun h => h26 (bx_tests h).2.1
  have hext : ¬(bits w 25 3 = 0b000#3 ∧ bit w 7 = true ∧ bit w 4 = true) := fun h =>
    h26 ((bits_class_iff w 0b00#2 false).1 h.1).1
  simp only [decodeWord]
  rw [if_neg hext, if_neg hbx, if_neg (fun h => h26 h.1), if_neg h26]

theorem decodeWord_architectedUndefined {w : Word} (h : architectedUndefined (bits w 0 28) = true) :
    decodeWord w = decodeUndefined (condAt w) w := by
  have h := architectedUndefined_iff.1 h
  rw [decodeWord_high (by rw [bits_26_of_25, h.1]; decide), if_pos h]

theorem decodeWord_single {w : Word} (h26 : bits w 26 2 = 0b01#2) (hund : bit w 25 = false ∨ bit w 4 = false) :
    decodeWord w = decodeSingle (condAt w) w := by
  have hund : ¬(bits w 25 3 = 0b011#3 ∧ bit w 4 = true) := fun h => by
    have h25 := ((bits_class_iff w 0b01#2 true).1 h.1).2
    simp [h25, h.2] at hund
  rw [decodeWord_high (by rw [h26]; decide), if_neg hund, if_pos h26]

theorem decodeWord_block {w : Word} (h : bits w 25 3 = 0b100#3) : decodeWord w = decodeBlock (condAt w) w := by
  rw [decodeWord_high (by rw [bits_26_of_25, h]; decide), bits_26_of_25, h]
  rfl

theorem decodeWord_branch {w : Word} (h : bits w 25 3 = 0b101#3) : decodeWord w = decodeBranch (condAt w) w := by
  rw [decodeWord_high (by rw [bits_26_of_25, h]; decide), bits_26_of_25, h]
  rfl

theorem decodeWord_copTransfer {w : Word} (h : bits w 25 3 = 0b110#3) :
    decodeWord w = decodeCopTransfer (condAt w) w := by
  rw [decodeWord_high (by rw [bits_26_of_25, h]; decide), bits_26_of_25, h]
  rfl

theorem decodeWord_copOp {w : Word} (h : bits w 24 4 = 0b1110#4) (h4 : bit w 4 = false) :
    decodeWord w = decodeCopOp (condAt w) w := by
  rw [decodeWord_high (by rw [bits_26_of_25, bits_25_of_24, h]; decide), bits_26_of_25, bits_25_of_24, h, h4]
  rfl

theorem decodeWord_copReg {w : Word} (h : bits w 24 4 = 0b1110#4) (h4 : bit w 4 = true) :
    decodeWord w = decodeCopReg (condAt w) w := by
  rw [decodeWord_high (by rw [bits_26_of_25, bits_25_of_24, h]; decide), bits_26_of_25, bits_25_of_24, h, h4]
  rfl

theorem decodeWord_swi {w : Word} (h : bits w 24 4 = 0b1111#4) : decodeWord w = .swi (condAt w) (bits w 0 24) := by
  rw [decodeWord_high (by rw [bits_26_of_25, bits_25_of_24, h]; decide), bits_26_of_25, bits_25_of_24, h]
  rfl

/-! ## Decoding an encoded instruction, format by format -/

theorem SingleOp.ofBits_load_byte (op : SingleOp) : SingleOp.ofBits op.load op.byte = op := by cases op <;> rfl

theorem HalfOp.ofBits_load_sh (op : HalfOp) : HalfOp.ofBits op.load op.sh = op := by cases op <;> rfl

theorem HalfOp.sh_ne_zero (op : HalfOp) : op.sh ≠ 0b00#2 := by cases op <;> decide

theorem HalfOp.not_signed_store (op : HalfOp) : ¬(op.load = false ∧ op.sh ≠ 0b01#2) := by cases op <;> decide

theorem encode_ofDp (op : DpOp) (c : Cond) (sb : Bool) (rn rd : Reg) (o : Operand2) :
    encode (.ofDp op c sb rn rd o) = encodeDp op c (sb || op.isCompare) rn rd o := by
  cases op <;> cases o <;> simp [Instr.ofDp, encode, DpOp.isCompare]

theorem encode_ofSingle (op : SingleOp) (c : Cond) (p u w : Bool) (rn rd : Reg) (o : WordOffset) :
    encode (.ofSingle op c p u w rn rd o) = encodeSingle op c p u w rn rd o := by
  cases op <;> cases o <;> rfl

theorem encode_ofHalf (op : HalfOp) (c : Cond) (p u w : Bool) (rn rd : Reg) (o : HalfOffset) :
    encode (.ofHalf op c p u w rn rd o) = encodeHalf op c p u w rn rd o := by
  cases op <;> cases o <;> rfl

theorem ofDp_or_isCompare (op : DpOp) (c : Cond) (sb : Bool) (rn rd : Reg) (o : Operand2) :
    Instr.ofDp op c (sb || op.isCompare) rn rd o = .ofDp op c sb rn rd o := by
  cases op <;> cases o <;> simp [Instr.ofDp, DpOp.isCompare]

/-- The four comparisons are the opcodes 10xx (R112). -/
theorem DpOp.isCompare_ofBits (b : BitVec 4) : (DpOp.ofBits b).isCompare = (b.extractLsb' 2 2 == 0b10#2) := by
  revert b; decide

theorem isCompare_at (w : Word) : (DpOp.ofBits (bits w 21 4)).isCompare = (bits w 23 2 == 0b10#2) := by
  rw [DpOp.isCompare_ofBits, bits_23_of_21]

section
variable {c : Cond} {w : Word}

/-- Step 4 of R93 on a word with the S bit of an encoded instruction: a comparison without S would be a word of the
PSR space. -/
theorem decodeWord_ofDp {sb : Bool} (h26 : bits w 26 2 = 0b00#2)
    (hout : bit w 25 = true ∨ bit w 7 = false ∨ bit w 4 = false)
    (h20 : bit w 20 = (sb || (DpOp.ofBits (bits w 21 4)).isCompare)) :
    decodeWord w = .ofDp (DpOp.ofBits (bits w 21 4)) (condAt w) sb (regAt w 16) (regAt w 12) (decodeOperand2 w) := by
  have hpsr : ¬(bits w 23 2 = 0b10#2 ∧ bit w 20 = false) := fun hp => by
    rw [isCompare_at, hp.1, hp.2, beq_self_eq_true, Bool.or_true] at h20
    exact nomatch h20
  rw [decodeWord_dp ((inExtensionSpace_eq_false_iff h26).2 hout) h26 hpsr, decodeDp, h20, ofDp_or_isCompare]

theorem decodeWord_of_encodeDp {op : DpOp} {sb : Bool} {rn rd : Reg} {o : Operand2}
    (h : encodeDp op c (sb || op.isCompare) rn rd o = w) : decodeWord w = .ofDp op c sb rn rd o := by
  cases o with
  | imm rot imm8 =>
    obtain ⟨rfl, h26, h25, rfl, h20, rfl, rfl, rfl, rfl⟩ := encodeDp_imm_eq_iff.1 h
    rw [decodeWord_ofDp h26 (.inl h25) h20, decodeOperand2, if_pos h25]
  | shiftImm amount5 kind rm =>
    obtain ⟨rfl, h26, h25, rfl, h20, rfl, rfl, rfl, rfl, h4, rfl⟩ := encodeDp_shiftImm_eq_iff.1 h
    rw [decodeWord_ofDp h26 (.inr (.inr h4)) h20, decodeOperand2, h25, h4]
    rfl
  | shiftReg rs kind rm =>
    obtain ⟨rfl, h26, h25, rfl, h20, rfl, rfl, rfl, h7, rfl, h4, rfl⟩ := encodeDp_shiftReg_eq_iff.1 h
    rw [decodeWord_ofDp h26 (.inr (.inl h7)) h20, decodeOperand2, h25, h4]
    rfl

theorem decodeWord_of_encodeSingle {op : SingleOp} {p u wb : Bool} {rn rd : Reg} {o : WordOffset}
    (h : encodeSingle op c p u wb rn rd o = w) : decodeWord w = .ofSingle op c p u wb rn rd o := by
  cases o with
  | imm offset12 =>
    obtain ⟨rfl, h26, h25, rfl, rfl, h22, rfl, h20, rfl, rfl, rfl⟩ := encodeSingle_imm_eq_iff.1 h
    rw [decodeWord_single h26 (.inl h25), decodeSingle, h20, h22, SingleOp.ofBits_load_byte, h25]
    rfl
  | reg amount5 kind rm =>
    obtain ⟨rfl, h26, h25, rfl, rfl, h22, rfl, h20, rfl, rfl, rfl, rfl, h4, rfl⟩ := encodeSingle_reg_eq_iff.1 h
    rw [decodeWord_single h26 (.inr h4), decodeSingle, h20, h22, SingleOp.ofBits_load_byte, h25]
    rfl

/-- The halfword rows of R120, for a transfer that is no signed store. -/
theorem decodeExtension_half (hsh : bits w 5 2 ≠ 0b00#2) (hl : ¬(bit w 20 = false ∧ bits w 5 2 ≠ 0b01#2)) :
    decodeExtension c w =
      if bit w 22 = false then
        if bits w 8 4 = 0b0000#4 then decodeHalf c w (.reg (regAt w 0)) else decodeUndefined c w
      else decodeHalf c w (.imm (bits w 8 4) (bits w 0 4)) := by
  rw [decodeExtension, if_neg hsh, if_neg hl]

theorem decodeWord_of_encodeHalf {op : HalfOp} {p u wb : Bool} {rn rd : Reg} {o : HalfOffset}
    (h : encodeHalf op c p u wb rn rd o = w) : decodeWord w = .ofHalf op c p u wb rn rd o := by
  cases o with
  | reg rm =>
    obtain ⟨rfl, h25, rfl, rfl, h22, rfl, h20, rfl, rfl, h8, h7, h5, h4, rfl⟩ := encodeHalf_reg_eq_iff.1 h
    rw [decodeWord_extension (inExtensionSpace_iff.2 ⟨h25, h7, h4⟩),
      decodeExtension_half (h5 ▸ op.sh_ne_zero) (h5 ▸ h20 ▸ op.not_signed_store), if_pos h22, if_pos h8,
      decodeHalf, h20, h5, HalfOp.ofBits_load_sh]
  | imm hi lo =>
    obtain ⟨rfl, h25, rfl, rfl, h22, rfl, h20, rfl, rfl, rfl, h7, h5, h4, rfl⟩ := encodeHalf_imm_eq_iff.1 h
    rw [decodeWord_extension (inExtensionSpace_iff.2 ⟨h25, h7, h4⟩),
      decodeExtension_half (h5 ▸ op.sh_ne_zero) (h5 ▸ h20 ▸ op.not_signed_store), if_neg (by simp [h22]),
      decodeHalf, h20, h5, HalfOp.ofBits_load_sh]

theorem decodeWord_of_encodeMultiply {a sb : Bool} {rd rn rs rm : Reg} (h : encodeMultiply c a sb rd rn rs rm = w) :
    decodeWord w = (if a then Instr.mla else Instr.mul) c sb rd rn rs rm := by
  obtain ⟨rfl, h25, h22, rfl, rfl, rfl, rfl, rfl, h7, h5, h4, rfl⟩ := encodeMultiply_eq_iff.1 h
  rw [decodeWord_extension (inExtensionSpace_iff.2 ⟨h25, h7, h4⟩), decodeExtension, if_pos h5, if_pos h22,
    decodeMultiply]
  cases bit w 21 <;> rfl

theorem bits_22_ne_zero (h : bits w 23 2 ≠ 0b00#2) : bits w 22 3 ≠ 0b000#3 := fun h0 =>
  h (by rw [bits_23_of_22, h0]; rfl)

theorem decodeWord_of_encodeMultiplyLong {u a sb : Bool} {rdHi rdLo rs rm : Reg}
    (h : encodeMultiplyLong c u a sb rdHi rdLo rs rm = w) :
    decodeWord w = (if u then if a then Instr.smlal else Instr.smull else if a then Instr.umlal else Instr.umull)
      c sb rdHi rdLo rs rm := by
  obtain ⟨rfl, h25, h23, rfl, rfl, rfl, rfl, rfl, rfl, h7, h5, h4, rfl⟩ := encodeMultiplyLong_eq_iff.1 h
  have h22 : bits w 22 3 ≠ 0b000#3 := bits_22_ne_zero (by rw [h23]; decide)
  rw [decodeWord_extension (inExtensionSpace_iff.2 ⟨h25, h7, h4⟩), decodeExtension, if_pos h5, if_neg h22, if_pos h23,
    decodeMultiplyLong]
  cases bit w 22 <;> cases bit w 21 <;> rfl

theorem decodeWord_of_encodeSwap {b : Bool} {rn rd rm : Reg} (h : encodeSwap c b rn rd rm = w) :
    decodeWord w = (if b then Instr.swpb else Instr.swp) c rn rd rm := by
  obtain ⟨rfl, h25, h23, rfl, h20, rfl, rfl, h8, h7, h5, h4, rfl⟩ := encodeSwap_eq_iff.1 h
  have h22 : bits w 22 3 ≠ 0b000#3 := bits_22_ne_zero (by rw [h23]; decide)
  rw [decodeWord_extension (inExtensionSpace_iff.2 ⟨h25, h7, h4⟩), decodeExtension, if_pos h5, if_neg h22,
    if_neg (by rw [h23]; decide), if_pos ⟨h23, h20, h8⟩, decodeSwap]
  cases bit w 22 <;> rfl

/-- A word of the PSR space, kept out of the extension space and from BX by bit 25 or bit 4. -/
theorem inPsrSpace_of_tests (h26 : bits w 26 2 = 0b00#2) (h23 : bits w 23 2 = 0b10#2) (h20 : bit w 20 = false)
    (h : bit w 25 = true ∨ bit w 4 = false) : inPsrSpace (bits w 0 28) = true := by
  refine inPsrSpace_iff.2 ⟨(inExtensionSpace_eq_false_iff h26).2 (h.imp_right .inr), fun hbx => ?_, h26, h23, h20⟩
  obtain ⟨-, -, h25, -, -, h4⟩ := bx_tests hbx
  simp [h25, h4] at h

theorem decodeWord_of_encode_mrs {ps : Bool} {rd : Reg} (h : encode (.mrs c ps rd) = w) :
    decodeWord w = .mrs c ps rd := by
  obtain ⟨rfl, h25, h23, rfl, h16, rfl, h0⟩ := encode_mrs_eq_iff.1 h
  obtain ⟨h26, h25⟩ := (bits_class_iff w 0b00#2 false).1 h25
  have h20 : bit w 20 = false := by rw [bit_sub (k := 16) (l := 6) (d := 4) (by decide), h16]; rfl
  have h4 : bit w 4 = false := by rw [bit_sub (k := 0) (l := 12) (d := 4) (by decide), h0]; rfl
  rw [decodeWord_psr (inPsrSpace_of_tests h26 h23 h20 (.inr h4)), decodePsr, if_pos ⟨h25, h16, h0⟩]

theorem decodeWord_of_encodeMsrReg {pd full : Bool} {rm : Reg} (h : encodeMsrReg c pd full rm = w) :
    decodeWord w = if full then (if pd then .msrSpsr c rm else .msrCpsr c rm) else .msrFlagsReg c pd rm := by
  obtain ⟨rfl, h25, h23, rfl, h17, rfl, h12, h4, rfl⟩ := encodeMsrReg_eq_iff.1 h
  obtain ⟨h26, h25⟩ := (bits_class_iff w 0b00#2 false).1 h25
  have h20 : bit w 20 = false := by rw [bit_sub (k := 17) (l := 5) (d := 3) (by decide), h17]; rfl
  have hb4 : bit w 4 = false := by rw [bit_sub (k := 4) (l := 8) (d := 0) (by decide), h4]; rfl
  have hmrs : bits w 16 6 ≠ 0b001111#6 := fun h16 => by
    rw [bits_17_of_16, h16] at h17
    exact absurd h17 (by decide)
  rw [decodeWord_psr (inPsrSpace_of_tests h26 h23 h20 (.inr hb4)), decodePsr, if_neg fun h => hmrs h.2.1,
    if_pos ⟨h25, h17, h12, h4⟩]

theorem decodeWord_of_encode_msrFlagsImm {pd : Bool} {rot : BitVec 4} {imm8 : BitVec 8}
    (h : encode (.msrFlagsImm c pd rot imm8) = w) : decodeWord w = .msrFlagsImm c pd rot imm8 := by
  obtain ⟨rfl, h26, h25, h23, rfl, h16, h12, rfl, rfl⟩ := encode_msrFlagsImm_eq_iff.1 h
  have h20 : bit w 20 = false := by rw [bit_sub (k := 16) (l := 6) (d := 4) (by decide), h16]; rfl
  rw [decodeWord_psr (inPsrSpace_of_tests h26 h23 h20 (.inl h25)), decodePsr, if_neg (by simp [h25]),
    if_neg (by simp [h25]), if_pos ⟨h25, h16, h12⟩]

theorem decodeWord_of_encode_bx {rn : Reg} (h : encode (.bx c rn) = w) : decodeWord w = .bx c rn := by
  obtain ⟨rfl, hbx, rfl⟩ := encode_bx_eq_iff.1 h
  exact decodeWord_bx hbx

theorem decodeWord_of_encodeBlock {p u sb wb l : Bool} {rn : Reg} {list : BitVec 16}
    (h : encodeBlock c p u sb wb l rn list = w) :
    decodeWord w = (if l then Instr.ldm else Instr.stm) c p u sb wb rn list := by
  obtain ⟨rfl, h25, rfl, rfl, rfl, rfl, rfl, rfl, rfl⟩ := encodeBlock_eq_iff.1 h
  rw [decodeWord_block h25, decodeBlock]
  cases bit w 20 <;> rfl

theorem decodeWord_of_encodeBranch {l : Bool} {offset24 : BitVec 24} (h : c.bits ++ 0b101#3 ++ flag l ++ offset24 = w) :
    decodeWord w = (if l then Instr.bl else Instr.b) c offset24 := by
  obtain ⟨rfl, h25, rfl, rfl⟩ := encodeBranch_eq_iff.1 h
  rw [decodeWord_branch h25, decodeBranch]
  cases bit w 24 <;> rfl

theorem decodeWord_of_encodeCopTransfer {p u n wb l : Bool} {rn : Reg} {crd cpNum : BitVec 4} {offset8 : BitVec 8}
    (h : encodeCopTransfer c p u n wb l rn crd cpNum offset8 = w) :
    decodeWord w = (if l then Instr.ldc else Instr.stc) c p u n wb rn crd cpNum offset8 := by
  obtain ⟨rfl, h25, rfl, rfl, rfl, rfl, rfl, rfl, rfl, rfl, rfl⟩ := encodeCopTransfer_eq_iff.1 h
  rw [decodeWord_copTransfer h25, decodeCopTransfer]
  cases bit w 20 <;> rfl

theorem decodeWord_of_encode_cdp {opc crn crd cpNum : BitVec 4} {cp : BitVec 3} {crm : BitVec 4}
    (h : encode (.cdp c opc crn crd cpNum cp crm) = w) : decodeWord w = .cdp c opc crn crd cpNum cp crm := by
  obtain ⟨rfl, h24, rfl, rfl, rfl, rfl, rfl, h4, rfl⟩ := encode_cdp_eq_iff.1 h
  exact decodeWord_copOp h24 h4

theorem decodeWord_of_encodeCopReg {l : Bool} {opc : BitVec 3} {crn : BitVec 4} {rd : Reg} {cpNum : BitVec 4}
    {cp : BitVec 3} {crm : BitVec 4} (h : encodeCopReg c l opc crn rd cpNum cp crm = w) :
    decodeWord w = (if l then Instr.mrc else Instr.mcr) c opc crn rd cpNum cp crm := by
  obtain ⟨rfl, h24, rfl, rfl, rfl, rfl, rfl, rfl, h4, rfl⟩ := encodeCopReg_eq_iff.1 h
  rw [decodeWord_copReg h24 h4, decodeCopReg]
  cases bit w 20 <;> rfl

theorem decodeWord_of_encode_swi {comment : BitVec 24} (h : encode (.swi c comment) = w) :
    decodeWord w = .swi c comment := by
  obtain ⟨rfl, h24, rfl⟩ := encode_swi_eq_iff.1 h
  exact decodeWord_swi h24

theorem decodeExtension_of_undefined (h : extensionUndefined (bits w 0 28) = true) :
    decodeExtension c w = decodeUndefined c w := by
  obtain ⟨-, h⟩ := extensionUndefined_iff.1 h
  unfold decodeExtension
  split at h
  · next h5 =>
    obtain ⟨h22, h23, hswap⟩ := h
    rw [if_pos h5, if_neg h22, if_neg h23, if_neg hswap]
  · next h5 =>
    rw [if_neg h5]
    obtain hstore | ⟨h22, h8⟩ := h
    · rw [if_pos hstore]
    · rw [if_pos h22, if_neg h8, ite_self]

theorem decodePsr_of_undefined (h : psrUndefined (bits w 0 28) = true) : decodePsr c w = decodeUndefined c w := by
  obtain ⟨-, hmrs, hmsr, himm⟩ := psrUndefined_iff.1 h
  rw [decodePsr, if_neg hmrs, if_neg hmsr, if_neg himm]

theorem decodeWord_of_undefinedBits (h : undefinedBits (bits w 0 28) = true) :
    decodeWord w = decodeUndefined (condAt w) w := by
  obtain harch | hext | hpsr := undefinedBits_iff.1 h
  · exact decodeWord_architectedUndefined harch
  · rw [decodeWord_extension (extensionUndefined_iff.1 hext).1, decodeExtension_of_undefined hext]
  · rw [decodeWord_psr (psrUndefined_iff.1 hpsr).1, decodePsr_of_undefined hpsr]

theorem decodeWord_of_encode_undefined {body : BitVec 28} (hwf : undefinedBits body = true)
    (h : encode (.undefined c body) = w) : decodeWord w = .undefined c body := by
  obtain ⟨rfl, rfl⟩ := encode_undefined_eq_iff.1 h
  exact decodeWord_of_undefinedBits hwf

end

theorem decodeWord_encode {i : Instr} (hwf : i.wellFormed = true) : decodeWord (encode i) = i := by
  cases i using Instr.byForm with
  | dp op c sb rn rd o => rw [encode_ofDp]; exact decodeWord_of_encodeDp rfl
  | single op c p u w rn rd o => rw [encode_ofSingle]; exact decodeWord_of_encodeSingle rfl
  | half op c p u w rn rd o => rw [encode_ofHalf]; exact decodeWord_of_encodeHalf rfl
  | mrs c ps rd => exact decodeWord_of_encode_mrs rfl
  | msrCpsr c rm => exact decodeWord_of_encodeMsrReg rfl
  | msrSpsr c rm => exact decodeWord_of_encodeMsrReg rfl
  | msrFlagsReg c pd rm => exact decodeWord_of_encodeMsrReg rfl
  | msrFlagsImm c pd rot imm8 => exact decodeWord_of_encode_msrFlagsImm rfl
  | mul c sb rd rn rs rm => exact decodeWord_of_encodeMultiply rfl
  | mla c sb rd rn rs rm => exact decodeWord_of_encodeMultiply rfl
  | umull c sb rdHi rdLo rs rm => exact decodeWord_of_encodeMultiplyLong rfl
  | umlal c sb rdHi rdLo rs rm => exact decodeWord_of_encodeMultiplyLong rfl
  | smull c sb rdHi rdLo rs rm => exact decodeWord_of_encodeMultiplyLong rfl
  | smlal c sb rdHi rdLo rs rm => exact decodeWord_of_encodeMultiplyLong rfl
  | swp c rn rd rm => exact decodeWord_of_encodeSwap rfl
  | swpb c rn rd rm => exact decodeWord_of_encodeSwap rfl
  | bx c rn => exact decodeWord_of_encode_bx rfl
  | stm c p u sb w rn list => exact decodeWord_of_encodeBlock rfl
  | ldm c p u sb w rn list => exact decodeWord_of_encodeBlock rfl
  | b c offset24 => exact decodeWord_of_encodeBranch rfl
  | bl c offset24 => exact decodeWord_of_encodeBranch rfl
  | stc c p u n w rn crd cpNum offset8 => exact decodeWord_of_encodeCopTransfer rfl
  | ldc c p u n w rn crd cpNum offset8 => exact decodeWord_of_encodeCopTransfer rfl
  | cdp c opc crn crd cpNum cp crm => exact decodeWord_of_encode_cdp rfl
  | mcr c opc crn rd cpNum cp crm => exact decodeWord_of_encodeCopReg rfl
  | mrc c opc crn rd cpNum cp crm => exact decodeWord_of_encodeCopReg rfl
  | swi c comment => exact decodeWord_of_encode_swi rfl
  | undefined c body => exact decodeWord_of_encode_undefined hwf rfl

/-- Four bytes of a word, lowest address first, decode as the word (R64, R90). -/
theorem decode_bytesOfWord (w : Word) (rest : List Byte) :
    decode (bytesOfWord w ++ rest) = .ok (decodeWord w, rest) := by
  have hw : bits w 24 8 ++ bits w 16 8 ++ bits w 8 8 ++ bits w 0 8 = w := by
    simp (disch := decide) only [field_join]
    exact bits_all w
  exact congrArg (fun v => Except.ok (decodeWord v, rest)) hw

/-- Settles O9: decoding undoes each format, and four bytes make their word again. -/
theorem decodeOfEncode : Obligations.DecodeOfEncode := by
  unfold Obligations.DecodeOfEncode
  intro i rest hwf
  have hi := decodeWord_encode hwf
  exact ⟨hi, by rw [decode_bytesOfWord, hi]⟩

/-! ## Encoding a decoded word, along the branches of the decoder -/

/-- `w` is the word of `i`, and `i` is an instruction a word can hold. -/
def Instr.HasWord (i : Instr) (w : Word) : Prop := i.wellFormed = true ∧ encode i = w

theorem wellFormed_ofDp (op : DpOp) (c : Cond) (sb : Bool) (rn rd : Reg) (o : Operand2) :
    (Instr.ofDp op c sb rn rd o).wellFormed = true := by
  cases op <;> cases o <;> rfl

theorem wellFormed_ofSingle (op : SingleOp) (c : Cond) (p u w : Bool) (rn rd : Reg) (o : WordOffset) :
    (Instr.ofSingle op c p u w rn rd o).wellFormed = true := by
  cases op <;> cases o <;> rfl

theorem wellFormed_ofHalf (op : HalfOp) (c : Cond) (p u w : Bool) (rn rd : Reg) (o : HalfOffset) :
    (Instr.ofHalf op c p u w rn rd o).wellFormed = true := by
  cases op <;> cases o <;> rfl

theorem SingleOp.load_ofBits (l b : Bool) : (SingleOp.ofBits l b).load = l := by cases l <;> cases b <;> rfl

theorem SingleOp.byte_ofBits (l b : Bool) : (SingleOp.ofBits l b).byte = b := by cases l <;> cases b <;> rfl

theorem HalfOp.load_ofBits (l : Bool) (sh : BitVec 2) : (HalfOp.ofBits l sh).load = l := by revert l sh; decide

theorem HalfOp.sh_ofBits {l : Bool} {sh : BitVec 2} (hsh : sh ≠ 0b00#2) (hl : ¬(l = false ∧ sh ≠ 0b01#2)) :
    (HalfOp.ofBits l sh).sh = sh := by revert l sh; decide

section
variable {w : Word}

theorem hasWord_decodeUndefined (h : undefinedBits (bits w 0 28) = true) : (decodeUndefined (condAt w) w).HasWord w :=
  ⟨h, encode_undefined_eq_iff.2 ⟨rfl, rfl⟩⟩

theorem hasWord_decodeMultiply (hext : inExtensionSpace (bits w 0 28) = true) (h5 : bits w 5 2 = 0b00#2)
    (h22 : bits w 22 3 = 0b000#3) : (decodeMultiply (condAt w) w).HasWord w := by
  obtain ⟨h25, h7, h4⟩ := inExtensionSpace_iff.1 hext
  unfold decodeMultiply
  cases ha : bit w 21 <;>
    exact ⟨rfl, encodeMultiply_eq_iff.2 ⟨rfl, h25, h22, ha, rfl, rfl, rfl, rfl, h7, h5, h4, rfl⟩⟩

theorem hasWord_decodeMultiplyLong (hext : inExtensionSpace (bits w 0 28) = true) (h5 : bits w 5 2 = 0b00#2)
    (h23 : bits w 23 2 = 0b01#2) : (decodeMultiplyLong (condAt w) w).HasWord w := by
  obtain ⟨h25, h7, h4⟩ := inExtensionSpace_iff.1 hext
  unfold decodeMultiplyLong
  cases hu : bit w 22 <;> cases ha : bit w 21 <;>
    exact ⟨rfl, encodeMultiplyLong_eq_iff.2 ⟨rfl, h25, h23, hu, ha, rfl, rfl, rfl, rfl, h7, h5, h4, rfl⟩⟩

theorem hasWord_decodeSwap (hext : inExtensionSpace (bits w 0 28) = true) (h5 : bits w 5 2 = 0b00#2)
    (h : bits w 23 2 = 0b10#2 ∧ bits w 20 2 = 0b00#2 ∧ bits w 8 4 = 0b0000#4) :
    (decodeSwap (condAt w) w).HasWord w := by
  obtain ⟨h25, h7, h4⟩ := inExtensionSpace_iff.1 hext
  obtain ⟨h23, h20, h8⟩ := h
  unfold decodeSwap
  cases hb : bit w 22 <;>
    exact ⟨rfl, encodeSwap_eq_iff.2 ⟨rfl, h25, h23, hb, h20, rfl, rfl, h8, h7, h5, h4, rfl⟩⟩

theorem hasWord_ofHalf {op : HalfOp} {c : Cond} {p u wb : Bool} {rn rd : Reg} {o : HalfOffset}
    (h : encodeHalf op c p u wb rn rd o = w) : (Instr.ofHalf op c p u wb rn rd o).HasWord w :=
  ⟨wellFormed_ofHalf .., (encode_ofHalf ..).trans h⟩

theorem hasWord_decodeHalf_reg (hext : inExtensionSpace (bits w 0 28) = true) (h5 : bits w 5 2 ≠ 0b00#2)
    (hl : ¬(bit w 20 = false ∧ bits w 5 2 ≠ 0b01#2)) (h22 : bit w 22 = false) (h8 : bits w 8 4 = 0b0000#4) :
    (decodeHalf (condAt w) w (.reg (regAt w 0))).HasWord w := by
  obtain ⟨h25, h7, h4⟩ := inExtensionSpace_iff.1 hext
  exact hasWord_ofHalf (encodeHalf_reg_eq_iff.2 ⟨rfl, h25, rfl, rfl, h22, rfl, (HalfOp.load_ofBits _ _).symm, rfl, rfl,
    h8, h7, (HalfOp.sh_ofBits h5 hl).symm, h4, rfl⟩)

theorem hasWord_decodeHalf_imm (hext : inExtensionSpace (bits w 0 28) = true) (h5 : bits w 5 2 ≠ 0b00#2)
    (hl : ¬(bit w 20 = false ∧ bits w 5 2 ≠ 0b01#2)) (h22 : bit w 22 ≠ false) :
    (decodeHalf (condAt w) w (.imm (bits w 8 4) (bits w 0 4))).HasWord w := by
  obtain ⟨h25, h7, h4⟩ := inExtensionSpace_iff.1 hext
  exact hasWord_ofHalf (encodeHalf_imm_eq_iff.2 ⟨rfl, h25, rfl, rfl, Bool.of_not_eq_false h22, rfl,
    (HalfOp.load_ofBits _ _).symm, rfl, rfl, rfl, h7, (HalfOp.sh_ofBits h5 hl).symm, h4, rfl⟩)

theorem hasWord_decodeExtension (hext : inExtensionSpace (bits w 0 28) = true) :
    (decodeExtension (condAt w) w).HasWord w := by
  have hund := fun h => hasWord_decodeUndefined (undefinedBits_iff.2 (.inr (.inl (extensionUndefined_iff.2 ⟨hext, h⟩))))
  unfold decodeExtension
  split_ifs with h5 hmul hlong hswap hstore h22 h8
  · exact hasWord_decodeMultiply hext h5 hmul
  · exact hasWord_decodeMultiplyLong hext h5 hlong
  · exact hasWord_decodeSwap hext h5 hswap
  · exact hund (by rw [if_pos h5]; exact ⟨hmul, hlong, hswap⟩)
  · exact hund (by rw [if_neg h5]; exact .inl hstore)
  · exact hasWord_decodeHalf_reg hext h5 hstore h22 h8
  · exact hund (by rw [if_neg h5]; exact .inr ⟨h22, h8⟩)
  · exact hasWord_decodeHalf_imm hext h5 hstore h22

theorem hasWord_decodePsr (hpsr : inPsrSpace (bits w 0 28) = true) : (decodePsr (condAt w) w).HasWord w := by
  obtain ⟨-, -, h26, h23, -⟩ := inPsrSpace_iff.1 hpsr
  have h25 : bit w 25 = false → bits w 25 3 = 0b000#3 := fun h => (bits_class_iff w 0b00#2 false).2 ⟨h26, h⟩
  unfold decodePsr
  split_ifs with hmrs hmsr h16 h22 himm
  · obtain ⟨hI, h16, h0⟩ := hmrs
    exact ⟨rfl, encode_mrs_eq_iff.2 ⟨rfl, h25 hI, h23, rfl, h16, rfl, h0⟩⟩
  · obtain ⟨hI, h17, h12, h4⟩ := hmsr
    exact ⟨rfl, encodeMsrReg_eq_iff.2 ⟨rfl, h25 hI, h23, h22, h17, h16, h12, h4, rfl⟩⟩
  · obtain ⟨hI, h17, h12, h4⟩ := hmsr
    exact ⟨rfl, encodeMsrReg_eq_iff.2 ⟨rfl, h25 hI, h23, Bool.of_not_eq_true h22, h17, h16, h12, h4, rfl⟩⟩
  · obtain ⟨hI, h17, h12, h4⟩ := hmsr
    exact ⟨rfl, encodeMsrReg_eq_iff.2 ⟨rfl, h25 hI, h23, rfl, h17, Bool.of_not_eq_true h16, h12, h4, rfl⟩⟩
  · obtain ⟨hI, h16, h12⟩ := himm
    exact ⟨rfl, encode_msrFlagsImm_eq_iff.2 ⟨rfl, h26, hI, h23, rfl, h16, h12, rfl, rfl⟩⟩
  · exact hasWord_decodeUndefined (undefinedBits_iff.2 (.inr (.inr (psrUndefined_iff.2 ⟨hpsr, hmrs, hmsr, himm⟩))))

theorem hasWord_decodeDp (hext : inExtensionSpace (bits w 0 28) = false) (h26 : bits w 26 2 = 0b00#2)
    (hpsr : ¬(bits w 23 2 = 0b10#2 ∧ bit w 20 = false)) : (decodeDp (condAt w) w).HasWord w := by
  have h20 : bit w 20 = (bit w 20 || (DpOp.ofBits (bits w 21 4)).isCompare) := by
    rw [isCompare_at]
    cases h : bit w 20 with
    | true => rfl
    | false => simpa [h] using hpsr
  refine ⟨wellFormed_ofDp .., (encode_ofDp ..).trans ?_⟩
  unfold decodeOperand2
  split_ifs with h25 h4
  · exact encodeDp_imm_eq_iff.2 ⟨rfl, h26, h25, rfl, h20, rfl, rfl, rfl, rfl⟩
  · have h25 := Bool.of_not_eq_true h25
    have h7 : bit w 7 = false := by simpa [h25, h4] using (inExtensionSpace_eq_false_iff h26).1 hext
    exact encodeDp_shiftReg_eq_iff.2 ⟨rfl, h26, h25, rfl, h20, rfl, rfl, rfl, h7, rfl, h4, rfl⟩
  · exact encodeDp_shiftImm_eq_iff.2
      ⟨rfl, h26, Bool.of_not_eq_true h25, rfl, h20, rfl, rfl, rfl, rfl, Bool.of_not_eq_true h4, rfl⟩

theorem hasWord_decodeSingle (h26 : bits w 26 2 = 0b01#2) (hund : ¬(bits w 25 3 = 0b011#3 ∧ bit w 4 = true)) :
    (decodeSingle (condAt w) w).HasWord w := by
  refine ⟨wellFormed_ofSingle .., (encode_ofSingle ..).trans ?_⟩
  cases h25 : bit w 25 with
  | true =>
    have h4 : bit w 4 = false :=
      Bool.of_not_eq_true fun h4 => hund ⟨(bits_class_iff w 0b01#2 true).2 ⟨h26, h25⟩, h4⟩
    exact encodeSingle_reg_eq_iff.2 ⟨rfl, h26, h25, rfl, rfl, (SingleOp.byte_ofBits _ _).symm, rfl,
      (SingleOp.load_ofBits _ _).symm, rfl, rfl, rfl, rfl, h4, rfl⟩
  | false =>
    exact encodeSingle_imm_eq_iff.2 ⟨rfl, h26, h25, rfl, rfl, (SingleOp.byte_ofBits _ _).symm, rfl,
      (SingleOp.load_ofBits _ _).symm, rfl, rfl, rfl⟩

theorem hasWord_decodeBlock (h : bits w 25 3 = 0b100#3) : (decodeBlock (condAt w) w).HasWord w := by
  unfold decodeBlock
  cases hl : bit w 20 <;> exact ⟨rfl, encodeBlock_eq_iff.2 ⟨rfl, h, rfl, rfl, rfl, rfl, hl, rfl, rfl⟩⟩

theorem hasWord_decodeBranch (h : bits w 25 3 = 0b101#3) : (decodeBranch (condAt w) w).HasWord w := by
  unfold decodeBranch
  cases hl : bit w 24 <;> exact ⟨rfl, encodeBranch_eq_iff.2 ⟨rfl, h, hl, rfl⟩⟩

theorem hasWord_decodeCopTransfer (h : bits w 25 3 = 0b110#3) : (decodeCopTransfer (condAt w) w).HasWord w := by
  unfold decodeCopTransfer
  cases hl : bit w 20 <;> exact ⟨rfl, encodeCopTransfer_eq_iff.2 ⟨rfl, h, rfl, rfl, rfl, rfl, hl, rfl, rfl, rfl, rfl⟩⟩

theorem hasWord_decodeCopReg (h : bits w 24 4 = 0b1110#4) (h4 : bit w 4 = true) :
    (decodeCopReg (condAt w) w).HasWord w := by
  unfold decodeCopReg
  cases hl : bit w 20 <;> exact ⟨rfl, encodeCopReg_eq_iff.2 ⟨rfl, h, rfl, hl, rfl, rfl, rfl, rfl, h4, rfl⟩⟩

/-- What no step of R93 takes before the last has 1111 in bits 27:24. -/
theorem bits_24_of_no_other_class (h26 : bits w 26 2 ≠ 0b00#2) (hsingle : bits w 26 2 ≠ 0b01#2)
    (hblock : bits w 25 3 ≠ 0b100#3) (hbranch : bits w 25 3 ≠ 0b101#3) (hct : bits w 25 3 ≠ 0b110#3)
    (hcop : bits w 24 4 ≠ 0b1110#4) : bits w 24 4 = 0b1111#4 := by
  have hclass : ∀ x : BitVec 4, (x.extractLsb' 1 3).extractLsb' 1 2 = 0b00#2 ∨
      (x.extractLsb' 1 3).extractLsb' 1 2 = 0b01#2 ∨ x.extractLsb' 1 3 = 0b100#3 ∨ x.extractLsb' 1 3 = 0b101#3 ∨
      x.extractLsb' 1 3 = 0b110#3 ∨ x = 0b1110#4 ∨ x = 0b1111#4 := by decide
  have h := hclass (bits w 24 4)
  rw [← bits_25_of_24, ← bits_26_of_25] at h
  simpa only [h26, hsingle, hblock, hbranch, hct, hcop, false_or] using h

theorem hasWord_decodeWord (w : Word) : (decodeWord w).HasWord w := by
  by_cases hext : inExtensionSpace (bits w 0 28) = true
  · rw [decodeWord_extension hext]
    exact hasWord_decodeExtension hext
  have hext := Bool.of_not_eq_true hext
  by_cases hbx : bits w 4 24 = 0x012FFF1#24
  · rw [decodeWord_bx hbx]
    exact ⟨rfl, encode_bx_eq_iff.2 ⟨rfl, hbx, rfl⟩⟩
  by_cases h26 : bits w 26 2 = 0b00#2
  · by_cases hpsr : bits w 23 2 = 0b10#2 ∧ bit w 20 = false
    · have hpsr := inPsrSpace_iff.2 ⟨hext, hbx, h26, hpsr⟩
      rw [decodeWord_psr hpsr]
      exact hasWord_decodePsr hpsr
    · rw [decodeWord_dp hext h26 hpsr]
      exact hasWord_decodeDp hext h26 hpsr
  · rw [decodeWord_high h26]
    split_ifs with hund hsingle hblock hbranch hct hco hcr
    · exact hasWord_decodeUndefined (undefinedBits_iff.2 (.inl (architectedUndefined_iff.2 hund)))
    · exact hasWord_decodeSingle hsingle hund
    · exact hasWord_decodeBlock hblock
    · exact hasWord_decodeBranch hbranch
    · exact hasWord_decodeCopTransfer hct
    · obtain ⟨h24, h4⟩ := hco
      exact ⟨rfl, encode_cdp_eq_iff.2 ⟨rfl, h24, rfl, rfl, rfl, rfl, rfl, h4, rfl⟩⟩
    · exact hasWord_decodeCopReg hcr (Bool.of_not_eq_false fun h4 => hco ⟨hcr, h4⟩)
    · exact ⟨rfl, encode_swi_eq_iff.2 ⟨rfl, bits_24_of_no_other_class h26 hsingle hblock hbranch hct hcr, rfl⟩⟩

end

/-- Settles O10: along the decoder, each branch's tests and fields are what its format says of the word. -/
theorem encodeOfDecode : Obligations.EncodeOfDecode := by
  unfold Obligations.EncodeOfDecode
  exact hasWord_decodeWord

/-- Settles O12: a word decoded as Undefined is the word of a well-formed `undefined` (O10), and the listed bits lead
the decoder to `undefined` (as in O9). -/
theorem undefinedWordsAreThoseListed : Obligations.UndefinedWordsAreThoseListed := by
  unfold Obligations.UndefinedWordsAreThoseListed
  intro w
  constructor
  · rintro ⟨c, body, h⟩
    obtain ⟨hwf, hw⟩ := hasWord_decodeWord w
    rw [h] at hwf hw
    obtain ⟨-, rfl⟩ := encode_undefined_eq_iff.1 hw
    exact hwf
  · exact fun h => ⟨_, _, decodeWord_of_undefinedBits h⟩

/-- Settles O11: the decoder evaluated on the sixteen words. -/
theorem knownWordsDecode : Obligations.KnownWordsDecode := by
  unfold Obligations.KnownWordsDecode
  decide

end Sys2Proof

namespace Sys2Proof.Machine

/-! ## Before the fetch (R146, R149, R395) -/

theorem acceptInterrupt_of_pending {s : State} {k : ExceptionKind} (h : s.pendingInterrupt = some k) :
    s.acceptInterrupt = takeException k s.fetchAddr s := by
  unfold State.acceptInterrupt
  rw [h]

theorem acceptInterrupt_of_none {s : State} (h : s.pendingInterrupt = none) : s.acceptInterrupt = s := by
  unfold State.acceptInterrupt
  rw [h]

/-- Every request is masked or absent: nothing is taken (R395). -/
theorem pendingInterrupt_eq_none {s : State} (hfiq : ¬ (s.fiqRequest = true ∧ s.cpsr.f = false))
    (hirq : ¬ (s.irqRequest = true ∧ s.cpsr.i = false)) : s.pendingInterrupt = none := by
  unfold State.pendingInterrupt
  rw [if_neg (by simpa using hfiq), if_neg (by simpa using hirq)]

/-- A step in THUMB state, after the interrupts were sampled (R141). -/
theorem step_of_thumb {s : State} (h : s.acceptInterrupt.cpsr.t = true) : step s = .refused .thumbState := by
  unfold step
  exact if_pos h

/-- A step in ARM state, after the interrupts were sampled (R149). -/
theorem step_of_arm {s : State} (h : s.acceptInterrupt.cpsr.t = false) :
    step s = exec (decodeWord s.acceptInterrupt.fetchWord) s.acceptInterrupt.preloadPc := by
  unfold step
  exact if_neg (by simp [h])

/-- A step that goes on is `exec` of the fetched instruction. -/
theorem step_next {s t : State} (h : step s = .next t) :
    exec (decodeWord s.acceptInterrupt.fetchWord) s.acceptInterrupt.preloadPc = .next t := by
  cases ht : s.acceptInterrupt.cpsr.t with
  | true => rw [step_of_thumb ht] at h; exact nomatch h
  | false => rwa [step_of_arm ht] at h

/-! ## The fetch address stays a multiple of 4 (R147, R149) -/

theorem vector_low (k : ExceptionKind) : k.vector.extractLsb' 0 2 = 0 := by cases k <;> rfl

/-- The next instruction's address has the low bits of this one's (R147). -/
theorem low_add_four (a : Word) : (a + 4).extractLsb' 0 2 = a.extractLsb' 0 2 := by
  have h4 : (4 : Word).toNat = 4 := rfl
  apply BitVec.eq_of_toNat_eq
  simp only [BitVec.extractLsb'_toNat, Nat.shiftRight_zero, BitVec.toNat_add, h4]
  omega

/-- Wherever the environment goes on, it fetches at a multiple of 4: an aligned R15, a vector, or `A + 4` (R149). -/
theorem conditionally_fetchAddr_low {c : Cond} {s t : State} {r : StepResult} (h : conditionally c s r = .next t)
    (hs : s.fetchAddr.extractLsb' 0 2 = 0) : t.fetchAddr.extractLsb' 0 2 = 0 := by
  have hnext : (s.fetchAddr + 4).extractLsb' 0 2 = 0 := (low_add_four _).trans hs
  obtain ⟨-, rfl⟩ | ⟨-, h⟩ := conditionally_next h
  · exact hnext
  · obtain ⟨u, -, rfl⟩ | ⟨u, -, rfl⟩ | ⟨-, rfl⟩ | ⟨k, -, rfl⟩ := environment_next h
    · exact alignWord_low _
    · exact hnext
    · exact vector_low .undefined
    · exact vector_low .swi

theorem exec_fetchAddr_low {i : Instr} {s t : State} (h : exec i s = .next t)
    (hs : s.fetchAddr.extractLsb' 0 2 = 0) : t.fetchAddr.extractLsb' 0 2 = 0 := by
  obtain ⟨r, hr⟩ := exec_conditional i s
  exact conditionally_fetchAddr_low (hr ▸ h) hs

/-! ## Memory stays canonical (R61, R62; the canonical form is the model's) -/

/-- A meaning behind a form check whose `Ok` keeps the canonical form keeps it under its condition. -/
theorem conditionally_unlessForm_wf {c : Cond} {s t : State} {r : StepResult} {bad : Bool}
    (h : conditionally c s (unlessForm bad r) = .next t)
    (hok : ∀ u w, r = .ok u w → Memory.wf s.mem = true → Memory.wf u.mem = true) (hs : Memory.wf s.mem = true) :
    Memory.wf t.mem = true := by
  obtain ⟨-, rfl⟩ | ⟨-, h⟩ := conditionally_next h
  · exact hs
  · obtain ⟨u, hu, rfl⟩ | ⟨u, hu, rfl⟩ | ⟨-, rfl⟩ | ⟨k, -, rfl⟩ := environment_next h
    · exact hok u _ (unlessForm_ok hu).2 hs
    · exact hok u _ (unlessForm_ok hu).2 hs
    · exact hs
    · exact hs

theorem store_wf {k : StoreKind} {p u w : Bool} {rn rd : Reg} {off : Word} {s t : State} {pw : Bool}
    (h : store k p u w rn rd off s = .ok t pw) : Memory.wf s.mem = true → Memory.wf t.mem = true := by
  obtain ⟨-, -, -, -, -, -, hw⟩ := store_effect h
  exact hw

theorem swap_wf {lk : LoadKind} {sk : StoreKind} {rn rd rm : Reg} {s t : State} {pw : Bool}
    (h : swap lk sk rn rd rm s = .ok t pw) : Memory.wf s.mem = true → Memory.wf t.mem = true := by
  obtain ⟨-, -, -, -, -, -, hw, -⟩ := swap_effect h
  exact hw

theorem storeMultiple_wf {p u sb w : Bool} {rn : Reg} {list : BitVec 16} {s t : State} {pw : Bool}
    (h : storeMultiple p u sb w rn list s = .ok t pw) : Memory.wf s.mem = true → Memory.wf t.mem = true := by
  obtain ⟨-, -, -, -, -, -, -, hw⟩ := storeMultiple_effect h
  exact fun hs => (hw hs).1

/-- The instructions that may store keep the canonical form, family by family (R67). -/
theorem exec_wf_of_mayStore {i : Instr} {s t : State} (hi : i.MayStore) (h : exec i s = .next t)
    (hs : Memory.wf s.mem = true) : Memory.wf t.mem = true := by
  obtain ⟨op, c, p, u, w, rn, rd, o, hop, rfl⟩ | ⟨c, p, u, w, rn, rd, o, rfl⟩ | ⟨c, p, u, sb, w, rn, list, rfl⟩ |
    ⟨c, rn, rd, rm, rfl⟩ | ⟨c, rn, rd, rm, rfl⟩ := hi
  · cases op with
    | str => rw [exec_str] at h; exact conditionally_unlessForm_wf h (fun _ _ => store_wf) hs
    | strb => rw [exec_strb] at h; exact conditionally_unlessForm_wf h (fun _ _ => store_wf) hs
    | ldr | ldrb => exact nomatch hop
  · rw [exec_strh] at h
    exact conditionally_unlessForm_wf h (fun _ _ hu => store_wf (unlessForm_ok hu).2) hs
  · exact conditionally_unlessForm_wf h (fun _ _ => storeMultiple_wf) hs
  · exact conditionally_unlessForm_wf h (fun _ _ => swap_wf) hs
  · exact conditionally_unlessForm_wf h (fun _ _ => swap_wf) hs

theorem exec_wf {i : Instr} {s t : State} (h : exec i s = .next t) (hs : Memory.wf s.mem = true) :
    Memory.wf t.mem = true := by
  obtain hi | hm := exec_mayStore_or_mem h
  · exact exec_wf_of_mayStore hi h hs
  · rwa [hm]

/-! ## The invariant -/

/-- Entering an exception writes no memory and goes to a vector (R390, R391). -/
theorem takeException_inv {s : State} (k : ExceptionKind) (a : Word) (hs : s.Inv) : (takeException k a s).Inv :=
  ⟨hs.1, vector_low k⟩

theorem acceptInterrupt_inv {s : State} (hs : s.Inv) : s.acceptInterrupt.Inv := by
  cases hp : s.pendingInterrupt with
  | none => rwa [acceptInterrupt_of_none hp]
  | some k => rw [acceptInterrupt_of_pending hp]; exact takeException_inv k _ hs

theorem preloadPc_inv {s : State} (hs : s.Inv) : s.preloadPc.Inv := hs

theorem exec_inv {i : Instr} {s t : State} (h : exec i s = .next t) (hs : s.Inv) : t.Inv :=
  ⟨exec_wf h hs.1, exec_fetchAddr_low h hs.2⟩

/-- Settles O3: the interrupt entry, the preload and the instruction each keep the invariant. -/
theorem stepKeepsInvariant : Obligations.StepKeepsInvariant := by
  unfold Obligations.StepKeepsInvariant
  intro s t hs h
  exact exec_inv (step_next h) (preloadPc_inv (acceptInterrupt_inv hs))

/-! ## One step (R141, R149) -/

/-- The word fetched is the word of the four bytes from the aligned address up (R64). -/
theorem fetchWord_eq_wordOfBytes (s : State) :
    s.fetchWord = wordOfBytes (s.read8 (alignWord s.fetchAddr)) (s.read8 (alignWord s.fetchAddr + 1))
      (s.read8 (alignWord s.fetchAddr + 2)) (s.read8 (alignWord s.fetchAddr + 3)) := rfl

/-- Settles O4: with nothing to accept the step is `exec` of the fetched word, which is the word of the four bytes. -/
theorem stepRunsDecodedInstruction : Obligations.StepRunsDecodedInstruction := by
  unfold Obligations.StepRunsDecodedInstruction
  intro s i hfiq hirq ht hdec
  have haccept := acceptInterrupt_of_none (pendingInterrupt_eq_none hfiq hirq)
  have hi : decodeWord s.fetchWord = i := by
    rw [fetchWord_eq_wordOfBytes]
    exact congrArg Prod.fst (Except.ok.inj hdec)
  rw [step_of_arm (by rwa [haccept]), haccept, hi]
  rfl

/-- Settles O6: with no request nothing is entered that would clear T, so the step is one in THUMB state. -/
theorem thumbStateIsRefused : Obligations.ThumbStateIsRefused := by
  unfold Obligations.ThumbStateIsRefused
  intro s ht hfiq hirq
  have haccept := acceptInterrupt_of_none (s := s) (pendingInterrupt_eq_none (by simp [hfiq]) (by simp [hirq]))
  exact step_of_thumb (by rwa [haccept])

/-! ## The condition (R91, R143, R150 to R152) -/

/-- Settles O8: each number by computation, and each test as the proposition its Boolean says. -/
theorem conditionTable : Obligations.ConditionTable := by
  unfold Obligations.ConditionTable
  intro n z c v
  simp [Cond.bits, shouldExecute, Config.nvExecutes]

end Sys2Proof.Machine

namespace Sys2Proof

/-- Bits 31:28 of every encoded instruction are its condition field, format by format (R91). -/
theorem bits_encode_cond (i : Instr) : bits (encode i) 28 4 = i.cond.bits := by
  cases i using Instr.byForm with
  | dp op c sb rn rd o => rw [encode_ofDp, cond_ofDp]; exact cond_encodeDp ..
  | single op c p u w rn rd o => rw [encode_ofSingle, cond_ofSingle]; exact cond_encodeSingle ..
  | half op c p u w rn rd o => rw [encode_ofHalf, cond_ofHalf]; exact cond_encodeHalf ..
  | mrs => exact Laws.CondField.mrs ..
  | msrCpsr => exact cond_encodeMsrReg ..
  | msrSpsr => exact cond_encodeMsrReg ..
  | msrFlagsReg => exact cond_encodeMsrReg ..
  | msrFlagsImm => exact Laws.CondField.msrFlagsImm ..
  | mul => exact cond_encodeMultiply ..
  | mla => exact cond_encodeMultiply ..
  | umull => exact cond_encodeMultiplyLong ..
  | umlal => exact cond_encodeMultiplyLong ..
  | smull => exact cond_encodeMultiplyLong ..
  | smlal => exact cond_encodeMultiplyLong ..
  | swp => exact cond_encodeSwap ..
  | swpb => exact cond_encodeSwap ..
  | bx => exact Laws.CondField.bx ..
  | stm => exact cond_encodeBlock ..
  | ldm => exact cond_encodeBlock ..
  | b => exact Laws.CondField.b ..
  | bl => exact Laws.CondField.bl ..
  | stc => exact cond_encodeCopTransfer ..
  | ldc => exact cond_encodeCopTransfer ..
  | cdp => exact Laws.CondField.cdp ..
  | mcr => exact cond_encodeCopReg ..
  | mrc => exact cond_encodeCopReg ..
  | swi => exact Laws.CondField.swi ..
  | undefined => exact Laws.CondField.undefined ..

/-- The decoder reads the condition from bits 31:28, whatever the variant (R91). -/
theorem cond_decodeWord (w : Word) : (decodeWord w).cond = condAt w := by
  obtain ⟨-, hw⟩ := hasWord_decodeWord w
  calc (decodeWord w).cond
      = Cond.ofBits (decodeWord w).cond.bits := (Cond.ofBits_bits _).symm
    _ = Cond.ofBits (bits (encode (decodeWord w)) 28 4) := by rw [bits_encode_cond]
    _ = condAt w := by rw [hw]

end Sys2Proof

namespace Sys2Proof.Machine

/-- Condition 1111 never passes (R152). -/
theorem passes_nv (s : State) : s.passes .nv = false := rfl

/-- Settles O7: a failed condition moves on by 4, and a word with bits 31:28 = 1111 decodes to the condition that never
passes. -/
theorem failedConditionIsNoOp : Obligations.FailedConditionIsNoOp := by
  unfold Obligations.FailedConditionIsNoOp
  refine ⟨fun i s h => exec_of_fails h, fun w s hw => exec_of_fails ?_⟩
  have hcond : (decodeWord w).cond = .nv := by
    rw [cond_decodeWord, condAt, hw]
    rfl
  rw [hcond]
  exact passes_nv s

end Sys2Proof.Machine

namespace Sys2Proof.Machine

/-! ## The shifter by branches (R172 to R176) -/

/-- Amount 0 passes the value through without a carry, for every kind but RRX (R172). -/
theorem shift_zero (x : Word) (cin : Bool) {k : BarrelOp} (hk : k ≠ .rrx) : shift x k 0 cin = (x, none) := by
  cases k with
  | rrx => exact absurd rfl hk
  | lsl | lsr | asr | ror => rfl

section
variable {n : Nat} (x : Word) (cin : Bool)

theorem shift_lsl_of_lt (h1 : 1 ≤ n) (h31 : n ≤ 31) :
    shift x .lsl n cin = (x <<< n, some (x.getLsbD (32 - n))) := by
  simp only [shift]
  rw [if_neg (by omega), if_pos (by omega)]

theorem shift_lsl_of_gt (h : 33 ≤ n) : shift x .lsl n cin = (0, some false) := by
  simp only [shift]
  rw [if_neg (by omega), if_neg (by omega), if_neg (by omega)]

theorem shift_lsr_of_lt (h1 : 1 ≤ n) (h31 : n ≤ 31) :
    shift x .lsr n cin = (x >>> n, some (x.getLsbD (n - 1))) := by
  simp only [shift]
  rw [if_neg (by omega), if_pos (by omega)]

theorem shift_lsr_of_gt (h : 33 ≤ n) : shift x .lsr n cin = (0, some false) := by
  simp only [shift]
  rw [if_neg (by omega), if_neg (by omega), if_neg (by omega)]

theorem shift_asr_of_lt (h1 : 1 ≤ n) (h31 : n ≤ 31) :
    shift x .asr n cin = (x.sshiftRight n, some (x.getLsbD (n - 1))) := by
  simp only [shift]
  rw [if_neg (by omega), if_pos (by omega)]

theorem shift_asr_of_ge (h : 32 ≤ n) :
    shift x .asr n cin = (if x.getLsbD 31 then 0xFFFFFFFF else 0, some (x.getLsbD 31)) := by
  simp only [shift]
  rw [if_neg (by omega), if_neg (by omega)]

theorem shift_ror_of_multiple (h1 : 1 ≤ n) (hm : n % 32 = 0) : shift x .ror n cin = (x, some (x.getLsbD 31)) := by
  simp only [shift]
  rw [if_neg (by omega), if_pos hm]

theorem shift_ror_of_rotate (hm : n % 32 ≠ 0) :
    shift x .ror n cin = (x.rotateRight (n % 32), some (x.getLsbD (n % 32 - 1))) := by
  simp only [shift]
  rw [if_neg (by omega), if_neg hm]

end

/-! ## The shifted words as numbers -/

theorem shiftLeft_eq_ofNat (x : Word) (n : Nat) : x <<< n = BitVec.ofNat 32 (x.toNat * 2 ^ n) := by
  apply BitVec.eq_of_toNat_eq
  rw [BitVec.toNat_shiftLeft, BitVec.toNat_ofNat, Nat.shiftLeft_eq]

theorem ushiftRight_eq_ofNat (x : Word) (n : Nat) : x >>> n = BitVec.ofNat 32 (x.toNat / 2 ^ n) := by
  apply BitVec.eq_of_toNat_eq
  have hlt : x.toNat / 2 ^ n < 2 ^ 32 := (Nat.div_le_self _ _).trans_lt x.isLt
  rw [BitVec.toNat_ushiftRight, BitVec.toNat_ofNat, Nat.shiftRight_eq_div_pow, Nat.mod_eq_of_lt hlt]

/-- An arithmetic shift is the floor of the signed value over `2^n` (R175). -/
theorem sshiftRight_eq_ofInt (x : Word) (n : Nat) : x.sshiftRight n = BitVec.ofInt 32 (x.toInt / 2 ^ n) := by
  rw [BitVec.sshiftRight, Int.shiftRight_eq_div_pow, Nat.cast_pow, Nat.cast_ofNat]

/-- Bit 31 is the sign of the signed value. -/
theorem bit31_eq_sign (x : Word) : x.getLsbD 31 = decide (x.toInt < 0) :=
  (BitVec.msb_eq_getLsbD_last x).symm.trans BitVec.msb_eq_toInt

/-- The two parts of a rotate by 1 to 31 share no bit, so the rotate is their sum (R176). -/
theorem rotateRight_eq_ofNat (x : Word) {m : Nat} (h31 : m < 32) :
    x.rotateRight m = BitVec.ofNat 32 (x.toNat / 2 ^ m + x.toNat * 2 ^ (32 - m)) := by
  have hdisjoint : x >>> m &&& x <<< (32 - m) = 0#32 := by
    apply BitVec.eq_of_getLsbD_eq
    intro i hi
    rw [BitVec.getLsbD_and, BitVec.getLsbD_ushiftRight, BitVec.getLsbD_shiftLeft, BitVec.getLsbD_zero]
    by_cases hlow : i < 32 - m
    · simp [hlow]
    · rw [BitVec.getLsbD_of_ge x (m + i) (by omega), Bool.false_and]
  calc x.rotateRight m
      = x >>> m ||| x <<< (32 - m) := BitVec.rotateRight_eq_rotateRightAux_of_lt h31
    _ = x >>> m + x <<< (32 - m) := (BitVec.add_eq_or_of_and_eq_zero _ _ hdisjoint).symm
    _ = _ := by rw [ushiftRight_eq_ofNat, shiftLeft_eq_ofNat, ← BitVec.ofNat_add]

/-- A rotate by 1 to 31 carries bit `m - 1` to bit 31 (R176). -/
theorem bit31_rotateRight (x : Word) {m : Nat} (h1 : 1 ≤ m) (h31 : m ≤ 31) :
    (x.rotateRight m).getLsbD 31 = x.getLsbD (m - 1) := by
  have hm : m % 32 = m := Nat.mod_eq_of_lt (by omega)
  have hhigh : ¬ 31 < 32 - m := by omega
  have hfrom : 31 - (32 - m) = m - 1 := by omega
  rw [BitVec.getLsbD_rotateRight, hm]
  simp [hhigh, hfrom]

/-- Two rotates by 32 in all give the word back (R182). -/
theorem rotateRight_rotateRight_complement (x : Word) {n : Nat} (h1 : 1 ≤ n) (h31 : n ≤ 31) :
    (x.rotateRight n).rotateRight (32 - n) = x := by
  have hn : n % 32 = n := Nat.mod_eq_of_lt (by omega)
  have hc : (32 - n) % 32 = 32 - n := Nat.mod_eq_of_lt (by omega)
  apply BitVec.eq_of_getLsbD_eq
  intro i hi
  simp only [BitVec.getLsbD_rotateRight, hn, hc]
  by_cases hlow : i < n
  · have hback : 32 - n + i - (32 - n) = i := by omega
    have hin : 32 - n + i < 32 := by omega
    simp [show i < 32 - (32 - n) by omega, hback, hin]
  · have hback : n + (i - (32 - (32 - n))) = i := by omega
    simp [show ¬ i < 32 - (32 - n) by omega, show i - (32 - (32 - n)) < 32 - n by omega, hback, hi]

/-- RRX is bit 31 from the carry above the value halved (R178). -/
theorem rrx_eq_ofNat (x : Word) (cin : Bool) :
    BitVec.ofBool cin ++ x.extractLsb' 1 31 = BitVec.ofNat 32 ((if cin then 2 ^ 31 else 0) + x.toNat / 2) := by
  have hx := x.isLt
  apply BitVec.eq_of_toNat_eq
  rw [toNat_append_eq_add, BitVec.toNat_ofBool, BitVec.extractLsb'_toNat, BitVec.toNat_ofNat,
    Nat.shiftRight_eq_div_pow]
  cases cin with
  | false => simp only [Bool.toNat_false, Bool.false_eq_true, if_false]; omega
  | true => simp only [Bool.toNat_true, if_true]; omega

/-- From amount 1 up, the carry of ROR is bit 31 of its result (R176). -/
theorem shift_ror_carry (x : Word) (cin : Bool) {n : Nat} (h1 : 1 ≤ n) :
    (shift x .ror n cin).2 = some ((shift x .ror n cin).1.getLsbD 31) := by
  by_cases hm : n % 32 = 0
  · rw [shift_ror_of_multiple x cin h1 hm]
  · rw [shift_ror_of_rotate x cin hm, bit31_rotateRight x (by omega) (by omega)]

/-- ROR by 1 to 31 rotates by the amount itself. -/
theorem shift_ror_result (x : Word) (cin : Bool) {n : Nat} (h1 : 1 ≤ n) (h31 : n ≤ 31) :
    (shift x .ror n cin).1 = x.rotateRight n := by
  have hn : n % 32 = n := Nat.mod_eq_of_lt (by omega)
  rw [shift_ror_of_rotate x cin (by omega), hn]

/-- Settles O13: each range of amounts is one branch of the shifter, and each shifted word a number. -/
theorem shiftByEveryAmount : Obligations.ShiftByEveryAmount := by
  unfold Obligations.ShiftByEveryAmount
  intro x n cin
  refine ⟨fun k => shift_zero x cin, fun h1 h31 => ?_, rfl, shift_lsl_of_gt x cin, fun h1 h31 => ?_, rfl,
    shift_lsr_of_gt x cin, fun h1 h31 => ?_, fun h => ?_⟩
  · rw [shift_lsl_of_lt x cin h1 h31, shiftLeft_eq_ofNat]
  · rw [shift_lsr_of_lt x cin h1 h31, ushiftRight_eq_ofNat]
  · rw [shift_asr_of_lt x cin h1 h31, sshiftRight_eq_ofInt]
  · simp only [shift_asr_of_ge x cin h, bit31_eq_sign, decide_eq_true_eq]

/-- Settles O14: the rotate as the sum of its two parts, its bit 31, and its round trip bit by bit. -/
theorem rotateByEveryAmount : Obligations.RotateByEveryAmount := by
  unfold Obligations.RotateByEveryAmount
  intro x n cin
  refine ⟨shift_ror_of_multiple x cin, fun hm => ?_, shift_ror_carry x cin, ?_, fun h1 h31 => ?_⟩
  · rw [shift_ror_of_rotate x cin hm, rotateRight_eq_ofNat x (Nat.mod_lt n (by decide))]
  · rw [shift, rrx_eq_ofNat]
  · rw [shift_ror_result x cin h1 h31, shift_ror_result _ cin (by omega) (by omega),
      rotateRight_rotateRight_complement x h1 h31]

/-! ## From the encoding to the shifter (R177 to R181) -/

/-- An immediate amount other than 0 is itself, under the encoded kind (R180). -/
theorem immAmount_of_ne_zero (kind : ShiftKind) {amount5 : BitVec 5} (h : amount5 ≠ 0) :
    immAmount kind amount5 = (ShiftKind.toBarrel kind, amount5.toNat) := if_neg h

/-- The low byte as a number (R177). -/
theorem regAmount_eq (rs : Reg) (s : State) : regAmount rs s = (s.readReg rs).toNat % 256 := by
  rw [regAmount, BitVec.extractLsb'_toNat, Nat.shiftRight_zero]

/-- An immediate with `rot = 0` is not rotated and has no carry (R181). -/
theorem operand2_imm_zero (imm8 : BitVec 8) (s : State) : operand2 (.imm 0 imm8) s = (imm8.zeroExtend 32, none) :=
  Prod.ext (rotateRight_zero _) rfl

/-- A rotated immediate is ROR of the shifter by twice `rot`: its bit 31 is the carry R176 gives (R181). -/
theorem operand2_imm_rotated {rot : BitVec 4} (h : rot ≠ 0) (imm8 : BitVec 8) (s : State) (cin : Bool) :
    operand2 (.imm rot imm8) s = shift (imm8.zeroExtend 32) .ror (2 * rot.toNat) cin := by
  have hlt := rot.isLt
  have hpos : 1 ≤ rot.toNat := Nat.pos_of_ne_zero fun h0 => h (BitVec.eq_of_toNat_eq h0)
  have hval : (shift (imm8.zeroExtend 32) .ror (2 * rot.toNat) cin).1 = rotatedImm rot imm8 :=
    shift_ror_result _ cin (by omega) (by omega)
  have hcarry := shift_ror_carry (imm8.zeroExtend 32) cin (n := 2 * rot.toNat) (by omega)
  rw [hval] at hcarry
  rw [operand2, if_neg h]
  exact Prod.ext hval.symm hcarry.symm

/-- Settles O15: the immediate amounts of 0 by computation, the others and the low byte as numbers, and a rotated
immediate as ROR of the shifter. -/
theorem operand2ReachesShifter : Obligations.Operand2ReachesShifter := by
  unfold Obligations.Operand2ReachesShifter
  intro s rm rs kind amount5 rot imm8
  refine ⟨rfl, rfl, rfl, rfl, fun h => ?_, ?_, operand2_imm_zero imm8 s, fun h => operand2_imm_rotated h imm8 s _⟩
  · rw [operand2, shiftByImm, immAmount_of_ne_zero kind h]
  · rw [operand2, regAmount_eq]

end Sys2Proof.Machine

namespace Sys2Proof.Machine

/-! ## The adder on the integers (R202) -/

theorem addWithCarry_result (a b : Word) (c : Bool) :
    (addWithCarry a b c).1 = BitVec.ofNat 32 (a.toNat + b.toNat + c.toNat) := rfl

theorem addWithCarry_carry (a b : Word) (c : Bool) :
    (addWithCarry a b c).2.1 = decide (2 ^ 32 ≤ a.toNat + b.toNat + c.toNat) := rfl

theorem addWithCarry_overflow_iff_signs (a b : Word) (c : Bool) :
    (addWithCarry a b c).2.2 = true ↔
      a.getLsbD 31 = b.getLsbD 31 ∧ (addWithCarry a b c).1.getLsbD 31 ≠ a.getLsbD 31 := by
  simp [addWithCarry]

/-- The signed value of the result is the signed sum, wrapped. -/
theorem addWithCarry_result_toInt (a b : Word) (c : Bool) :
    (addWithCarry a b c).1.toInt = (a.toInt + b.toInt + c.toNat).bmod (2 ^ 32) := by
  have hsum : (addWithCarry a b c).1 = a + b + BitVec.ofNat 32 c.toNat := by
    rw [addWithCarry_result, BitVec.ofNat_add, BitVec.ofNat_add, BitVec.ofNat_toNat, BitVec.ofNat_toNat,
      BitVec.setWidth_eq, BitVec.setWidth_eq]
  have hc : (BitVec.ofNat 32 c.toNat).toInt = c.toNat := by cases c <;> rfl
  rw [hsum, BitVec.toInt_add, BitVec.toInt_add, Int.bmod_add_bmod, hc]

/-- Overflow is "the signed sum is out of range": two operands of one sign, a result of the other (R202). -/
theorem addWithCarry_overflow (a b : Word) (c : Bool) :
    (addWithCarry a b c).2.2 =
      decide (a.toInt + b.toInt + c.toNat < -2 ^ 31 ∨ 2 ^ 31 ≤ a.toInt + b.toInt + c.toNat) := by
  have hr := addWithCarry_result_toInt a b c
  have ha := BitVec.toInt_lt (x := a); have ha' := BitVec.le_toInt a
  have hb := BitVec.toInt_lt (x := b); have hb' := BitVec.le_toInt b
  have hc := Bool.toNat_le c
  rw [Bool.eq_iff_iff, decide_eq_true_iff, addWithCarry_overflow_iff_signs]
  simp only [bit31_eq_sign, ne_eq, decide_eq_decide]
  rw [hr]
  simp only [Int.bmod_def]
  omega

/-! ### Subtraction: the inverted operand and the carry, `k = 1 - carry` being the borrow (R201, R202) -/

section
variable (a b : Word) (c : Bool)

theorem not_toNat_add_one : (~~~b).toNat + 1 = 2 ^ 32 - b.toNat := by
  have := b.isLt
  rw [BitVec.toNat_not]
  omega

theorem not_toInt : (~~~b).toInt = -b.toInt - 1 := by
  have hb := not_toNat_add_one b
  rw [BitVec.toInt_eq_toNat_cond, BitVec.toInt_eq_toNat_cond]
  omega

theorem carry_toNat_add_borrow : c.toNat + (1 - c.toNat) = 1 := by cases c <;> rfl

theorem addWithCarry_not_result :
    (addWithCarry a (~~~b) c).1 = BitVec.ofInt 32 ((a.toNat : Int) - b.toNat - (1 - c.toNat : Nat)) := by
  have hb := not_toNat_add_one b
  have hlt := b.isLt
  have hk := carry_toNat_add_borrow c
  have hsum : ((a.toNat + (~~~b).toNat + c.toNat : Nat) : Int) =
      (a.toNat : Int) - b.toNat - (1 - c.toNat : Nat) + 2 ^ 32 := by omega
  rw [addWithCarry_result, ← BitVec.ofInt_natCast, hsum, BitVec.ofInt_add]
  simp

/-- Carry of a subtraction is "no borrow" (R202). -/
theorem addWithCarry_not_carry :
    (addWithCarry a (~~~b) c).2.1 = decide (b.toNat + (1 - c.toNat) ≤ a.toNat) := by
  have hb := not_toNat_add_one b
  have hlt := b.isLt
  have hk := carry_toNat_add_borrow c
  rw [addWithCarry_carry, decide_eq_decide]
  omega

theorem addWithCarry_not_overflow :
    (addWithCarry a (~~~b) c).2.2 = decide (a.toInt - b.toInt - (1 - c.toNat : Nat) < -2 ^ 31 ∨
      2 ^ 31 ≤ a.toInt - b.toInt - (1 - c.toNat : Nat)) := by
  have hk := carry_toNat_add_borrow c
  have hnot := not_toInt b
  have hsum : a.toInt + (~~~b).toInt + c.toNat = a.toInt - b.toInt - (1 - c.toNat : Nat) := by omega
  rw [addWithCarry_overflow, hsum]

end

/-- Settles O16: result and carry by definition, overflow by signs and by the signed sum, and the carry of a
subtraction as "no borrow". -/
theorem addWithCarryIsExact : Obligations.AddWithCarryIsExact := by
  unfold Obligations.AddWithCarryIsExact
  intro a b c
  refine ⟨BitVec.toNat_ofNat _ _, ?_, addWithCarry_overflow_iff_signs a b c, ?_, ?_⟩
  · rw [addWithCarry_carry, decide_eq_true_iff]
  · rw [addWithCarry_overflow, decide_eq_true_iff]
  · rw [addWithCarry_not_carry, decide_eq_true_iff]
    rfl

/-! ## Results and flags (R201 to R204, R210 to R225) -/

/-- The adder by the integer sum (R202, R204). -/
theorem adder_eq_sum (a b : Word) (c : Bool) :
    adder a b c = .arith (BitVec.ofNat 32 (a.toNat + b.toNat + c.toNat))
      (decide (2 ^ 32 ≤ a.toNat + b.toNat + c.toNat))
      (decide (a.toInt + b.toInt + c.toNat < -2 ^ 31 ∨ 2 ^ 31 ≤ a.toInt + b.toInt + c.toNat)) := by
  rw [adder, addWithCarry_overflow, addWithCarry_carry, addWithCarry_result]

/-- The adder on an inverted operand by the integer difference, with the borrow `1 - c` (R202, R204). -/
theorem adder_not_eq_difference (a b : Word) (c : Bool) :
    adder a (~~~b) c = .arith (BitVec.ofInt 32 ((a.toNat : Int) - b.toNat - (1 - c.toNat : Nat)))
      (decide (b.toNat + (1 - c.toNat) ≤ a.toNat))
      (decide (a.toInt - b.toInt - (1 - c.toNat : Nat) < -2 ^ 31 ∨
        2 ^ 31 ≤ a.toInt - b.toInt - (1 - c.toNat : Nat))) := by
  rw [adder, addWithCarry_not_overflow, addWithCarry_not_carry, addWithCarry_not_result]

section
variable {op : DpOp} {c : Cond} {sb : Bool} {rn rd : Reg} {o : Operand2} {s : State}

/-- A logical operation that is no restore: V is kept, and C where the shifter defines none (R203, R206). -/
theorem exec_dp_logical {r : Word} (hp : s.passes c = true) (hno : ¬ (rd = 15 ∧ (sb || op.isCompare) = true))
    (halu : alu op (s.readReg rn) (operand2 o s).1 s.cpsr.c = .logical r) :
    exec (.ofDp op c sb rn rd o) s = .next { (if op.isCompare then s else s.writeReg rd r) with
      cpsr := if sb || op.isCompare then
          { s.cpsr with n := r.getLsbD 31, z := decide (r = 0), c := (operand2 o s).2.getD s.cpsr.c }
        else s.cpsr
      fetchAddr := if rd = 15 ∧ op.isCompare = false then r &&& ~~~(3#32) else s.fetchAddr + 4 } := by
  have h := exec_dp_of_passes (rn := rn) (o := o) hp hno
  rw [halu] at h
  exact h

/-- An arithmetic operation that is no restore: C and V are the adder's (R204, R206). -/
theorem exec_dp_arith {r : Word} {cout v : Bool} (hp : s.passes c = true)
    (hno : ¬ (rd = 15 ∧ (sb || op.isCompare) = true))
    (halu : alu op (s.readReg rn) (operand2 o s).1 s.cpsr.c = .arith r cout v) :
    exec (.ofDp op c sb rn rd o) s = .next { (if op.isCompare then s else s.writeReg rd r) with
      cpsr := if sb || op.isCompare then { s.cpsr with n := r.getLsbD 31, z := decide (r = 0), c := cout, v := v }
        else s.cpsr
      fetchAddr := if rd = 15 ∧ op.isCompare = false then r &&& ~~~(3#32) else s.fetchAddr + 4 } := by
  have h := exec_dp_of_passes (rn := rn) (o := o) hp hno
  rw [halu] at h
  exact h

end

/-- Settles O17: the ALU's result of each of the eight operations, then the completion of a logical operation. -/
theorem logicalResultsAndFlags : Obligations.LogicalResultsAndFlags := by
  unfold Obligations.LogicalResultsAndFlags
  intro op f c sb rn rd o s hop hp hno
  refine exec_dp_logical hp hno ?_
  obtain ⟨rfl | rfl, rfl⟩ | ⟨rfl | rfl, rfl⟩ | ⟨rfl, rfl⟩ | ⟨rfl, rfl⟩ | ⟨rfl, rfl⟩ | ⟨rfl, rfl⟩ := hop <;> rfl

/-- Settles O18: each of the three operations is the adder with the carry `k`, and the adder the integer sum. -/
theorem additionResultsAndFlags : Obligations.AdditionResultsAndFlags := by
  unfold Obligations.AdditionResultsAndFlags
  intro op k c sb rn rd o s hop hp hno
  have hadder : ∃ cin : Bool, k = cin.toNat ∧ alu op (s.readReg rn) (operand2 o s).1 s.cpsr.c
      = adder (s.readReg rn) (operand2 o s).1 cin := by
    obtain ⟨rfl | rfl, rfl⟩ | ⟨rfl, rfl⟩ := hop
    · exact ⟨false, rfl, rfl⟩
    · exact ⟨false, rfl, rfl⟩
    · exact ⟨s.cpsr.c, rfl, rfl⟩
  obtain ⟨cin, rfl, halu⟩ := hadder
  exact exec_dp_arith hp hno (halu.trans (adder_eq_sum _ _ cin))

/-- Settles O19: each of the five operations is the adder on the inverted operand with the borrow `k`, and the adder
then the integer difference. -/
theorem subtractionResultsAndFlags : Obligations.SubtractionResultsAndFlags := by
  unfold Obligations.SubtractionResultsAndFlags
  intro op a b k c sb rn rd o s hop hp hno
  have hadder : ∃ cin : Bool, k = 1 - cin.toNat ∧
      alu op (s.readReg rn) (operand2 o s).1 s.cpsr.c = adder a (~~~b) cin := by
    obtain ⟨rfl | rfl, rfl, rfl, rfl⟩ | ⟨rfl, rfl, rfl, rfl⟩ | ⟨rfl, rfl, rfl, rfl⟩ | ⟨rfl, rfl, rfl, rfl⟩ := hop
    · exact ⟨true, rfl, rfl⟩
    · exact ⟨true, rfl, rfl⟩
    · exact ⟨true, rfl, rfl⟩
    · exact ⟨s.cpsr.c, rfl, rfl⟩
    · exact ⟨s.cpsr.c, rfl, rfl⟩
  obtain ⟨cin, rfl, halu⟩ := hadder
  exact exec_dp_arith hp hno (halu.trans (adder_not_eq_difference a b cin))

/-! ## The restore of the CPSR (R205) -/

/-- After a write of R15 the next fetch is at the aligned value (R147). -/
theorem environment_writePc (s t : State) (x : Word) :
    environment s (.ok (t.writePc x) true) = .next { t.writePc x with fetchAddr := alignWord x } := by
  rw [environment, pc_writePc]

/-- Settles O20: the restore fails with the mode's or the SPSR's error, or puts the SPSR in the CPSR; R15 is then
written and followed unless the operation is a compare. -/
theorem dataProcessingRestoresCpsr : Obligations.DataProcessingRestoresCpsr := by
  unfold Obligations.DataProcessingRestoresCpsr
  intro op c sb rn o s hp hS r
  have hexec := exec_dp_restore (rn := rn) (o := o) hp hS
  refine ⟨fun hm => ?_, fun b hb => ⟨fun hill => ?_, fun m hleg => ?_⟩⟩
  · rw [hexec, restoreCpsr_of_noSpsr (spsrBank_eq_none.2 hm)]
    rfl
  · rw [hexec, restoreCpsr_of_illegal hb (toCpsr_of_illegal hill)]
    rfl
  · rw [hexec, restoreCpsr_of_legal hb (toCpsr_of_legal hleg)]
    cases hcmp : op.isCompare with
    | true => rfl
    | false => exact environment_writePc s _ r

/-! ## The frame (R67, R203, R206, R226) -/

section
variable {op : DpOp} {sb : Bool} {rn rd : Reg} {o : Operand2} {s u : State} {w : Bool}

/-- A compare writes no register; the others write Rd, and a restore R15, which every mode shares (R205, R226). -/
theorem dataProcessing_regs (h : dataProcessing op sb rn rd o s = .ok u w) :
    RegsSameExcept (if op.isCompare then [] else [phys s.cpsr.m rd]) s u := by
  obtain ⟨-, rfl, -, b, p, -, -, rfl⟩ | ⟨-, -, rfl⟩ := dataProcessing_ok h
  · rw [phys_of_shared s.cpsr.m (.inr rfl)]
    cases op.isCompare with
    | true => exact .refl rfl
    | false => exact fun q hq => get_set_ne _ _ (by simpa using hq)
  · cases op.isCompare with
    | true => exact .refl rfl
    | false => exact regsSameExcept_writeReg s rd _

theorem dataProcessing_specials (h : dataProcessing op sb rn rd o s = .ok u w) : SpecialsSame s u := by
  obtain ⟨-, -, -, b, p, -, -, rfl⟩ | ⟨-, -, rfl⟩ := dataProcessing_ok h <;>
    cases op.isCompare <;> exact ⟨rfl, rfl, rfl, rfl⟩

/-- The CPSR of a data-processing instruction that is no restore (R203, R204). -/
theorem dataProcessing_cpsr (h : dataProcessing op sb rn rd o s = .ok u w) (hno : sb = false ∨ rd ≠ 15) :
    u.cpsr = if sb then flagsAfter (alu op (s.readReg rn) (operand2 o s).1 s.cpsr.c) (operand2 o s).2 s.cpsr
      else s.cpsr := by
  obtain ⟨hsb, hrd, -⟩ | ⟨-, -, rfl⟩ := dataProcessing_ok h
  · simp [hsb, hrd] at hno
  · rfl

theorem flagsAfter_control (out : AluOut) (sc : Option Bool) (p : Cpsr) :
    (flagsAfter out sc p).i = p.i ∧ (flagsAfter out sc p).f = p.f ∧ (flagsAfter out sc p).t = p.t ∧
    (flagsAfter out sc p).m = p.m := by
  cases out <;> exact ⟨rfl, rfl, rfl, rfl⟩

theorem dataProcessing_control (h : dataProcessing op sb rn rd o s = .ok u w) (hrd : rd ≠ 15) : ControlSame s u := by
  rw [ControlSame, dataProcessing_cpsr h (.inr hrd)]
  cases sb with
  | false => exact ⟨rfl, rfl, rfl, rfl⟩
  | true => exact flagsAfter_control _ _ _

/-- The logical operations produce no carry and no overflow (R201). -/
theorem alu_logical (hop : op ∈ [.and, .eor, .tst, .teq, .orr, .mov, .bic, .mvn]) (x y : Word) (cin : Bool) :
    ∃ r, alu op x y cin = .logical r := by
  cases op with
  | and | eor | tst | teq | orr | mov | bic | mvn => exact ⟨_, rfl⟩
  | sub | rsb | add | adc | sbc | rsc | cmp | cmn => simp at hop

theorem dataProcessing_overflow_of_logical (h : dataProcessing op sb rn rd o s = .ok u w) (hrd : rd ≠ 15)
    (hop : op ∈ [.and, .eor, .tst, .teq, .orr, .mov, .bic, .mvn]) : u.cpsr.v = s.cpsr.v := by
  obtain ⟨r, hr⟩ := alu_logical hop (s.readReg rn) (operand2 o s).1 s.cpsr.c
  rw [dataProcessing_cpsr h (.inr hrd), hr]
  cases sb <;> rfl

end

/-- Settles O21: a failed condition keeps everything but the fetch address, and a completed operation has the frame
of its registers, its memory and its CPSR. -/
theorem dataProcessingFrame : Obligations.DataProcessingFrame := by
  unfold Obligations.DataProcessingFrame
  intro op c sb rn rd o s t h
  rw [exec_ofDp] at h
  obtain ⟨hundef, htrap⟩ := dataProcessing_goes_on op (sb || op.isCompare) rn rd o s
  obtain ⟨-, rfl⟩ | ⟨-, u, w, hu, rfl⟩ := conditionally_next_ok h hundef htrap
  · exact ⟨.refl rfl, ⟨rfl, rfl, rfl, rfl⟩, .refl rfl, fun _ => rfl, fun _ => ⟨rfl, rfl, rfl, rfl⟩, fun _ _ => rfl⟩
  · have hkept (hS : (sb || op.isCompare) = false) : u.cpsr = s.cpsr :=
      (dataProcessing_cpsr hu (.inl hS)).trans (if_neg (by simp [hS]))
    have hregs := dataProcessing_regs hu
    have hspecials := dataProcessing_specials hu
    have hmem := dataProcessing_mem hu
    have hcontrol := dataProcessing_control hu
    have hv := dataProcessing_overflow_of_logical hu
    exact ⟨hregs, hspecials, .refl hmem, hkept, hcontrol, hv⟩

end Sys2Proof.Machine

namespace Sys2Proof.Machine

/-! ## PSR transfers: what one reads or writes (R250, R256, R257) -/

theorem exec_mrs (c : Cond) (ps : Bool) (rd : Reg) (s : State) :
    exec (.mrs c ps rd) s = conditionally c s (moveFromPsr ps rd s) := rfl

theorem exec_msrCpsr (c : Cond) (rm : Reg) (s : State) :
    exec (.msrCpsr c rm) s = conditionally c s (psrWrite false (s.readReg rm) (fullCpsrMask s) s) := rfl

theorem exec_msrSpsr (c : Cond) (rm : Reg) (s : State) :
    exec (.msrSpsr c rm) s = conditionally c s (psrWrite true (s.readReg rm) Config.psrImpl s) := rfl

theorem exec_msrFlagsReg (c : Cond) (pd : Bool) (rm : Reg) (s : State) :
    exec (.msrFlagsReg c pd rm) s = conditionally c s (psrWrite pd (s.readReg rm) Config.psrFlags s) := rfl

theorem exec_msrFlagsImm (c : Cond) (pd : Bool) (rot : BitVec 4) (imm8 : BitVec 8) (s : State) :
    exec (.msrFlagsImm c pd rot imm8) s
      = conditionally c s (psrWrite pd (rotatedImm rot imm8) Config.psrFlags s) := rfl

/-- The rotated immediate is ROR of the shifter by twice `rot`, rotation 0 included (R181, R255). -/
theorem rotatedImm_eq_shift (rot : BitVec 4) (imm8 : BitVec 8) (cin : Bool) :
    rotatedImm rot imm8 = (shift (imm8.zeroExtend 32) .ror (2 * rot.toNat) cin).1 := by
  have hlt := rot.isLt
  obtain h0 | hpos := Nat.eq_zero_or_pos rot.toNat
  · have hshift : shift (imm8.zeroExtend 32) .ror 0 cin = (imm8.zeroExtend 32, none) := shift_zero _ cin (by decide)
    rw [rotatedImm, h0, Nat.mul_zero, hshift, rotateRight_zero]
  · exact (shift_ror_result _ cin (by omega) (by omega)).symm

theorem fullCpsrMask_of_usr {s : State} (h : s.cpsr.m = .usr) : fullCpsrMask s = Config.psrFlags := by
  simp [fullCpsrMask, h, Config.usrCpsrControlWritable]

theorem fullCpsrMask_of_ne_usr {s : State} (h : s.cpsr.m ≠ .usr) : fullCpsrMask s = Config.psrImpl := by
  simp [fullCpsrMask, h]

theorem psrRead_cpsr (s : State) : psrRead false s = .ok s.cpsrImage := rfl

section
variable {s : State}

theorem psrRead_spsr_of_bank {b : SpsrBank} (h : s.cpsr.m.spsrBank = some b) :
    psrRead true s = .ok (s.spsr.get b).image := by
  rw [psrRead, if_pos rfl, readSpsr_of_bank h]

theorem psrRead_spsr_of_noSpsr (h : s.cpsr.m.spsrBank = none) : psrRead true s = .error .invalidModeAccess := by
  rw [psrRead, if_pos rfl, readSpsr_of_noSpsr h]

/-- A write of every implemented bit of the CPSR with an illegal mode value (R252, R258). -/
theorem psrWrite_cpsr_full_of_illegal {value : Word} (h : ∀ m : Mode, m.bits ≠ value.extractLsb' 0 5) :
    psrWrite false value Config.psrImpl s = .err .illegalMode := by
  have hw : s.writeCpsr value Config.psrImpl = .error .illegalMode :=
    writeCpsr_of_illegal (by rwa [mode_maskedImage_of_covered _ _ (by decide)])
  rw [psrWrite, if_neg Bool.false_ne_true, hw, StepResult.ofExcept]

/-- A write of every implemented bit of the CPSR with a legal mode value (R252, R256). -/
theorem psrWrite_cpsr_full_of_legal {value : Word} {m : Mode} (h : m.bits = value.extractLsb' 0 5) :
    psrWrite false value Config.psrImpl s = .ok { s with cpsr :=
      { n := value.getLsbD 31, z := value.getLsbD 30, c := value.getLsbD 29, v := value.getLsbD 28,
        i := value.getLsbD 7, f := value.getLsbD 6, t := value.getLsbD 5, m := m } } false := by
  have hp : (Psr.ofImage value).toCpsr = some _ := toCpsr_of_legal (ofBits_eq_some.2 h.symm)
  rw [psrWrite, if_neg Bool.false_ne_true, State.writeCpsr, State.cpsrImage, ofImage_masked_impl, hp]
  rfl

theorem psrWrite_spsr_of_bank {b : SpsrBank} (h : s.cpsr.m.spsrBank = some b) (value mask : Word) :
    psrWrite true value mask s =
      .ok { s with spsr := s.spsr.set b (Psr.ofImage (maskedImage (s.spsr.get b).image value mask)) } false := by
  rw [psrWrite, if_pos rfl, writeSpsr_of_bank h, StepResult.ofExcept]

theorem psrWrite_spsr_of_noSpsr (h : s.cpsr.m.spsrBank = none) (value mask : Word) :
    psrWrite true value mask s = .err .invalidModeAccess := by
  rw [psrWrite, if_pos rfl, writeSpsr_of_noSpsr h, StepResult.ofExcept]

/-! ## MRS (R251) -/

/-- MRS of a PSR that can be read: Rd gets the image, and the next fetch follows R15 if Rd is R15 (R147, R251). -/
theorem exec_mrs_of_read {c : Cond} {ps : Bool} {x : Word} (rd : Reg) (hp : s.passes c = true)
    (hx : psrRead ps s = .ok x) :
    exec (.mrs c ps rd) s = .next { s.writeReg rd x with
      fetchAddr := if rd = 15 then x &&& ~~~(3#32) else s.fetchAddr + 4 } := by
  rw [exec_mrs, conditionally_of_passes hp, moveFromPsr, hx]
  by_cases h15 : rd = 15
  · simp [h15, environment, pc_writeReg, alignWord]
  · simp [h15, environment]

end

/-- Settles O26: the CPSR can always be read, and the SPSR exactly where the mode has one. -/
theorem mrsReadsTheImage : Obligations.MrsReadsTheImage := by
  unfold Obligations.MrsReadsTheImage
  intro c rd s hp
  refine ⟨exec_mrs_of_read rd hp (psrRead_cpsr s), fun hm => ?_, fun b hb => ?_⟩
  · rw [exec_mrs, conditionally_of_passes hp, moveFromPsr, psrRead_spsr_of_noSpsr (spsrBank_eq_none.2 hm)]
    rfl
  · exact exec_mrs_of_read rd hp (psrRead_spsr_of_bank hb)

/-! ## MSR (R252 to R259) -/

/-- Settles O27: the mask of the full form by the mode, then the masked write of the CPSR by the mode value, and of
the SPSR by whether the mode has one. -/
theorem msrFullForms : Obligations.MsrFullForms := by
  unfold Obligations.MsrFullForms
  intro c rm s hp x
  rw [exec_msrCpsr, exec_msrSpsr, conditionally_of_passes hp, conditionally_of_passes hp]
  refine ⟨fun hm => ?_, fun hm hill => ?_, fun hm m hleg => ?_, fun hm => ?_, fun b hb => ?_⟩
  · rw [fullCpsrMask_of_usr hm, psrWrite_cpsr_flags]
    rfl
  · rw [fullCpsrMask_of_ne_usr hm, psrWrite_cpsr_full_of_illegal hill]
    rfl
  · rw [fullCpsrMask_of_ne_usr hm, psrWrite_cpsr_full_of_legal hleg]
    rfl
  · rw [psrWrite_spsr_of_noSpsr (spsrBank_eq_none.2 hm)]
    rfl
  · rw [psrWrite_spsr_of_bank hb, ofImage_masked_impl]
    rfl

/-- Settles O28: from a register and from an immediate the meaning is one write of the flag bits of `x`. -/
theorem msrFlagsOnlyForms : Obligations.MsrFlagsOnlyForms := by
  unfold Obligations.MsrFlagsOnlyForms
  intro c rm rot imm8 s x i j hp hform
  have hexec : exec i s = conditionally c s (psrWrite false x Config.psrFlags s) ∧
      exec j s = conditionally c s (psrWrite true x Config.psrFlags s) := by
    obtain ⟨rfl, rfl, rfl⟩ | ⟨rfl, rfl, rfl⟩ := hform
    · exact ⟨exec_msrFlagsReg .., exec_msrFlagsReg ..⟩
    · rw [← rotatedImm_eq_shift]
      exact ⟨exec_msrFlagsImm .., exec_msrFlagsImm ..⟩
  rw [hexec.1, hexec.2, conditionally_of_passes hp, conditionally_of_passes hp]
  refine ⟨?_, fun hm => ?_, fun b hb => ?_⟩
  · rw [psrWrite_cpsr_flags]
    rfl
  · rw [psrWrite_spsr_of_noSpsr (spsrBank_eq_none.2 hm)]
    rfl
  · rw [psrWrite_spsr_of_bank hb, ofImage_masked_flags]
    rfl

/-! ## The frame (R67, R250) -/

section
variable {c : Cond} {value mask : Word} {s t : State}

/-- MRS goes on with at most Rd and the fetch address changed. -/
theorem moveFromPsr_next {ps : Bool} {rd : Reg} (h : conditionally c s (moveFromPsr ps rd s) = .next t) :
    ∃ a, t = { s with fetchAddr := a } ∨ ∃ x, t = { s.writeReg rd x with fetchAddr := a } := by
  obtain ⟨hundef, htrap⟩ := goesOn_moveFromPsr ps rd s
  obtain ⟨-, rfl⟩ | ⟨-, u, w, hu, rfl⟩ := conditionally_next_ok h hundef htrap
  · exact ⟨_, .inl rfl⟩
  · obtain ⟨x, -, rfl, -⟩ := moveFromPsr_effect hu
    exact ⟨_, .inr ⟨x, rfl⟩⟩

/-- An MSR to the CPSR goes on with at most the CPSR and the fetch address changed. -/
theorem psrWrite_cpsr_next (h : conditionally c s (psrWrite false value mask s) = .next t) :
    ∃ p a, t = { s with cpsr := p, fetchAddr := a } := by
  obtain ⟨hundef, htrap⟩ := goesOn_psrWrite false value mask s
  obtain ⟨-, rfl⟩ | ⟨-, u, w, hu, rfl⟩ := conditionally_next_ok h hundef htrap
  · exact ⟨s.cpsr, _, rfl⟩
  · obtain ⟨-, p, -, rfl⟩ := psrWrite_cpsr_effect hu
    exact ⟨p, _, rfl⟩

/-- An MSR to the SPSR goes on with at most the SPSR of the mode and the fetch address changed. -/
theorem psrWrite_spsr_next (h : conditionally c s (psrWrite true value mask s) = .next t) :
    ∃ f a, t = { s with spsr := f, fetchAddr := a } ∧
      ∀ b, s.cpsr.m.spsrBank ≠ some b → f.get b = s.spsr.get b := by
  obtain ⟨hundef, htrap⟩ := goesOn_psrWrite true value mask s
  obtain ⟨-, rfl⟩ | ⟨-, u, w, hu, rfl⟩ := conditionally_next_ok h hundef htrap
  · exact ⟨s.spsr, _, rfl, fun _ _ => rfl⟩
  · obtain ⟨-, b, hb, rfl⟩ := psrWrite_spsr_effect hu
    refine ⟨_, _, rfl, fun b' hne => ?_⟩
    have hb' : b' ≠ b := fun heq => hne (heq ▸ hb)
    exact (spsr_get_set _ _ _ _).trans (if_neg hb')

end

/-- Settles O29: the three MSR forms of a side are one masked write of that side's PSR, whose next states, like those
of MRS, are known field by field. -/
theorem psrTransferFrame : Obligations.PsrTransferFrame := by
  unfold Obligations.PsrTransferFrame
  intro c ps rd rm rot imm8 s t
  refine ⟨fun h => ?_, fun h => ?_, fun h => ?_⟩
  · obtain ⟨a, rfl | ⟨x, rfl⟩⟩ := moveFromPsr_next h
    · exact ⟨.refl rfl, rfl, ⟨rfl, rfl, rfl, rfl⟩, .refl rfl⟩
    · exact ⟨regsSameExcept_writeReg s rd x, rfl, ⟨rfl, rfl, rfl, rfl⟩, .refl rfl⟩
  · obtain ⟨p, a, rfl⟩ : ∃ p a, t = { s with cpsr := p, fetchAddr := a } := by
      obtain h | h | h := h <;> exact psrWrite_cpsr_next h
    exact ⟨.refl rfl, ⟨rfl, rfl, rfl, rfl⟩, .refl rfl⟩
  · obtain ⟨f, a, rfl, hf⟩ : ∃ f a, t = { s with spsr := f, fetchAddr := a } ∧
        ∀ b, s.cpsr.m.spsrBank ≠ some b → f.get b = s.spsr.get b := by
      obtain h | h | h := h <;> exact psrWrite_spsr_next h
    exact ⟨.refl rfl, rfl, .refl rfl, hf, rfl, rfl, rfl⟩

end Sys2Proof.Machine

namespace Sys2Proof.Machine

/-! ## Branch targets (R147, R271 to R273) -/

theorem exec_b (c : Cond) (offset24 : BitVec 24) (s : State) :
    exec (.b c offset24) s = conditionally c s (.ok (s.writePc (branchTarget offset24 s)) true) := rfl

theorem exec_bl (c : Cond) (offset24 : BitVec 24) (s : State) :
    exec (.bl c offset24) s =
      conditionally c s (.ok ((s.writeReg 14 (s.pc - 4)).writePc (branchTarget offset24 s)) true) := rfl

theorem exec_bx (c : Cond) (rn : Reg) (s : State) :
    exec (.bx c rn) s = conditionally c s (branchExchange rn s) := rfl

/-- The branch target on the integers, wrapped to a word (R271). -/
theorem branchTarget_eq_ofInt (offset24 : BitVec 24) (s : State) :
    branchTarget offset24 s = BitVec.ofInt 32 (s.pc.toNat + offset24.toInt * 4) := by
  rw [branchTarget, BitVec.signExtend, BitVec.ofInt_add, BitVec.ofInt_mul, BitVec.ofInt_natCast, BitVec.ofNat_toNat,
    BitVec.setWidth_eq]
  rfl

/-- Bit 0 of a word is its parity. -/
theorem bit0_eq_odd (x : Word) : x.getLsbD 0 = decide (x.toNat % 2 = 1) := Nat.testBit_zero x.toNat

/-- Clearing bit 0 first is no different from aligning at once. -/
theorem alignWord_clear_bit0 (x : Word) : alignWord (x &&& ~~~(1#32)) = x &&& ~~~(3#32) := BitVec.and_assoc x _ _

/-- Settles O34: each branch is one write of R15 that the environment follows; the target of B and BL as an integer,
that of BX bit by bit. -/
theorem branchResults : Obligations.BranchResults := by
  unfold Obligations.BranchResults
  intro c offset24 rn s hp target
  have htarget : branchTarget offset24 s = target := branchTarget_eq_ofInt offset24 s
  refine ⟨?_, ?_, ?_⟩
  · rw [exec_b, conditionally_of_passes hp, htarget, environment_writePc, alignWord]
  · rw [exec_bl, conditionally_of_passes hp, htarget, environment_writePc, alignWord]
  · rw [exec_bx, conditionally_of_passes hp, branchExchange, environment_writePc, alignWord_clear_bit0, bit0_eq_odd]
    rfl

/-! ## The frame of the branches (R67, R271 to R273) -/

theorem regsSameExcept_writePc (s : State) (x : Word) : RegsSameExcept [.usr 15] s (s.writePc x) :=
  fun _ hp => get_set_ne _ _ (by simpa using hp)

/-- A branch whose condition fails changes the fetch address only; one whose condition passes goes on at its R15. -/
theorem conditionally_branch_next {c : Cond} {s t u : State} (h : conditionally c s (.ok u true) = .next t) :
    ∃ a, t = { s with fetchAddr := a } ∨ t = { u with fetchAddr := a } := by
  obtain ⟨-, rfl⟩ | ⟨-, h⟩ := conditionally_next h
  · exact ⟨_, .inl rfl⟩
  · exact ⟨_, .inr (Host.Outcome.next.inj h).symm⟩

/-- Settles O35: each branch leaves the state alone or writes its R15, with R14 for BL and T for BX. -/
theorem branchFrame : Obligations.BranchFrame := by
  unfold Obligations.BranchFrame
  intro c offset24 rn s t
  refine ⟨fun h => ?_, fun h => ?_, fun h => ?_⟩
  · obtain ⟨a, rfl | rfl⟩ := conditionally_branch_next h
    · exact ⟨.refl rfl, rfl, ⟨rfl, rfl, rfl, rfl⟩, .refl rfl⟩
    · exact ⟨regsSameExcept_writePc s _, rfl, ⟨rfl, rfl, rfl, rfl⟩, .refl rfl⟩
  · obtain ⟨a, rfl | rfl⟩ := conditionally_branch_next h
    · exact ⟨.refl rfl, rfl, ⟨rfl, rfl, rfl, rfl⟩, .refl rfl⟩
    · have hregs := (regsSameExcept_writeReg s 14 (s.pc - 4)).trans (regsSameExcept_writePc _ (branchTarget offset24 s))
      exact ⟨hregs.mono (by simp), rfl, ⟨rfl, rfl, rfl, rfl⟩, .refl rfl⟩
  · obtain ⟨a, rfl | rfl⟩ := conditionally_branch_next h
    · exact ⟨.refl rfl, ⟨rfl, rfl, rfl, rfl⟩, rfl, rfl, rfl, ⟨rfl, rfl, rfl, rfl⟩, .refl rfl⟩
    · exact ⟨regsSameExcept_writePc s _, ⟨rfl, rfl, rfl, rfl⟩, rfl, rfl, rfl, ⟨rfl, rfl, rfl, rfl⟩, .refl rfl⟩

/-! ## What an instruction can do to R15 and the next fetch (R147, R274)

An outcome of the block that goes on reports whether R15 was written. `KeepsPc` is the outcome that did not write it;
each shared form below gives it, unless the instruction is a listed one. -/

/-- The outcome `Ok w` with state `u` wrote no R15 and says so. -/
def KeepsPc (s u : State) (w : Bool) : Prop := u.pc = s.pc ∧ w = false

/-- What becomes of R15 and the fetch address when instruction `i` takes `s` to `t`: one of three things. -/
inductive PcEffect (i : Instr) (s t : State) : Prop
  /-- R15 may be written and followed. -/
  | writes (may : i.MayWritePc)
  /-- R15 is kept, and the next instruction comes at `A + 4`. -/
  | next (pc : t.pc = s.pc) (fetch : t.fetchAddr = s.fetchAddr + 4)
  /-- R15 is kept, and an exception is entered. -/
  | exception (takes : i.TakesException) (pc : t.pc = s.pc)

/-- A frame that does not name R15 keeps it. -/
theorem RegsSameExcept.pc {ps : List PhysReg} {s t : State} (h : RegsSameExcept ps s t) (h15 : .usr 15 ∉ ps) :
    t.pc = s.pc := h _ h15

/-- R15 is reached by number 15 and no other (R22, R27). -/
theorem phys_eq_pc {m : Mode} {n : Reg} : phys m n = .usr 15 ↔ n = 15 := by
  rw [← phys_pc m, phys_inj]

/-- Exception entry writes R14 of its mode and not R15 (R391). -/
theorem pc_takeException (k : ExceptionKind) (a : Word) (s : State) : (takeException k a s).pc = s.pc :=
  get_set_ne _ _ fun h => absurd (phys_eq_pc.1 h.symm) (by decide)

/-- A meaning under its condition, by what its `Ok` does: a failed condition goes on at `A + 4`, and an exception
keeps R15. -/
theorem PcEffect.of_conditionally {i : Instr} {c : Cond} {s t : State} {r : StepResult}
    (h : conditionally c s r = .next t) (hr : r.GoesOn ∨ i.TakesException)
    (hok : ∀ u w, r = .ok u w → i.MayWritePc ∨ KeepsPc s u w) : PcEffect i s t := by
  obtain ⟨-, rfl⟩ | ⟨-, h⟩ := conditionally_next h
  · exact .next rfl rfl
  · obtain ⟨u, hu, rfl⟩ | ⟨u, hu, rfl⟩ | ⟨he, rfl⟩ | ⟨k, he, rfl⟩ := environment_next h
    · exact .writes ((hok u _ hu).resolve_right fun hk => nomatch hk.2)
    · exact (hok u _ hu).elim .writes fun hk => .next hk.1 rfl
    · exact .exception (hr.resolve_left fun hg => hg.1 he) (pc_takeException _ _ _)
    · exact .exception (hr.resolve_left fun hg => hg.2 k he) (pc_takeException _ _ _)

/-- A meaning behind a form check, by what its `Ok` does in a good form. -/
theorem PcEffect.of_unlessForm {i : Instr} {c : Cond} {s t : State} {r : StepResult} {bad : Bool}
    (h : conditionally c s (unlessForm bad r) = .next t) (hr : r.GoesOn)
    (hok : bad = false → ∀ u w, r = .ok u w → i.MayWritePc ∨ KeepsPc s u w) : PcEffect i s t :=
  .of_conditionally h (.inl (goesOn_unlessForm bad hr)) fun u w hu =>
    have ⟨hgood, hu⟩ := unlessForm_ok hu
    hok hgood u w hu

/-- A coprocessor instruction: nothing answers, and the Undefined exception is taken (R363). -/
theorem pcEffect_noCoprocessor {i : Instr} {c : Cond} {s t : State} (hi : i.TakesException)
    (h : conditionally c s noCoprocessor = .next t) : PcEffect i s t :=
  .of_conditionally h (.inr hi) fun _ _ hu => nomatch (hu : StepResult.err .undefinedInstruction = _)

/-! ### The listed instructions (R274) -/

theorem mayWritePc_mrs (c : Cond) (ps : Bool) : (Instr.mrs c ps 15).MayWritePc := .inr (.inl ⟨c, ps, rfl⟩)

theorem mayWritePc_b (c : Cond) (offset24 : BitVec 24) : (Instr.b c offset24).MayWritePc :=
  .inr (.inr (.inl ⟨c, offset24, rfl⟩))

theorem mayWritePc_bl (c : Cond) (offset24 : BitVec 24) : (Instr.bl c offset24).MayWritePc :=
  .inr (.inr (.inr (.inl ⟨c, offset24, rfl⟩)))

theorem mayWritePc_bx (c : Cond) (rn : Reg) : (Instr.bx c rn).MayWritePc :=
  .inr (.inr (.inr (.inr (.inl ⟨c, rn, rfl⟩))))

theorem mayWritePc_ldr (c : Cond) (p u w : Bool) (rn : Reg) (o : WordOffset) :
    (Instr.ofSingle .ldr c p u w rn 15 o).MayWritePc :=
  .inr (.inr (.inr (.inr (.inr (.inl ⟨c, p, u, w, rn, o, rfl⟩)))))

theorem mayWritePc_ldm (c : Cond) (p u sb w : Bool) (rn : Reg) {list : BitVec 16} (h : inList list 15 = true) :
    (Instr.ldm c p u sb w rn list).MayWritePc :=
  .inr (.inr (.inr (.inr (.inr (.inr ⟨c, p, u, sb, w, rn, list, h, rfl⟩)))))

/-! ### The good forms name no R15 (R281, R304, R330, R344) -/

theorem ne_pc_of_good_multiply {accumulate : Bool} {rd rn rs rm : Reg}
    (h : badMultiply accumulate rd rn rs rm = false) : rd ≠ 15 := by
  rintro rfl
  simp [badMultiply] at h

theorem ne_pc_of_good_long {rdHi rdLo rs rm : Reg} (h : badLong rdHi rdLo rs rm = false) : rdHi ≠ 15 ∧ rdLo ≠ 15 := by
  constructor <;> (rintro rfl; simp [badLong] at h)

theorem ne_pc_of_good_swap {rn rd rm : Reg} (h : badSwap rn rd rm = false) : rd ≠ 15 := by
  rintro rfl
  simp [badSwap] at h

theorem ne_pc_of_good_transfer {p w : Bool} {rn rd : Reg} {offsetPc : Bool}
    (h : badTransfer p w rn rd offsetPc = false) : writesBack p w = true → rn ≠ 15 := by
  rintro hwb rfl
  simp [badTransfer, hwb] at h

theorem ne_pc_of_good_byte {p w : Bool} {rn rd : Reg} {offsetPc : Bool} (h : badByte p w rn rd offsetPc = false) :
    rd ≠ 15 ∧ (writesBack p w = true → rn ≠ 15) := by
  obtain ⟨htransfer, hrd⟩ := Bool.or_eq_false_iff.1 h
  exact ⟨of_decide_eq_false hrd, ne_pc_of_good_transfer htransfer⟩

theorem ne_pc_of_good_half {p w : Bool} {rn rd : Reg} {offsetPc : Bool} (h : badHalf p w rn rd offsetPc = false) :
    rd ≠ 15 ∧ (writesBack p w = true → rn ≠ 15) := ne_pc_of_good_byte (Bool.or_eq_false_iff.1 h).1

theorem ne_pc_of_good_loadBlock {sb w : Bool} {rn : Reg} {list : BitVec 16} {s : State}
    (h : badLoadBlock sb w rn list s = false) : rn ≠ 15 := by
  rintro rfl
  simp [badLoadBlock] at h

theorem ne_pc_of_good_storeBlock {sb w : Bool} {rn : Reg} {list : BitVec 16} {s : State}
    (h : badStoreBlock sb w rn list s = false) : rn ≠ 15 := by
  rintro rfl
  simp [badStoreBlock] at h

/-! ### The effect of each shared form -/

section
variable {s t : State} {pw : Bool}

/-- Data processing with another Rd than R15, and a compare with any (R205, R226). -/
theorem dataProcessing_keepsPc {op : DpOp} {sb : Bool} {rn rd : Reg} {o : Operand2}
    (h : dataProcessing op sb rn rd o s = .ok t pw) (hno : op.isCompare = true ∨ rd ≠ 15) : KeepsPc s t pw := by
  constructor
  · refine (dataProcessing_regs h).pc ?_
    cases hc : op.isCompare with
    | true => simp
    | false => simpa [hc, eq_comm, phys_eq_pc] using hno
  · obtain ⟨-, hrd, rfl, -⟩ | ⟨-, rfl, -⟩ := dataProcessing_ok h
    · simpa [hrd] using hno
    · simpa [imp_iff_not_or] using hno

/-- The write-back names R15 only where the base is R15. -/
theorem pc_notMem_writeBack {wb : Bool} {m : Mode} {rn : Reg} (h : wb = true → rn ≠ 15) :
    PhysReg.usr 15 ∉ if wb then [phys m rn] else [] := by
  cases wb with
  | false => simp
  | true => simpa [eq_comm, phys_eq_pc] using h

theorem load_keepsPc {k : LoadKind} {p u w : Bool} {rn rd : Reg} {off : Word}
    (hrd : rd ≠ 15) (hrn : writesBack p w = true → rn ≠ 15) (h : load k p u w rn rd off s = .ok t pw) :
    KeepsPc s t pw := by
  obtain ⟨hregs, -, -, -, -, hpw, -⟩ := load_effect h
  refine ⟨hregs.pc ?_, by simpa [hrd] using hpw⟩
  rw [List.mem_cons, not_or]
  exact ⟨fun he => hrd (phys_eq_pc.1 he.symm), pc_notMem_writeBack hrn⟩

theorem store_keepsPc {k : StoreKind} {p u w : Bool} {rn rd : Reg} {off : Word}
    (hrn : writesBack p w = true → rn ≠ 15) (h : store k p u w rn rd off s = .ok t pw) : KeepsPc s t pw := by
  obtain ⟨hregs, -, -, -, -, hpw, -⟩ := store_effect h
  exact ⟨hregs.pc (pc_notMem_writeBack hrn), hpw⟩

theorem swap_keepsPc {lk : LoadKind} {sk : StoreKind} {rn rd rm : Reg} (hrd : rd ≠ 15)
    (h : swap lk sk rn rd rm s = .ok t pw) : KeepsPc s t pw := by
  obtain ⟨hregs, -, -, -, -, hpw, -⟩ := swap_effect h
  exact ⟨hregs.pc (by simpa [eq_comm, phys_eq_pc] using hrd), hpw⟩

theorem multiply_keepsPc {sb : Bool} {rd rs rm : Reg} {acc : Word} (hrd : rd ≠ 15)
    (h : multiply sb rd rs rm acc s = .ok t pw) : KeepsPc s t pw := by
  obtain ⟨hregs, -, -, -, -, -, -, -, -, hpw⟩ := multiply_effect h
  exact ⟨hregs.pc (by simpa [eq_comm, phys_eq_pc] using hrd), hpw⟩

theorem writeLong_keepsPc {sb : Bool} {rdHi rdLo rs rm : Reg} {r : BitVec 64} (hrd : rdHi ≠ 15 ∧ rdLo ≠ 15)
    (h : writeLong sb rdHi rdLo rs rm r s = .ok t pw) : KeepsPc s t pw := by
  obtain ⟨hregs, -, -, -, -, -, -, -, hpw⟩ := writeLong_effect h
  exact ⟨hregs.pc (by simpa [eq_comm, phys_eq_pc] using hrd), hpw⟩

theorem moveFromPsr_keepsPc {ps : Bool} {rd : Reg} (hrd : rd ≠ 15) (h : moveFromPsr ps rd s = .ok t pw) :
    KeepsPc s t pw := by
  obtain ⟨x, -, rfl, rfl⟩ := moveFromPsr_effect h
  exact ⟨(pc_writeReg s rd x).trans (if_neg hrd), decide_eq_false hrd⟩

theorem psrWrite_keepsPc {pd : Bool} {value mask : Word} (h : psrWrite pd value mask s = .ok t pw) :
    KeepsPc s t pw := by
  cases pd with
  | false => obtain ⟨hpw, p, -, rfl⟩ := psrWrite_cpsr_effect h; exact ⟨rfl, hpw⟩
  | true => obtain ⟨hpw, b, -, rfl⟩ := psrWrite_spsr_effect h; exact ⟨rfl, hpw⟩

theorem storeMultiple_keepsPc {p u sb w : Bool} {rn : Reg} {list : BitVec 16} (hrn : rn ≠ 15)
    (h : storeMultiple p u sb w rn list s = .ok t pw) : KeepsPc s t pw := by
  obtain ⟨hregs, -, -, -, -, hpw, -⟩ := storeMultiple_effect h
  exact ⟨hregs.pc (pc_notMem_writeBack fun _ => hrn), hpw⟩

/-- In either bank R15 is reached by number 15 and no other (R345). -/
theorem blockBank_eq_pc {user : Bool} {m : Mode} {r : Reg} : blockBank user m r = .usr 15 ↔ r = 15 := by
  cases user with
  | false => exact phys_eq_pc
  | true => exact phys_eq_pc (m := .usr)

/-- The register writes of an LDM without R15 in its list. -/
theorem loadedBlock_pc {p u sb w : Bool} {rn : Reg} {list : BitVec 16} (hrn : rn ≠ 15)
    (hlist : inList list 15 = false) : (loadedBlock p u sb w rn list s).pc = s.pc := by
  obtain ⟨hregs, -⟩ := loadedBlock_effect p u sb w rn list s
  refine hregs.pc ?_
  rw [List.mem_append, not_or]
  refine ⟨fun hmem => ?_, pc_notMem_writeBack fun _ => hrn⟩
  obtain ⟨r, hr, he⟩ := List.mem_map.1 hmem
  obtain rfl := blockBank_eq_pc.1 he
  exact absurd (mem_listRegs.1 hr) (by simp [hlist])

theorem loadMultiple_keepsPc {p u sb w : Bool} {rn : Reg} {list : BitVec 16} (hrn : rn ≠ 15)
    (hlist : inList list 15 = false) (h : loadMultiple p u sb w rn list s = .ok t pw) : KeepsPc s t pw := by
  obtain ⟨hrestore, -⟩ | ⟨-, rfl, rfl⟩ := loadMultiple_ok h
  · simp [isRestore, hlist] at hrestore
  · exact ⟨loadedBlock_pc hrn hlist, hlist⟩

end

theorem pcEffect_single {op : SingleOp} {c : Cond} {p u w : Bool} {rn rd : Reg} {o : WordOffset} {s t : State}
    (h : exec (.ofSingle op c p u w rn rd o) s = .next t) : PcEffect (.ofSingle op c p u w rn rd o) s t := by
  cases op with
  | str =>
    rw [exec_str] at h
    exact .of_unlessForm h (goesOn_ok _ _) fun hgood _ _ hu => .inr (store_keepsPc (ne_pc_of_good_transfer hgood) hu)
  | ldr =>
    rw [exec_ldr] at h
    refine .of_unlessForm h (goesOn_ok _ _) fun hgood _ _ hu => ?_
    by_cases hrd : rd = 15
    · exact .inl (hrd ▸ mayWritePc_ldr c p u w rn o)
    · exact .inr (load_keepsPc hrd (ne_pc_of_good_transfer hgood) hu)
  | strb =>
    rw [exec_strb] at h
    exact .of_unlessForm h (goesOn_ok _ _) fun hgood _ _ hu => .inr (store_keepsPc (ne_pc_of_good_byte hgood).2 hu)
  | ldrb =>
    rw [exec_ldrb] at h
    refine .of_unlessForm h (goesOn_ok _ _) fun hgood _ _ hu => ?_
    obtain ⟨hrd, hrn⟩ := ne_pc_of_good_byte hgood
    exact .inr (load_keepsPc hrd hrn hu)

theorem pcEffect_half {op : HalfOp} {c : Cond} {p u w : Bool} {rn rd : Reg} {o : HalfOffset} {s t : State}
    (h : exec (.ofHalf op c p u w rn rd o) s = .next t) : PcEffect (.ofHalf op c p u w rn rd o) s t := by
  cases op with
  | strh =>
    rw [exec_strh] at h
    refine .of_unlessForm h (goesOn_unlessForm _ (goesOn_ok _ _)) fun hgood _ _ hu => ?_
    exact .inr (store_keepsPc (ne_pc_of_good_half hgood).2 (unlessForm_ok hu).2)
  | ldrh =>
    rw [exec_ldrh] at h
    refine .of_unlessForm h (goesOn_unlessForm _ (goesOn_ok _ _)) fun hgood _ _ hu => ?_
    obtain ⟨hrd, hrn⟩ := ne_pc_of_good_half hgood
    exact .inr (load_keepsPc hrd hrn (unlessForm_ok hu).2)
  | ldrsb =>
    rw [exec_ldrsb] at h
    refine .of_unlessForm h (goesOn_ok _ _) fun hgood _ _ hu => ?_
    obtain ⟨hrd, hrn⟩ := ne_pc_of_good_half hgood
    exact .inr (load_keepsPc hrd hrn hu)
  | ldrsh =>
    rw [exec_ldrsh] at h
    refine .of_unlessForm h (goesOn_unlessForm _ (goesOn_ok _ _)) fun hgood _ _ hu => ?_
    obtain ⟨hrd, hrn⟩ := ne_pc_of_good_half hgood
    exact .inr (load_keepsPc hrd hrn (unlessForm_ok hu).2)

theorem pcEffect_dataProcessing {op : DpOp} {c : Cond} {sb : Bool} {rn rd : Reg} {o : Operand2} {s t : State}
    (h : exec (.ofDp op c sb rn rd o) s = .next t) : PcEffect (.ofDp op c sb rn rd o) s t := by
  rw [exec_ofDp] at h
  refine .of_conditionally h (.inl (dataProcessing_goes_on _ _ _ _ _ _)) fun u w hu => ?_
  by_cases hno : op.isCompare = true ∨ rd ≠ 15
  · exact .inr (dataProcessing_keepsPc hu hno)
  · obtain ⟨hcmp, rfl⟩ : op.isCompare = false ∧ rd = 15 := by simpa using hno
    exact .inl (.inl ⟨op, c, sb, rn, o, hcmp, rfl⟩)

/-- What any instruction does to R15 and the next fetch, form by form. -/
theorem exec_pcEffect {i : Instr} {s t : State} (h : exec i s = .next t) : PcEffect i s t := by
  cases i using Instr.byForm with
  | dp op c sb rn rd o => exact pcEffect_dataProcessing h
  | single op c p u w rn rd o => exact pcEffect_single h
  | half op c p u w rn rd o => exact pcEffect_half h
  | mrs c ps rd =>
    refine .of_conditionally h (.inl (goesOn_moveFromPsr _ _ _)) fun _ _ hu => ?_
    by_cases hrd : rd = 15
    · exact .inl (hrd ▸ mayWritePc_mrs c ps)
    · exact .inr (moveFromPsr_keepsPc hrd hu)
  | ldm c p u sb w rn list =>
    refine .of_unlessForm h (goesOn_loadMultiple _ _ _ _ _ _ _) fun hgood _ _ hu => ?_
    cases hlist : inList list 15 with
    | true => exact .inl (mayWritePc_ldm c p u sb w rn hlist)
    | false => exact .inr (loadMultiple_keepsPc (ne_pc_of_good_loadBlock hgood) hlist hu)
  | b c offset24 => exact .writes (mayWritePc_b c offset24)
  | bl c offset24 => exact .writes (mayWritePc_bl c offset24)
  | bx c rn => exact .writes (mayWritePc_bx c rn)
  | msrCpsr c rm => exact .of_conditionally h (.inl (goesOn_psrWrite _ _ _ _)) fun _ _ hu => .inr (psrWrite_keepsPc hu)
  | msrSpsr c rm => exact .of_conditionally h (.inl (goesOn_psrWrite _ _ _ _)) fun _ _ hu => .inr (psrWrite_keepsPc hu)
  | msrFlagsReg c pd rm =>
    exact .of_conditionally h (.inl (goesOn_psrWrite _ _ _ _)) fun _ _ hu => .inr (psrWrite_keepsPc hu)
  | msrFlagsImm c pd rot imm8 =>
    exact .of_conditionally h (.inl (goesOn_psrWrite _ _ _ _)) fun _ _ hu => .inr (psrWrite_keepsPc hu)
  | mul c sb rd rn rs rm =>
    exact .of_unlessForm h (goesOn_ok _ _) fun hgood _ _ hu => .inr (multiply_keepsPc (ne_pc_of_good_multiply hgood) hu)
  | mla c sb rd rn rs rm =>
    exact .of_unlessForm h (goesOn_ok _ _) fun hgood _ _ hu => .inr (multiply_keepsPc (ne_pc_of_good_multiply hgood) hu)
  | umull c sb rdHi rdLo rs rm =>
    exact .of_unlessForm h (goesOn_ok _ _) fun hgood _ _ hu => .inr (writeLong_keepsPc (ne_pc_of_good_long hgood) hu)
  | umlal c sb rdHi rdLo rs rm =>
    exact .of_unlessForm h (goesOn_ok _ _) fun hgood _ _ hu => .inr (writeLong_keepsPc (ne_pc_of_good_long hgood) hu)
  | smull c sb rdHi rdLo rs rm =>
    exact .of_unlessForm h (goesOn_ok _ _) fun hgood _ _ hu => .inr (writeLong_keepsPc (ne_pc_of_good_long hgood) hu)
  | smlal c sb rdHi rdLo rs rm =>
    exact .of_unlessForm h (goesOn_ok _ _) fun hgood _ _ hu => .inr (writeLong_keepsPc (ne_pc_of_good_long hgood) hu)
  | swp c rn rd rm =>
    exact .of_unlessForm h (goesOn_ok _ _) fun hgood _ _ hu => .inr (swap_keepsPc (ne_pc_of_good_swap hgood) hu)
  | swpb c rn rd rm =>
    exact .of_unlessForm h (goesOn_ok _ _) fun hgood _ _ hu => .inr (swap_keepsPc (ne_pc_of_good_swap hgood) hu)
  | stm c p u sb w rn list =>
    exact .of_unlessForm h (goesOn_ok _ _) fun hgood _ _ hu =>
      .inr (storeMultiple_keepsPc (ne_pc_of_good_storeBlock hgood) hu)
  | stc => exact pcEffect_noCoprocessor (by simp [Instr.TakesException]) h
  | ldc => exact pcEffect_noCoprocessor (by simp [Instr.TakesException]) h
  | cdp => exact pcEffect_noCoprocessor (by simp [Instr.TakesException]) h
  | mcr => exact pcEffect_noCoprocessor (by simp [Instr.TakesException]) h
  | mrc => exact pcEffect_noCoprocessor (by simp [Instr.TakesException]) h
  | swi => exact .of_conditionally h (.inr (by simp [Instr.TakesException])) fun _ _ hu => nomatch hu
  | undefined => exact .of_conditionally h (.inr (by simp [Instr.TakesException])) fun _ _ hu => nomatch hu

/-- Settles O56: R15 and the fetch address by the three effects. -/
theorem onlyListedInstructionsWritePc : Obligations.OnlyListedInstructionsWritePc := by
  unfold Obligations.OnlyListedInstructionsWritePc
  intro i s t h
  cases exec_pcEffect h with
  | writes hi => exact ⟨fun _ => hi, fun _ => .inl hi⟩
  | next hpc hfetch => exact ⟨fun hne => absurd hpc hne, fun hne => absurd hfetch hne⟩
  | exception hi hpc => exact ⟨fun hne => absurd hpc hne, fun _ => .inr hi⟩

end Sys2Proof.Machine

namespace Sys2Proof.Machine

/-! ## The multiplies by their shared form (R281, R283 to R289) -/

theorem exec_mul (c : Cond) (sb : Bool) (rd rn rs rm : Reg) (s : State) :
    exec (.mul c sb rd rn rs rm) s =
      conditionally c s (unlessForm (badMultiply false rd rn rs rm) (multiply sb rd rs rm 0 s)) := rfl

theorem exec_mla (c : Cond) (sb : Bool) (rd rn rs rm : Reg) (s : State) :
    exec (.mla c sb rd rn rs rm) s =
      conditionally c s (unlessForm (badMultiply true rd rn rs rm) (multiply sb rd rs rm (s.readReg rn) s)) := rfl

theorem multiplyLong_eq (sb : Bool) (rdHi rdLo rs rm : Reg) (r : BitVec 64) (s : State) :
    multiplyLong sb rdHi rdLo rs rm r s = unlessForm (badLong rdHi rdLo rs rm) (writeLong sb rdHi rdLo rs rm r s) := rfl

section
variable (c : Cond) (sb : Bool) (rdHi rdLo rs rm : Reg) (s : State)

theorem exec_umull : exec (.umull c sb rdHi rdLo rs rm) s =
    conditionally c s (multiplyLong sb rdHi rdLo rs rm (productU (s.readReg rm) (s.readReg rs)) s) := rfl

theorem exec_umlal : exec (.umlal c sb rdHi rdLo rs rm) s = conditionally c s
    (multiplyLong sb rdHi rdLo rs rm (productU (s.readReg rm) (s.readReg rs) + longAcc rdHi rdLo s) s) := rfl

theorem exec_smull : exec (.smull c sb rdHi rdLo rs rm) s =
    conditionally c s (multiplyLong sb rdHi rdLo rs rm (productS (s.readReg rm) (s.readReg rs)) s) := rfl

theorem exec_smlal : exec (.smlal c sb rdHi rdLo rs rm) s = conditionally c s
    (multiplyLong sb rdHi rdLo rs rm (productS (s.readReg rm) (s.readReg rs) + longAcc rdHi rdLo s) s) := rfl

end

/-! ## The forms without meaning (R281) -/

theorem badMultiply_eq_true_iff {accumulate : Bool} {rd rn rs rm : Reg} :
    badMultiply accumulate rd rn rs rm = true ↔
      rd = rm ∨ rd = 15 ∨ rm = 15 ∨ rs = 15 ∨ accumulate = true ∧ rn = 15 := by
  simp [badMultiply, or_assoc]

theorem badLong_eq_true_iff {rdHi rdLo rs rm : Reg} :
    badLong rdHi rdLo rs rm = true ↔
      rdHi = rdLo ∨ rdHi = rm ∨ rdLo = rm ∨ rdHi = 15 ∨ rdLo = 15 ∨ rm = 15 ∨ rs = 15 := by
  simp [badLong, or_assoc]

/-- A bad form whose condition passes is refused, whatever it would have done. -/
theorem conditionally_unlessForm_of_bad {c : Cond} {s : State} {bad : Bool} (hp : s.passes c = true)
    (hbad : bad = true) (r : StepResult) : conditionally c s (unlessForm bad r) = .refused .unpredictableForm := by
  rw [conditionally_of_passes hp, hbad, unlessForm_true]
  rfl

/-- Settles O30: the listed forms are those of the form checks, and a bad form is refused. -/
theorem multiplyBadForms : Obligations.MultiplyBadForms := by
  unfold Obligations.MultiplyBadForms
  intro c sb rd rn rs rm rdHi rdLo s hp
  refine ⟨fun h => ?_, fun h => ?_, fun h => ?_⟩
  · have hbad : badMultiply false rd rn rs rm = true := badMultiply_eq_true_iff.2 (by simpa using h)
    rw [exec_mul, conditionally_unlessForm_of_bad hp hbad]
  · have hbad : badMultiply true rd rn rs rm = true := badMultiply_eq_true_iff.2 (by simpa using h)
    rw [exec_mla, conditionally_unlessForm_of_bad hp hbad]
  · have hrefused (r : BitVec 64) :
        conditionally c s (multiplyLong sb rdHi rdLo rs rm r s) = .refused .unpredictableForm :=
      conditionally_unlessForm_of_bad hp (badLong_eq_true_iff.2 h) _
    rw [exec_umull, exec_umlal, exec_smull, exec_smlal]
    exact ⟨hrefused _, hrefused _, hrefused _, hrefused _⟩

/-! ## The products and halves as numbers (R283 to R289) -/

theorem mul_add_eq_ofNat (a b acc : Word) : a * b + acc = BitVec.ofNat 32 (a.toNat * b.toNat + acc.toNat) := by
  rw [BitVec.ofNat_add, BitVec.ofNat_mul]
  simp only [BitVec.ofNat_toNat, BitVec.setWidth_eq]

theorem productU_eq_ofNat (a b : Word) : productU a b = BitVec.ofNat 64 (a.toNat * b.toNat) := by
  rw [productU, BitVec.ofNat_mul, BitVec.ofNat_toNat, BitVec.ofNat_toNat]

theorem productS_eq_ofInt (a b : Word) : productS a b = BitVec.ofInt 64 (a.toInt * b.toInt) := by
  rw [productS, BitVec.ofInt_mul, BitVec.signExtend, BitVec.signExtend]

theorem longAcc_eq_ofNat (rdHi rdLo : Reg) (s : State) :
    longAcc rdHi rdLo s = BitVec.ofNat 64 ((s.readReg rdHi).toNat * 2 ^ 32 + (s.readReg rdLo).toNat) := by
  apply BitVec.eq_of_toNat_eq
  have hhi := (s.readReg rdHi).isLt
  have hlo := (s.readReg rdLo).isLt
  rw [longAcc, BitVec.toNat_append, ← Nat.shiftLeft_add_eq_or_of_lt hlo, Nat.shiftLeft_eq, BitVec.toNat_ofNat,
    Nat.mod_eq_of_lt (by omega)]

theorem extractLsb'_low_eq_ofNat (r : BitVec 64) : r.extractLsb' 0 32 = BitVec.ofNat 32 r.toNat := rfl

theorem extractLsb'_high_eq_ofNat (r : BitVec 64) : r.extractLsb' 32 32 = BitVec.ofNat 32 (r.toNat / 2 ^ 32) := by
  rw [BitVec.extractLsb', Nat.shiftRight_eq_div_pow]

/-! ## Results and flags (R282 to R289) -/

section
variable {c : Cond} {sb : Bool} {s : State}

/-- MUL and MLA in a good form: Rd, and with S = 1 the flags with C a draw (R282 to R284). -/
theorem conditionally_multiply_of_good {bad : Bool} {rd rs rm : Reg} {acc r : Word} (hp : s.passes c = true)
    (hgood : bad = false) (hr : s.readReg rm * s.readReg rs + acc = r) :
    conditionally c s (unlessForm bad (multiply sb rd rs rm acc s)) = .next { s.writeReg rd r with
      cpsr := if sb then { s.cpsr with n := r.getLsbD 31, z := decide (r = 0),
                                       c := Config.mulCarry s.drawCount (s.readReg rm) (s.readReg rs) } else s.cpsr
      drawCount := if sb then s.drawCount + 1 else s.drawCount
      fetchAddr := s.fetchAddr + 4 } := by
  rw [conditionally_of_passes hp, hgood, unlessForm_false, multiply, hr]
  cases sb <;> rfl

/-- A long multiply in a good form: RdLo and RdHi, and with S = 1 the flags with C and V draws (R282, R285). -/
theorem conditionally_multiplyLong_of_good {rdHi rdLo rs rm : Reg} (hp : s.passes c = true)
    (hgood : badLong rdHi rdLo rs rm = false) (r : BitVec 64) :
    conditionally c s (multiplyLong sb rdHi rdLo rs rm r s) = .next
      { (s.writeReg rdLo (BitVec.ofNat 32 r.toNat)).writeReg rdHi (BitVec.ofNat 32 (r.toNat / 2 ^ 32)) with
        cpsr := if sb then { s.cpsr with n := r.getLsbD 63, z := decide (r = 0),
                                         c := Config.mulCarry s.drawCount (s.readReg rm) (s.readReg rs),
                                         v := Config.mulOverflow s.drawCount (s.readReg rm) (s.readReg rs) }
          else s.cpsr
        drawCount := if sb then s.drawCount + 1 else s.drawCount
        fetchAddr := s.fetchAddr + 4 } := by
  rw [conditionally_of_passes hp, multiplyLong_eq, hgood, unlessForm_false, writeLong, extractLsb'_low_eq_ofNat,
    extractLsb'_high_eq_ofNat]
  cases sb <;> rfl

end

/-- Settles O31: the form is a good one, the result of MUL is that of MLA with 0 added, and C is the draw. -/
theorem multiplyResultsAndFlags : Obligations.MultiplyResultsAndFlags := by
  unfold Obligations.MultiplyResultsAndFlags
  intro c sb rd rn rs rm s i r hp hrdrm hrd hrm hrs hi
  refine ⟨Config.mulCarry s.drawCount (s.readReg rm) (s.readReg rs), s.drawCount + 1, ?_⟩
  obtain ⟨rfl, rfl⟩ | ⟨rfl, hrn, rfl⟩ := hi
  · have hgood : badMultiply false rd rn rs rm = false := by
      simp [Bool.eq_false_iff, badMultiply_eq_true_iff, *]
    exact (exec_mul ..).trans (conditionally_multiply_of_good hp hgood (mul_add_eq_ofNat _ _ 0))
  · have hgood : badMultiply true rd rn rs rm = false := by
      simp [Bool.eq_false_iff, badMultiply_eq_true_iff, *]
    exact (exec_mla ..).trans (conditionally_multiply_of_good hp hgood (mul_add_eq_ofNat _ _ _))

/-- Settles O32: each of the four is one long multiply of the 64-bit result `r`, in a good form. -/
theorem longMultiplyResultsAndFlags : Obligations.LongMultiplyResultsAndFlags := by
  unfold Obligations.LongMultiplyResultsAndFlags
  intro c sb rdHi rdLo rs rm s i r hp hhilo hhirm hlorm hhi hlo hrm hrs a b acc hi
  have hgood : badLong rdHi rdLo rs rm = false := by simp [Bool.eq_false_iff, badLong_eq_true_iff, *]
  have hacc : longAcc rdHi rdLo s = BitVec.ofNat 64 acc := longAcc_eq_ofNat rdHi rdLo s
  have hexec : exec i s = conditionally c s (multiplyLong sb rdHi rdLo rs rm r s) := by
    obtain ⟨rfl, rfl⟩ | ⟨rfl, rfl⟩ | ⟨rfl, rfl⟩ | ⟨rfl, rfl⟩ := hi
    · rw [exec_umull, productU_eq_ofNat]
    · rw [exec_umlal, productU_eq_ofNat, hacc, ← BitVec.ofNat_add]
    · rw [exec_smull, productS_eq_ofInt]
    · rw [exec_smlal, productS_eq_ofInt, hacc, ← BitVec.ofInt_natCast, ← BitVec.ofInt_add]
  exact ⟨_, _, _, hexec.trans (conditionally_multiplyLong_of_good hp hgood r)⟩

/-! ## The frame (R67, R282 to R289) -/

/-- A meaning behind a form check that goes on leaves the state alone or is its `Ok`, up to the fetch address. -/
theorem conditionally_unlessForm_next {c : Cond} {s t : State} {r : StepResult} {bad : Bool}
    (h : conditionally c s (unlessForm bad r) = .next t) (hr : r.GoesOn) :
    ∃ u a, t = { u with fetchAddr := a } ∧ (u = s ∨ ∃ w, r = .ok u w) := by
  obtain ⟨hundef, htrap⟩ := goesOn_unlessForm bad hr
  obtain ⟨-, rfl⟩ | ⟨-, u, w, hu, rfl⟩ := conditionally_next_ok h hundef htrap
  · exact ⟨s, _, rfl, .inl rfl⟩
  · exact ⟨u, _, rfl, .inr ⟨w, (unlessForm_ok hu).2⟩⟩

/-- Settles O33: MUL and MLA are one multiply and the four long ones one write of a 64-bit result; each leaves the
state alone or has the effect of its shared form. -/
theorem multiplyFrame : Obligations.MultiplyFrame := by
  unfold Obligations.MultiplyFrame
  intro c sb rd rn rs rm rdHi rdLo s t i h
  refine ⟨fun hi => ?_, fun hi => ?_⟩
  · obtain ⟨bad, acc, h⟩ : ∃ bad acc, conditionally c s (unlessForm bad (multiply sb rd rs rm acc s)) = .next t := by
      obtain rfl | rfl := hi <;> exact ⟨_, _, h⟩
    obtain ⟨u, a, rfl, rfl | ⟨w, hu⟩⟩ := conditionally_unlessForm_next h (goesOn_ok _ _)
    · exact ⟨.refl rfl, rfl, fun _ => rfl, ⟨rfl, rfl, rfl, rfl⟩, rfl, rfl, rfl, .refl rfl⟩
    · obtain ⟨hregs, hcontrol, hv, hcpsr, hspsr, hfiq, hirq, hmem, -⟩ := multiply_effect hu
      exact ⟨hregs, hv, hcpsr, hcontrol, hspsr, hfiq, hirq, .refl hmem⟩
  · obtain ⟨r, h⟩ : ∃ r, conditionally c s (multiplyLong sb rdHi rdLo rs rm r s) = .next t := by
      obtain rfl | rfl | rfl | rfl := hi <;> exact ⟨_, h⟩
    obtain ⟨u, a, rfl, rfl | ⟨w, hu⟩⟩ := conditionally_unlessForm_next h (goesOn_ok _ _)
    · exact ⟨.refl rfl, fun _ => rfl, ⟨rfl, rfl, rfl, rfl⟩, rfl, rfl, rfl, .refl rfl⟩
    · obtain ⟨hregs, hcontrol, hcpsr, hspsr, hfiq, hirq, hmem, -⟩ := writeLong_effect hu
      exact ⟨hregs, hcpsr, hcontrol, hspsr, hfiq, hirq, .refl hmem⟩

end Sys2Proof.Machine

namespace Sys2Proof.Machine

/-! ## The addressing of the single transfers (R301 to R303) -/

theorem wordOffset_imm (offset12 : BitVec 12) (s : State) :
    wordOffset (.imm offset12) s = BitVec.ofNat 32 offset12.toNat := (BitVec.ofNat_toNat 32 offset12).symm

theorem halfOffset_imm (hi lo : BitVec 4) (s : State) :
    halfOffset (.imm hi lo) s = BitVec.ofNat 32 (16 * hi.toNat + lo.toNat) := by
  have hjoin : (hi ++ lo).toNat = 16 * hi.toNat + lo.toNat := by
    rw [toNat_append_eq_add]
    omega
  rw [← hjoin, BitVec.ofNat_toNat]
  rfl

theorem indexed_up (base off : Word) : indexed true base off = BitVec.ofNat 32 (base.toNat + off.toNat) := by
  simp [indexed, BitVec.ofNat_add]

theorem indexed_down (base off : Word) :
    indexed false base off = BitVec.ofInt 32 ((base.toNat : Int) - off.toNat) := by
  rw [Int.sub_eq_add_neg, BitVec.ofInt_add, BitVec.ofInt_neg]
  simp [indexed, BitVec.sub_eq_add_neg]

theorem writesBack_eq_true_iff {p w : Bool} : writesBack p w = true ↔ p = false ∨ w = true := by
  simp [writesBack]

/-- Settles O38: the immediates and the index as numbers; the rest is the definition. -/
theorem addressingModes : Obligations.AddressingModes := by
  unfold Obligations.AddressingModes
  intro s p u w base off offset12 amount5 kind rm hi lo
  exact ⟨wordOffset_imm offset12 s, rfl, halfOffset_imm hi lo s, rfl, indexed_up base off, indexed_down base off, rfl,
    rfl, writesBack_eq_true_iff⟩

/-! ## The forms without meaning (R304, R330) -/

theorem wordOffset_usesPc_iff {o : WordOffset} : WordOffset.usesPc o = true ↔ ∃ a k, o = .reg a k 15 := by
  cases o <;> simp [WordOffset.usesPc]

theorem halfOffset_usesPc_iff {o : HalfOffset} : HalfOffset.usesPc o = true ↔ o = .reg 15 := by
  cases o <;> simp [HalfOffset.usesPc]

section
variable {p w : Bool} {rn rd : Reg} {offsetPc : Bool}

theorem badTransfer_eq_true_iff :
    badTransfer p w rn rd offsetPc = true ↔ writesBack p w = true ∧ (rn = 15 ∨ rn = rd) ∨ offsetPc = true := by
  simp [badTransfer]

theorem badByte_eq_true_iff :
    badByte p w rn rd offsetPc = true ↔ badTransfer p w rn rd offsetPc = true ∨ rd = 15 := by
  simp [badByte]

theorem badHalf_eq_true_iff :
    badHalf p w rn rd offsetPc = true ↔
      badTransfer p w rn rd offsetPc = true ∨ rd = 15 ∨ p = false ∧ w = true := by
  simp [badHalf, or_assoc]

end

theorem oddAddress_eq_true_iff {p u : Bool} {rn : Reg} {off : Word} {s : State} :
    oddAddress p u rn off s = true ↔ (effectiveAddr p u (s.readReg rn) off).toNat % 2 = 1 := by
  rw [oddAddress, bit0_eq_odd, decide_eq_true_iff]

theorem badSwap_eq_true_iff {rn rd rm : Reg} :
    badSwap rn rd rm = true ↔ rn = 15 ∨ rd = 15 ∨ rm = 15 ∨ rn = rd ∨ rn = rm := by
  simp [badSwap, or_assoc]

/-- Two form checks in a row are one of either (R304). -/
theorem unlessForm_unlessForm (bad bad' : Bool) (r : StepResult) :
    unlessForm bad (unlessForm bad' r) = unlessForm (bad || bad') r := by
  cases bad <;> rfl

/-- A byte form is at fault as every transfer is, or for its Rd (R304). -/
theorem exec_single_of_bad {op : SingleOp} {c : Cond} {p u w : Bool} {rn rd : Reg} {o : WordOffset} {s : State}
    (hp : s.passes c = true)
    (hbad : badTransfer p w rn rd (WordOffset.usesPc o) = true ∨ (op = .ldrb ∨ op = .strb) ∧ rd = 15) :
    exec (.ofSingle op c p u w rn rd o) s = .refused .unpredictableForm := by
  cases op with
  | str => rw [exec_str]; exact conditionally_unlessForm_of_bad hp (by simpa using hbad) _
  | ldr => rw [exec_ldr]; exact conditionally_unlessForm_of_bad hp (by simpa using hbad) _
  | strb => rw [exec_strb]; exact conditionally_unlessForm_of_bad hp (badByte_eq_true_iff.2 (by simpa using hbad)) _
  | ldrb => rw [exec_ldrb]; exact conditionally_unlessForm_of_bad hp (badByte_eq_true_iff.2 (by simpa using hbad)) _

/-- A halfword form is at fault by its fields, or, but for LDRSB, by the address (R304). -/
theorem exec_half_of_bad {op : HalfOp} {c : Cond} {p u w : Bool} {rn rd : Reg} {o : HalfOffset} {s : State}
    (hp : s.passes c = true)
    (hbad : badHalf p w rn rd (HalfOffset.usesPc o) = true ∨
      op ≠ .ldrsb ∧ oddAddress p u rn (halfOffset o s) s = true) :
    exec (.ofHalf op c p u w rn rd o) s = .refused .unpredictableForm := by
  cases op with
  | strh =>
    rw [exec_strh, storeHalf, nonCore_eq, unlessForm_unlessForm]
    exact conditionally_unlessForm_of_bad hp (by simpa using hbad) _
  | ldrh =>
    rw [exec_ldrh, loadHalf, nonCore_eq, unlessForm_unlessForm]
    exact conditionally_unlessForm_of_bad hp (by simpa using hbad) _
  | ldrsb => rw [exec_ldrsb]; exact conditionally_unlessForm_of_bad hp (by simpa using hbad) _
  | ldrsh =>
    rw [exec_ldrsh, loadHalf, nonCore_eq, unlessForm_unlessForm]
    exact conditionally_unlessForm_of_bad hp (by simpa using hbad) _

/-- Settles O42: the listed forms are those of the form checks, and a bad form is refused. -/
theorem transferBadForms : Obligations.TransferBadForms := by
  unfold Obligations.TransferBadForms
  intro c p u w rn rd o q op hop s hp
  refine ⟨fun h => exec_single_of_bad hp ?_, fun h => exec_half_of_bad hp ?_⟩
  · rwa [badTransfer_eq_true_iff, wordOffset_usesPc_iff, or_assoc]
  · simpa only [badHalf_eq_true_iff, badTransfer_eq_true_iff, halfOffset_usesPc_iff, oddAddress_eq_true_iff,
      or_assoc] using h

/-! ## What a transfer moves, as numbers (R305, R307, R315, R317, R318) -/

theorem loadValue_word (s : State) (ea : Word) :
    s.loadValue .word ea = (s.read32 (ea &&& ~~~(3#32))).rotateRight (8 * (ea.toNat % 4)) := loadWordRotated_eq s ea

theorem loadValue_byte (s : State) (ea : Word) : s.loadValue .byte ea = BitVec.ofNat 32 (s.read8 ea).toNat :=
  (BitVec.ofNat_toNat 32 _).symm

theorem loadValue_half (s : State) (ea : Word) : s.loadValue .half ea = BitVec.ofNat 32 (s.read16 ea).toNat :=
  (BitVec.ofNat_toNat 32 _).symm

/-! ## Transfers and swaps in a good form (R305 to R308, R315 to R318, R330, R331) -/

section
variable {c : Cond} {bad p u w : Bool} {rn rd rm : Reg} {s : State}

/-- A load in a good form: the write-back, then Rd, and a branch where Rd is R15 (R305, R310). -/
theorem conditionally_load_of_good {k : LoadKind} {off v : Word} (hp : s.passes c = true) (hgood : bad = false)
    (hv : s.loadValue k (effectiveAddr p u (s.readReg rn) off) = v) :
    conditionally c s (unlessForm bad (load k p u w rn rd off s)) = .next
      { (s.writeBack (writesBack p w) rn (indexed u (s.readReg rn) off)).writeReg rd v with
        fetchAddr := if rd = 15 then v &&& ~~~(3#32) else s.fetchAddr + 4 } := by
  rw [conditionally_of_passes hp, hgood, unlessForm_false, load, hv]
  by_cases hrd : rd = 15
  · simp [hrd, environment, pc_writeReg, alignWord]
  · simp [hrd, environment]

/-- A load to another Rd than R15 goes on at `A + 4`. -/
theorem conditionally_load_of_ne_pc {k : LoadKind} {off v : Word} (hp : s.passes c = true) (hgood : bad = false)
    (hrd : rd ≠ 15) (hv : s.loadValue k (effectiveAddr p u (s.readReg rn) off) = v) :
    conditionally c s (unlessForm bad (load k p u w rn rd off s)) = .next
      { (s.writeBack (writesBack p w) rn (indexed u (s.readReg rn) off)).writeReg rd v with
        fetchAddr := s.fetchAddr + 4 } := by
  rw [conditionally_load_of_good hp hgood hv, if_neg hrd]

/-- A store in a good form: the bytes, then the write-back (R306, R310). -/
theorem conditionally_store_of_good {k : StoreKind} {off v : Word} (hp : s.passes c = true) (hgood : bad = false)
    (hv : s.storedReg rd = v) :
    conditionally c s (unlessForm bad (store k p u w rn rd off s)) = .next
      { (s.storeValue k (effectiveAddr p u (s.readReg rn) off) v).writeBack (writesBack p w) rn
          (indexed u (s.readReg rn) off) with fetchAddr := s.fetchAddr + 4 } := by
  rw [conditionally_of_passes hp, hgood, unlessForm_false, store, hv]
  rfl

theorem storedReg_of_ne_pc (h : rd ≠ 15) : s.storedReg rd = s.readReg rd := if_neg h

/-- A swap in a good form: the bytes, then Rd with what was read before (R330). -/
theorem conditionally_swap_of_good {lk : LoadKind} {sk : StoreKind} {v : Word} (hp : s.passes c = true)
    (hgood : bad = false) (hv : s.loadValue lk (s.readReg rn) = v) :
    conditionally c s (unlessForm bad (swap lk sk rn rd rm s)) = .next
      { (s.storeValue sk (s.readReg rn) (s.readReg rm)).writeReg rd v with fetchAddr := s.fetchAddr + 4 } := by
  rw [conditionally_of_passes hp, hgood, unlessForm_false, swap, hv]
  rfl

theorem good_transfer {o : WordOffset} (hwb : ¬ (writesBack p w = true ∧ (rn = 15 ∨ rn = rd)))
    (ho : ∀ a k, o ≠ .reg a k 15) : badTransfer p w rn rd (WordOffset.usesPc o) = false := by
  rw [Bool.eq_false_iff, ne_eq, badTransfer_eq_true_iff, wordOffset_usesPc_iff]
  rintro (h | ⟨a, k, h⟩)
  · exact hwb h
  · exact ho a k h

theorem good_byte {offsetPc : Bool} (hgood : badTransfer p w rn rd offsetPc = false) (hrd : rd ≠ 15) :
    badByte p w rn rd offsetPc = false := by
  simp [badByte, hgood, hrd]

theorem good_half {o : HalfOffset} (hwb : ¬ (writesBack p w = true ∧ (rn = 15 ∨ rn = rd))) (ho : o ≠ .reg 15)
    (hrd : rd ≠ 15) (hpw : ¬ (p = false ∧ w = true)) : badHalf p w rn rd (HalfOffset.usesPc o) = false := by
  rw [Bool.eq_false_iff, ne_eq, badHalf_eq_true_iff, badTransfer_eq_true_iff, halfOffset_usesPc_iff]
  tauto

end

/-- Settles O39: both forms are good, and the value is the rotated word or the zero-extended byte. -/
theorem loadWordAndByte : Obligations.LoadWordAndByte := by
  unfold Obligations.LoadWordAndByte
  intro c p u w rn rd o s hp hwb ho idx ea t v
  have hgood := good_transfer hwb ho
  refine ⟨?_, fun hrd => ?_⟩
  · rw [exec_ldr]
    exact conditionally_load_of_good hp hgood (loadValue_word s ea)
  · rw [exec_ldrb]
    exact conditionally_load_of_ne_pc hp (good_byte hgood hrd) hrd (loadValue_byte s ea)

/-- Settles O40: both forms are good; STR takes R15 with 4 added, STRB never takes R15. -/
theorem storeWordAndByte : Obligations.StoreWordAndByte := by
  unfold Obligations.StoreWordAndByte
  intro c p u w rn rd o s hp hwb ho idx ea back
  have hgood := good_transfer hwb ho
  refine ⟨?_, fun hrd => ?_⟩
  · rw [exec_str]
    exact conditionally_store_of_good hp hgood rfl
  · rw [exec_strb]
    exact conditionally_store_of_good hp (good_byte hgood hrd) (storedReg_of_ne_pc hrd)

/-- Settles O41: the form is good, and with an even address so are the two form checks of a halfword. -/
theorem halfAndSignedTransfers : Obligations.HalfAndSignedTransfers := by
  unfold Obligations.HalfAndSignedTransfers
  intro c p u w rn rd o s hp hwb ho hrd hpw idx ea t
  have hgood := good_half hwb ho hrd hpw
  refine ⟨?_, fun heven => ?_⟩
  · rw [exec_ldrsb]
    exact conditionally_load_of_ne_pc hp hgood hrd rfl
  · have hodd : oddAddress p u rn (halfOffset o s) s = false := by
      rw [Bool.eq_false_iff, ne_eq, oddAddress_eq_true_iff]
      exact Nat.mod_two_ne_one.2 heven
    have hboth : (badHalf p w rn rd (HalfOffset.usesPc o) || oddAddress p u rn (halfOffset o s) s) = false := by
      rw [hgood, hodd, Bool.or_false]
    refine ⟨?_, ?_, ?_⟩
    · rw [exec_ldrh, loadHalf, nonCore_eq, unlessForm_unlessForm]
      exact conditionally_load_of_ne_pc hp hboth hrd (loadValue_half s ea)
    · rw [exec_ldrsh, loadHalf, nonCore_eq, unlessForm_unlessForm]
      exact conditionally_load_of_ne_pc hp hboth hrd rfl
    · rw [exec_strh, storeHalf, nonCore_eq, unlessForm_unlessForm]
      exact conditionally_store_of_good hp hboth (storedReg_of_ne_pc hrd)

theorem exec_swp (c : Cond) (rn rd rm : Reg) (s : State) :
    exec (.swp c rn rd rm) s =
      conditionally c s (unlessForm (badSwap rn rd rm) (swap .word .word rn rd rm s)) := rfl

theorem exec_swpb (c : Cond) (rn rd rm : Reg) (s : State) :
    exec (.swpb c rn rd rm) s =
      conditionally c s (unlessForm (badSwap rn rd rm) (swap .byte .byte rn rd rm s)) := rfl

/-- Settles O45: the listed forms are those of the form check; in a good form Rd gets what was read first. -/
theorem swapExchangesRegisterAndMemory : Obligations.SwapExchangesRegisterAndMemory := by
  unfold Obligations.SwapExchangesRegisterAndMemory
  intro c rn rd rm s hp ea
  rw [exec_swp, exec_swpb]
  refine ⟨fun h => ?_, fun hrn hrd hrm hnd hnm => ?_⟩
  · have hbad := badSwap_eq_true_iff.2 h
    exact ⟨conditionally_unlessForm_of_bad hp hbad _, conditionally_unlessForm_of_bad hp hbad _⟩
  · have hgood : badSwap rn rd rm = false := by simp [Bool.eq_false_iff, badSwap_eq_true_iff, *]
    exact ⟨conditionally_swap_of_good hp hgood (loadValue_word s ea),
      conditionally_swap_of_good hp hgood (loadValue_byte s ea)⟩

/-! ## The frames (R67, R310, R330, R331) -/

/-- The frame of a transfer: the registers `ps` and the bytes at `as` may change, and with them the fetch address. -/
def TransferFrame (ps : List PhysReg) (as : List Word) (s t : State) : Prop :=
  RegsSameExcept ps s t ∧ t.cpsr = s.cpsr ∧ SpecialsSame s t ∧ MemSameExcept as s t

section
variable {c : Cond} {bad p u w : Bool} {rn rd rm : Reg} {off : Word} {s t : State}

/-- A meaning behind a form check keeps the frame that its `Ok` keeps: a failed condition changes the fetch address
only. -/
theorem transferFrame_of_unlessForm {r : StepResult} {ps : List PhysReg} {as : List Word}
    (h : conditionally c s (unlessForm bad r) = .next t) (hr : r.GoesOn)
    (hok : ∀ v pw, r = .ok v pw → TransferFrame ps as s v) : TransferFrame ps as s t := by
  obtain ⟨v, a, rfl, rfl | ⟨pw, hv⟩⟩ := conditionally_unlessForm_next h hr
  · exact ⟨.refl rfl, rfl, ⟨rfl, rfl, rfl, rfl⟩, .refl rfl⟩
  · exact hok v pw hv

theorem load_frame {k : LoadKind} (h : conditionally c s (unlessForm bad (load k p u w rn rd off s)) = .next t) :
    TransferFrame (phys s.cpsr.m rd :: if writesBack p w then [phys s.cpsr.m rn] else []) [] s t :=
  transferFrame_of_unlessForm h (goesOn_ok _ _) fun _ _ hv =>
    have ⟨hregs, hcpsr, hspecials, hmem, _⟩ := load_effect hv
    ⟨hregs, hcpsr, hspecials, .refl hmem⟩

theorem store_frame {k : StoreKind} (h : conditionally c s (unlessForm bad (store k p u w rn rd off s)) = .next t) :
    TransferFrame (if writesBack p w then [phys s.cpsr.m rn] else [])
      (k.bytes (effectiveAddr p u (s.readReg rn) off)) s t :=
  transferFrame_of_unlessForm h (goesOn_ok _ _) fun _ _ hv =>
    have ⟨hregs, hcpsr, hspecials, hmem, _⟩ := store_effect hv
    ⟨hregs, hcpsr, hspecials, hmem⟩

theorem swap_frame {lk : LoadKind} {sk : StoreKind}
    (h : conditionally c s (unlessForm bad (swap lk sk rn rd rm s)) = .next t) :
    TransferFrame [phys s.cpsr.m rd] (sk.bytes (s.readReg rn)) s t :=
  transferFrame_of_unlessForm h (goesOn_ok _ _) fun _ _ hv =>
    have ⟨hregs, hcpsr, hspecials, hmem, _⟩ := swap_effect hv
    ⟨hregs, hcpsr, hspecials, hmem⟩

end

section
variable (c : Cond) (p u w : Bool) (rn rd : Reg) (s : State)

/-- LDR and LDRB are one load behind a form check. -/
theorem exec_single_load_form {op : SingleOp} (hl : op.load = true) (o : WordOffset) : ∃ bad k off,
    exec (.ofSingle op c p u w rn rd o) s = conditionally c s (unlessForm bad (load k p u w rn rd off s)) := by
  cases op with
  | ldr => exact ⟨_, _, _, exec_ldr ..⟩
  | ldrb => exact ⟨_, _, _, exec_ldrb ..⟩
  | str | strb => exact nomatch hl

/-- LDRH, LDRSB and LDRSH are one load behind a form check. -/
theorem exec_half_load_form {op : HalfOp} (hl : op.load = true) (o : HalfOffset) : ∃ bad k off,
    exec (.ofHalf op c p u w rn rd o) s = conditionally c s (unlessForm bad (load k p u w rn rd off s)) := by
  cases op with
  | ldrh => exact ⟨_, _, _, by rw [exec_ldrh, loadHalf, nonCore_eq, unlessForm_unlessForm]⟩
  | ldrsb => exact ⟨_, _, _, exec_ldrsb ..⟩
  | ldrsh => exact ⟨_, _, _, by rw [exec_ldrsh, loadHalf, nonCore_eq, unlessForm_unlessForm]⟩
  | strh => exact nomatch hl

end

/-- Settles O43: each of the five is one load behind a form check. -/
theorem loadFrame : Obligations.LoadFrame := by
  unfold Obligations.LoadFrame
  rintro c p u w rn rd o q op hop s t (⟨hl, h⟩ | ⟨hl, h⟩)
  · obtain ⟨bad, k, off, he⟩ := exec_single_load_form c p u w rn rd s hl o
    exact load_frame (he ▸ h)
  · obtain ⟨bad, k, off, he⟩ := exec_half_load_form c p u w rn rd s hl q
    exact load_frame (he ▸ h)

/-- Settles O44: each of the three is one store of its width at the effective address of its form. -/
theorem storeFrame : Obligations.StoreFrame := by
  unfold Obligations.StoreFrame
  rintro c p u w rn rd o q op k s t ea (⟨⟨rfl, rfl⟩ | ⟨rfl, rfl⟩, h, rfl⟩ | ⟨rfl, h, rfl⟩)
  · rw [exec_str] at h
    exact store_frame h
  · rw [exec_strb] at h
    exact store_frame h
  · rw [exec_strh, storeHalf, nonCore_eq, unlessForm_unlessForm] at h
    exact store_frame h

/-- Settles O46: each of the two is one swap of its width at the address in Rn. -/
theorem swapFrame : Obligations.SwapFrame := by
  unfold Obligations.SwapFrame
  rintro c rn rd rm s t k (⟨rfl, h⟩ | ⟨rfl, h⟩)
  · exact swap_frame (exec_swp .. ▸ h)
  · exact swap_frame (exec_swpb .. ▸ h)

end Sys2Proof.Machine

namespace Sys2Proof.Machine

/-! ## The addresses of a block transfer (R341, R342) -/

/-- A list names at most sixteen registers (R341). -/
theorem length_listRegs_le (list : BitVec 16) : (listRegs list).length ≤ 16 :=
  (List.length_filter_le _ _).trans_eq (List.length_finRange (n := 16))

theorem blockSize_toNat (list : BitVec 16) : (blockSize list).toNat = 4 * (listRegs list).length := by
  have hle := length_listRegs_le list
  exact Nat.mod_eq_of_lt (by omega)

/-- Settles O47: the list is a filter of the ascending numbers, and `4n` is small enough to be a word. -/
theorem blockAddresses : Obligations.BlockAddresses := by
  unfold Obligations.BlockAddresses
  intro list base n
  have hle : n ≤ 16 := length_listRegs_le list
  have hsize : (blockSize list).toNat = 4 * n := blockSize_toNat list
  have hfour : (4 : Word).toNat = 4 := rfl
  refine ⟨fun r => mem_listRegs, listRegs_sorted list, hle, rfl, ?_⟩
  clear_value n
  simp only [blockStart, blockWriteback, if_true, Bool.false_eq_true, if_false, BitVec.toNat_add, BitVec.toNat_sub,
    hsize, hfour, true_and]
  omega

/-! ## The forms without meaning (R344) -/

theorem exec_ldm (c : Cond) (p u sb w : Bool) (rn : Reg) (list : BitVec 16) (s : State) :
    exec (.ldm c p u sb w rn list) s =
      conditionally c s (unlessForm (badLoadBlock sb w rn list s) (loadMultiple p u sb w rn list s)) := rfl

theorem exec_stm (c : Cond) (p u sb w : Bool) (rn : Reg) (list : BitVec 16) (s : State) :
    exec (.stm c p u sb w rn list) s =
      conditionally c s (unlessForm (badStoreBlock sb w rn list s) (storeMultiple p u sb w rn list s)) := rfl

/-- A register of the list is its lowest unless the list names a lower one. -/
theorem isLowest_eq_false_iff {list : BitVec 16} {rn : Reg} (hrn : inList list rn = true) :
    isLowest list rn = false ↔ ∃ r, inList list r = true ∧ r < rn := by
  have hmem := mem_listRegs.2 hrn
  have hsorted := listRegs_sorted list
  simp only [isLowest, decide_eq_false_iff_not, ← mem_listRegs]
  cases hl : listRegs list with
  | nil => simp [hl] at hmem
  | cons a rest =>
    rw [hl] at hmem hsorted
    have hlow : ∀ r ∈ rest, a < r := (List.pairwise_cons.1 hsorted).1
    constructor
    · intro hne
      have hrest : rn ∈ rest := (List.mem_cons.1 hmem).resolve_left fun h => hne (h ▸ rfl)
      exact ⟨a, List.mem_cons_self, hlow rn hrest⟩
    · rintro ⟨r, hr, hlt⟩ he
      obtain rfl : a = rn := Option.some.inj he
      obtain rfl | hr := List.mem_cons.1 hr
      · exact lt_irrefl _ hlt
      · exact lt_asymm hlt (hlow r hr)

section
variable {sb w : Bool} {rn : Reg} {list : BitVec 16} {s : State}

theorem badUserBank_eq_true_iff : badUserBank w s = true ↔ w = true ∨ s.cpsr.m = .usr ∨ s.cpsr.m = .sys := by
  simp [badUserBank, or_assoc]

theorem badLoadBlock_eq_true_iff : badLoadBlock sb w rn list s = true ↔
    list = 0 ∨ rn = 15 ∨ w = true ∧ inList list rn = true ∨
      sb = true ∧ inList list 15 = false ∧ (w = true ∨ s.cpsr.m = .usr ∨ s.cpsr.m = .sys) := by
  simp [badLoadBlock, badUserBank_eq_true_iff, or_assoc, and_assoc]

theorem badStoreBlock_eq_true_iff : badStoreBlock sb w rn list s = true ↔
    list = 0 ∨ rn = 15 ∨ w = true ∧ inList list rn = true ∧ (∃ r, inList list r = true ∧ r < rn) ∨
      sb = true ∧ (w = true ∨ s.cpsr.m = .usr ∨ s.cpsr.m = .sys) := by
  have hlowest : (inList list rn = true ∧ isLowest list rn = false) ↔
      (inList list rn = true ∧ ∃ r, inList list r = true ∧ r < rn) :=
    and_congr_right fun hrn => isLowest_eq_false_iff hrn
  simp [badStoreBlock, badUserBank_eq_true_iff, or_assoc, and_assoc, hlowest]

theorem good_loadBlock (hlist : list ≠ 0) (hrn : rn ≠ 15) (hbase : ¬ (w = true ∧ inList list rn = true))
    (huser : sb = true → inList list 15 = false → w = false ∧ s.cpsr.m ≠ .usr ∧ s.cpsr.m ≠ .sys) :
    badLoadBlock sb w rn list s = false := by
  rw [Bool.eq_false_iff, ne_eq, badLoadBlock_eq_true_iff]
  rintro (h | h | h | ⟨hsb, hpc, h⟩)
  · exact hlist h
  · exact hrn h
  · exact hbase h
  · simp [huser hsb hpc] at h

theorem good_storeBlock (hlist : list ≠ 0) (hrn : rn ≠ 15)
    (hbase : ¬ (w = true ∧ inList list rn = true ∧ ∃ r, inList list r = true ∧ r < rn))
    (huser : sb = true → w = false ∧ s.cpsr.m ≠ .usr ∧ s.cpsr.m ≠ .sys) : badStoreBlock sb w rn list s = false := by
  rw [Bool.eq_false_iff, ne_eq, badStoreBlock_eq_true_iff]
  rintro (h | h | h | ⟨hsb, h⟩)
  · exact hlist h
  · exact hrn h
  · exact hbase h
  · simp [huser hsb] at h

end

/-- Settles O48: the listed forms are those of the form checks, and a bad form is refused. -/
theorem blockBadForms : Obligations.BlockBadForms := by
  unfold Obligations.BlockBadForms
  intro c p u sb w rn list s hp
  refine ⟨fun h => ?_, fun h => ?_⟩
  · rw [exec_ldm, conditionally_unlessForm_of_bad hp (badLoadBlock_eq_true_iff.2 h)]
  · rw [exec_stm, conditionally_unlessForm_of_bad hp (badStoreBlock_eq_true_iff.2 h)]

/-! ## Block transfers in a good form (R343, R345 to R348) -/

/-- After an `Ok` the next fetch follows R15 if it was written, and comes at `A + 4` if not (R147). -/
theorem environment_ok (s t : State) (pw : Bool) :
    environment s (.ok t pw) = .next { t with fetchAddr := if pw then alignWord t.pc else s.fetchAddr + 4 } := by
  cases pw <;> rfl

section
variable {c : Cond} {p u sb w : Bool} {rn : Reg} {list : BitVec 16} {s : State}

theorem exec_ldm_of_good (hp : s.passes c = true) (hgood : badLoadBlock sb w rn list s = false) :
    exec (.ldm c p u sb w rn list) s = environment s (loadMultiple p u sb w rn list s) := by
  rw [exec_ldm, conditionally_of_passes hp, hgood, unlessForm_false]

theorem exec_stm_of_good (hp : s.passes c = true) (hgood : badStoreBlock sb w rn list s = false) :
    exec (.stm c p u sb w rn list) s = environment s (storeMultiple p u sb w rn list s) := by
  rw [exec_stm, conditionally_of_passes hp, hgood, unlessForm_false]

theorem loadMultiple_of_not_restore (h : isRestore sb list = false) :
    loadMultiple p u sb w rn list s = .ok (loadedBlock p u sb w rn list s) (inList list 15) := by
  rw [loadMultiple, if_neg (by simp [h])]

/-- A restore is the write of the CPSR and, where that goes well, the loads (R346). -/
theorem loadMultiple_of_restore (h : inList list 15 = true) :
    loadMultiple p u true w rn list s = StepResult.ofExcept s.restoreCpsr fun t =>
      .ok { loadedBlock p u true w rn list s with cpsr := t.cpsr } true :=
  if_pos h

/-- A base outside the list, written back in the bank the list is loaded in, keeps its new value (R343, R344). -/
theorem loadedBlock_base (hw : w = true) (hbase : inList list rn = false) (hbank : (sb && !inList list 15) = false) :
    (loadedBlock p u sb w rn list s).regs.get (phys s.cpsr.m rn) = blockWriteback u (s.readReg rn) list := by
  obtain ⟨-, -, hback, -⟩ := loadedBlock_effect p u sb w rn list s
  refine hback hw fun hmem => ?_
  obtain ⟨r, hr, he⟩ := List.mem_map.1 hmem
  rw [hbank] at he
  obtain rfl : r = rn := (phys_inj s.cpsr.m).1 he
  exact absurd (mem_listRegs.1 hr) (by simp [hbase])

end

/-- Settles O49: the form is good and no restore, so the answer is the loaded block in the bank that S selects. -/
theorem loadMultipleLoadsTheList : Obligations.LoadMultipleLoadsTheList := by
  unfold Obligations.LoadMultipleLoadsTheList
  intro c p u sb w rn list s hp hlist hrn hbase huser bank start
  have hgood : badLoadBlock sb w rn list s = false := good_loadBlock hlist hrn hbase fun hsb _ => (huser hsb).2
  have hnoPc : sb = true → inList list 15 = false := fun hsb => (huser hsb).1
  have hrestore : isRestore sb list = false := by simpa [isRestore] using hnoPc
  have hbank : (sb && !inList list 15) = sb := by simpa using hnoPc
  have hmodeBank (hw : w = true) : sb = false := Bool.eq_false_iff.2 fun hsb => absurd hw (by simp [huser hsb])
  have hback (hw : w = true) := loadedBlock_base (p := p) (u := u) (s := s) hw (by simpa [hw] using hbase)
    (hbank.trans (hmodeBank hw))
  obtain ⟨hregs, hloaded, -, hcpsr, hspecials, hmem, -⟩ := loadedBlock_effect p u sb w rn list s
  rw [hbank] at hregs hloaded
  have hexec := exec_ldm_of_good (p := p) (u := u) hp hgood
  rw [loadMultiple_of_not_restore hrestore, environment_ok] at hexec
  exact ⟨_, hexec, hloaded, hback, hregs, hcpsr, hspecials, hmem, rfl⟩

/-- Settles O50: the form is good and a restore; it fails with the mode's or the SPSR's error, or the answer is the
block loaded in the mode's bank with the SPSR as its CPSR. -/
theorem loadMultipleRestoresCpsr : Obligations.LoadMultipleRestoresCpsr := by
  unfold Obligations.LoadMultipleRestoresCpsr
  intro c p u w rn list s hp hpc hrn hbase start
  have hlist : list ≠ 0 := by rintro rfl; exact absurd hpc (by decide)
  have hgood : badLoadBlock true w rn list s = false := good_loadBlock hlist hrn hbase fun _ h => by simp [hpc] at h
  have hexec := exec_ldm_of_good (p := p) (u := u) hp hgood
  rw [loadMultiple_of_restore hpc] at hexec
  refine ⟨fun hm => ?_, fun b hb => ⟨fun hill => ?_, fun m hleg => ?_⟩⟩
  · rw [hexec, restoreCpsr_of_noSpsr (spsrBank_eq_none.2 hm)]
    rfl
  · rw [hexec, restoreCpsr_of_illegal hb (toCpsr_of_illegal hill)]
    rfl
  · have hbank : (true && !inList list 15) = false := by simp [hpc]
    have hback (hw : w = true) := loadedBlock_base (p := p) (u := u) (s := s) hw (by simpa [hw] using hbase) hbank
    obtain ⟨hregs, hloaded, -, -, hspecials, hmem, -⟩ := loadedBlock_effect p u true w rn list s
    rw [hbank] at hregs hloaded
    rw [restoreCpsr_of_legal hb (toCpsr_of_legal hleg)] at hexec
    exact ⟨_, hexec, rfl, hloaded, hback, hregs, hspecials, hmem, rfl⟩

/-- Settles O51: the form is good, and the stored words and the frame are those of the shared store. -/
theorem storeMultipleStoresTheList : Obligations.StoreMultipleStoresTheList := by
  unfold Obligations.StoreMultipleStoresTheList
  intro c p u sb w rn list s hp hlist hrn hbase huser start slot stored
  have hgood : badStoreBlock sb w rn list s = false := good_storeBlock hlist hrn hbase huser
  obtain ⟨hregs, hback, hcpsr, hspecials, -, -, hbytes, hwords⟩ :=
    storeMultiple_effect (p := p) (u := u) (sb := sb) (w := w) (rn := rn) (list := list) (s := s) rfl
  exact ⟨_, exec_stm_of_good hp hgood, fun hwf => (hwords hwf).2, hbytes, hback, hregs, hcpsr, hspecials, rfl⟩

end Sys2Proof.Machine

namespace Sys2Proof.Machine

/-! ## What an instruction can do in USR mode (R257, R273, R400, R401) -/

/-- The list names registers of the user bank only. -/
def UserRegs (ps : List PhysReg) : Prop := ∀ p ∈ ps, ∃ k, p = .usr k

theorem UserRegs.append {ps qs : List PhysReg} (hps : UserRegs ps) (hqs : UserRegs qs) : UserRegs (ps ++ qs) :=
  fun p hp => (List.mem_append.1 hp).elim (hps p) (hqs p)

/-- Instruction `i` takes `s` to a state still in USR mode that has the privileged state of `s`; T may differ by BX. -/
def UserKept (i : Instr) (s t : State) : Prop :=
  t.cpsr.m = .usr ∧ t.cpsr.i = s.cpsr.i ∧ t.cpsr.f = s.cpsr.f ∧ (t.cpsr.t = s.cpsr.t ∨ ∃ c rn, i = .bx c rn) ∧
  t.spsr = s.spsr ∧ ∀ p, (∀ k, p ≠ .usr k) → t.regs.get p = s.regs.get p

/-- Instruction `i` takes `s` to the entry of SWI or of Undefined, or keeps the privileged state. -/
def UserContained (i : Instr) (s t : State) : Prop :=
  t = takeException .swi s.fetchAddr s ∨ t = takeException .undefined s.fetchAddr s ∨ UserKept i s t

/-- A frame of user-bank registers keeps every banked register. -/
theorem RegsSameExcept.banked {ps : List PhysReg} {s t : State} (h : RegsSameExcept ps s t) (hps : UserRegs ps)
    (p : PhysReg) (hp : ∀ k, p ≠ .usr k) : t.regs.get p = s.regs.get p :=
  h p fun hmem => have ⟨k, hk⟩ := hps p hmem; hp k hk

section
variable {i : Instr} {c : Cond} {s t : State} (hm : s.cpsr.m = .usr)
include hm

theorem UserKept.of_control {ps : List PhysReg} (hps : UserRegs ps) (hregs : RegsSameExcept ps s t)
    (hcontrol : ControlSame s t) (hspsr : t.spsr = s.spsr) : UserKept i s t :=
  have ⟨hi, hf, ht, hmode⟩ := hcontrol
  ⟨hmode.trans hm, hi, hf, .inl ht, hspsr, hregs.banked hps⟩

theorem UserKept.of_cpsr {ps : List PhysReg} (hps : UserRegs ps) (hregs : RegsSameExcept ps s t)
    (hcpsr : t.cpsr = s.cpsr) (hspsr : t.spsr = s.spsr) : UserKept i s t :=
  .of_control hm hps hregs (by simp [ControlSame, hcpsr]) hspsr

/-- A meaning under its condition, by what its `Ok` does: a failed condition keeps everything but the fetch address,
and the environment enters no other exception than the two. -/
theorem UserContained.of_conditionally {r : StepResult} (h : conditionally c s r = .next t)
    (hok : ∀ u w, r = .ok u w → UserKept i s u) : UserContained i s t := by
  obtain ⟨-, rfl⟩ | ⟨-, h⟩ := conditionally_next h
  · exact .inr (.inr (.of_cpsr hm (ps := []) nofun (.refl rfl) rfl rfl))
  · obtain ⟨u, hu, rfl⟩ | ⟨u, hu, rfl⟩ | ⟨-, ht⟩ | ⟨k, -, ht⟩ := environment_next h
    · exact .inr (.inr (hok u _ hu))
    · exact .inr (.inr (hok u _ hu))
    · exact .inr (.inl ht)
    · exact .inl ht

/-! ### The registers named in USR mode (R22) -/

theorem userRegs_phys (n : Reg) : UserRegs [phys s.cpsr.m n] := by simp [UserRegs, hm]

theorem userRegs_writeBack (wb : Bool) (n : Reg) : UserRegs (if wb then [phys s.cpsr.m n] else []) := by
  cases wb with
  | false => exact nofun
  | true => exact userRegs_phys hm n

/-- Either bank a block transfer can select is the user bank (R345). -/
theorem userRegs_blockBank (user : Bool) (l : List Reg) : UserRegs (l.map (blockBank user s.cpsr.m)) := by
  cases user <;> simp [UserRegs, blockBank, hm]

/-! ### The effect of each shared form -/

/-- USR mode has no SPSR (R33, R35). -/
theorem spsrBank_ne_some (b : SpsrBank) : s.cpsr.m.spsrBank ≠ some b := by simp [hm, Mode.spsrBank]

/-- Data processing in USR mode completes only where it restores nothing (R205), and then writes no control bit. -/
theorem dataProcessing_control_of_user {op : DpOp} {sb : Bool} {rn rd : Reg} {o : Operand2} {w : Bool}
    (h : dataProcessing op sb rn rd o s = .ok t w) : ControlSame s t := by
  obtain ⟨-, -, -, b, p, hb, -⟩ | ⟨hno, -⟩ := dataProcessing_ok h
  · exact absurd hb (spsrBank_ne_some hm b)
  · rw [ControlSame, dataProcessing_cpsr h hno]
    cases sb with
    | false => exact ⟨rfl, rfl, rfl, rfl⟩
    | true => exact flagsAfter_control _ _ _

theorem userKept_dataProcessing {op : DpOp} {sb : Bool} {rn rd : Reg} {o : Operand2} {w : Bool}
    (h : dataProcessing op sb rn rd o s = .ok t w) : UserKept i s t := by
  have hregs : UserRegs (if op.isCompare then [] else [phys s.cpsr.m rd]) := by
    cases op.isCompare with
    | true => exact nofun
    | false => exact userRegs_phys hm rd
  have ⟨hspsr, _⟩ := dataProcessing_specials h
  exact .of_control hm hregs (dataProcessing_regs h) (dataProcessing_control_of_user hm h) hspsr

/-- An MSR of the flag bits writes the four flags, and none at all where it names an SPSR (R253 to R257). -/
theorem userKept_psrWrite {pd : Bool} {value mask : Word} {w : Bool} (hmask : pd = false → mask = Config.psrFlags)
    (h : psrWrite pd value mask s = .ok t w) : UserKept i s t := by
  cases pd with
  | true =>
    obtain ⟨-, b, hb, -⟩ := psrWrite_spsr_effect h
    exact absurd hb (spsrBank_ne_some hm b)
  | false =>
    rw [hmask rfl, psrWrite_cpsr_flags] at h
    obtain ⟨rfl, -⟩ := StepResult.ok.inj h
    exact .of_control hm (ps := []) nofun (.refl rfl) ⟨rfl, rfl, rfl, rfl⟩ rfl

theorem userKept_of_transferFrame {ps : List PhysReg} {as : List Word} (hps : UserRegs ps)
    (h : TransferFrame ps as s t) : UserKept i s t :=
  have ⟨hregs, hcpsr, ⟨hspsr, _⟩, _⟩ := h
  .of_cpsr hm hps hregs hcpsr hspsr

theorem userKept_single {op : SingleOp} {p u w : Bool} {rn rd : Reg} {o : WordOffset}
    (h : exec (.ofSingle op c p u w rn rd o) s = .next t) : UserKept i s t := by
  have hload := (userRegs_phys hm rd).append (userRegs_writeBack hm (writesBack p w) rn)
  have hstore := userRegs_writeBack hm (writesBack p w) rn
  cases op with
  | str => exact userKept_of_transferFrame hm hstore (store_frame (exec_str .. ▸ h))
  | strb => exact userKept_of_transferFrame hm hstore (store_frame (exec_strb .. ▸ h))
  | ldr => exact userKept_of_transferFrame hm hload (load_frame (exec_ldr .. ▸ h))
  | ldrb => exact userKept_of_transferFrame hm hload (load_frame (exec_ldrb .. ▸ h))

theorem userKept_half {op : HalfOp} {p u w : Bool} {rn rd : Reg} {o : HalfOffset}
    (h : exec (.ofHalf op c p u w rn rd o) s = .next t) : UserKept i s t := by
  cases hl : op.load with
  | true =>
    obtain ⟨bad, k, off, he⟩ := exec_half_load_form c p u w rn rd s hl o
    have hload := (userRegs_phys hm rd).append (userRegs_writeBack hm (writesBack p w) rn)
    exact userKept_of_transferFrame hm hload (load_frame (he ▸ h))
  | false =>
    cases op with
    | strh =>
      rw [exec_strh, storeHalf, nonCore_eq, unlessForm_unlessForm] at h
      exact userKept_of_transferFrame hm (userRegs_writeBack hm _ rn) (store_frame h)
    | ldrh | ldrsb | ldrsh => exact nomatch hl

theorem userKept_multiply {sb : Bool} {rd rs rm : Reg} {acc : Word} {w : Bool}
    (h : multiply sb rd rs rm acc s = .ok t w) : UserKept i s t := by
  obtain ⟨hregs, hcontrol, -, -, hspsr, -⟩ := multiply_effect h
  exact .of_control hm (userRegs_phys hm rd) hregs hcontrol hspsr

theorem userKept_writeLong {sb : Bool} {rdHi rdLo rs rm : Reg} {r : BitVec 64} {w : Bool}
    (h : writeLong sb rdHi rdLo rs rm r s = .ok t w) : UserKept i s t := by
  obtain ⟨hregs, hcontrol, -, hspsr, -⟩ := writeLong_effect h
  exact .of_control hm ((userRegs_phys hm rdHi).append (userRegs_phys hm rdLo)) hregs hcontrol hspsr

theorem userKept_storeMultiple {p u sb wb : Bool} {rn : Reg} {list : BitVec 16} {w : Bool}
    (h : storeMultiple p u sb wb rn list s = .ok t w) : UserKept i s t := by
  obtain ⟨hregs, -, hcpsr, ⟨hspsr, -⟩, -⟩ := storeMultiple_effect h
  exact .of_cpsr hm (userRegs_writeBack hm wb rn) hregs hcpsr hspsr

/-- An LDM in USR mode completes only where it restores nothing (R346). -/
theorem userKept_loadMultiple {p u sb wb : Bool} {rn : Reg} {list : BitVec 16} {w : Bool}
    (h : loadMultiple p u sb wb rn list s = .ok t w) : UserKept i s t := by
  obtain ⟨-, -, b, q, hb, -⟩ | ⟨-, -, rfl⟩ := loadMultiple_ok h
  · exact absurd hb (spsrBank_ne_some hm b)
  · obtain ⟨hregs, -, -, hcpsr, ⟨hspsr, -⟩, -⟩ := loadedBlock_effect p u sb wb rn list s
    exact .of_cpsr hm ((userRegs_blockBank hm _ _).append (userRegs_writeBack hm wb rn)) hregs hcpsr hspsr

/-- The same behind a form check. -/
theorem UserContained.of_unlessForm {r : StepResult} {bad : Bool} (h : conditionally c s (unlessForm bad r) = .next t)
    (hok : ∀ u w, r = .ok u w → UserKept i s u) : UserContained i s t :=
  .of_conditionally hm h fun u w hu => hok u w (unlessForm_ok hu).2

/-- A coprocessor instruction: nothing answers, and the Undefined exception is taken (R363). -/
theorem userContained_noCoprocessor (h : conditionally c s noCoprocessor = .next t) : UserContained i s t :=
  .of_conditionally hm h fun _ _ hu => nomatch (hu : StepResult.err .undefinedInstruction = _)

/-- What any instruction can do in USR mode, form by form. -/
theorem exec_userContained (h : exec i s = .next t) : UserContained i s t := by
  have h15 : UserRegs [.usr 15] := by simp [UserRegs]
  cases i using Instr.byForm with
  | dp op c sb rn rd o =>
    rw [exec_ofDp] at h
    exact .of_conditionally hm h fun _ _ => userKept_dataProcessing hm
  | single op c p u w rn rd o => exact .inr (.inr (userKept_single hm h))
  | half op c p u w rn rd o => exact .inr (.inr (userKept_half hm h))
  | mrs c ps rd =>
    refine .of_conditionally hm h fun u w hu => ?_
    obtain ⟨x, -, rfl, -⟩ := moveFromPsr_effect hu
    exact .of_cpsr hm (userRegs_phys hm rd) (regsSameExcept_writeReg s rd x) rfl rfl
  | msrCpsr c rm =>
    exact .of_conditionally hm h fun _ _ => userKept_psrWrite hm fun _ => fullCpsrMask_of_usr hm
  | msrSpsr c rm => exact .of_conditionally hm h fun _ _ => userKept_psrWrite hm nofun
  | msrFlagsReg c pd rm => exact .of_conditionally hm h fun _ _ => userKept_psrWrite hm fun _ => rfl
  | msrFlagsImm c pd rot imm8 => exact .of_conditionally hm h fun _ _ => userKept_psrWrite hm fun _ => rfl
  | mul c sb rd rn rs rm => exact .of_unlessForm hm h fun _ _ => userKept_multiply hm
  | mla c sb rd rn rs rm => exact .of_unlessForm hm h fun _ _ => userKept_multiply hm
  | umull c sb rdHi rdLo rs rm => exact .of_unlessForm hm h fun _ _ => userKept_writeLong hm
  | umlal c sb rdHi rdLo rs rm => exact .of_unlessForm hm h fun _ _ => userKept_writeLong hm
  | smull c sb rdHi rdLo rs rm => exact .of_unlessForm hm h fun _ _ => userKept_writeLong hm
  | smlal c sb rdHi rdLo rs rm => exact .of_unlessForm hm h fun _ _ => userKept_writeLong hm
  | swp c rn rd rm => exact .inr (.inr (userKept_of_transferFrame hm (userRegs_phys hm rd) (swap_frame h)))
  | swpb c rn rd rm => exact .inr (.inr (userKept_of_transferFrame hm (userRegs_phys hm rd) (swap_frame h)))
  | stm c p u sb w rn list => exact .of_unlessForm hm h fun _ _ => userKept_storeMultiple hm
  | ldm c p u sb w rn list => exact .of_unlessForm hm h fun _ _ => userKept_loadMultiple hm
  | b c offset24 =>
    obtain ⟨hb, -⟩ := branchFrame c offset24 0 s t
    exact .inr (.inr (userKept_of_transferFrame hm h15 (hb h)))
  | bl c offset24 =>
    obtain ⟨-, hbl, -⟩ := branchFrame c offset24 0 s t
    exact .inr (.inr (userKept_of_transferFrame hm (h15.append (userRegs_phys hm 14)) (hbl h)))
  | bx c rn =>
    obtain ⟨-, -, hbx⟩ := branchFrame c 0 rn s t
    obtain ⟨hregs, -, hi, hf, hmode, ⟨hspsr, -⟩, -⟩ := hbx h
    exact .inr (.inr ⟨hmode.trans hm, hi, hf, .inr ⟨c, rn, rfl⟩, hspsr, hregs.banked h15⟩)
  | stc => exact userContained_noCoprocessor hm h
  | ldc => exact userContained_noCoprocessor hm h
  | cdp => exact userContained_noCoprocessor hm h
  | mcr => exact userContained_noCoprocessor hm h
  | mrc => exact userContained_noCoprocessor hm h
  | swi => exact .of_conditionally hm h fun _ _ hu => nomatch hu
  | undefined => exact .of_conditionally hm h fun _ _ hu => nomatch hu

end

/-- Settles O55: what any instruction can do in USR mode, form by form; there is no SPSR to restore or to write, and an
MSR writes the flags only. -/
theorem userModeIsContained : Obligations.UserModeIsContained := by
  unfold Obligations.UserModeIsContained
  intro i s t hm h
  exact exec_userContained hm h

/-! ## Exceptions (R361 to R365, R390 to R397) -/

/-- Entry of a kind that leaves F alone, field by field (R390, R391). -/
theorem takeException_of_keepsF {k : ExceptionKind} (hf : k.masksFiq = false) (a : Word) (s : State) :
    takeException k a s = { s with
      regs := s.regs.set (phys k.mode 14) (a + k.linkOffset)
      spsr := s.spsr.set k.spsrBank s.cpsr.toSpsr
      cpsr := { s.cpsr with m := k.mode, t := false, i := true }
      fetchAddr := k.vector } := by
  rw [takeException, hf, Bool.or_false]

theorem exec_swi (c : Cond) (comment : BitVec 24) (s : State) :
    exec (.swi c comment) s = conditionally c s (.trap comment) := rfl

/-- Settles O52: the outcomes are SWI's trap and the undefined instruction, and the environment enters the exception,
whose fields are those of its kind. -/
theorem swiAndUndefinedEntry : Obligations.SwiAndUndefinedEntry := by
  unfold Obligations.SwiAndUndefinedEntry
  intro c i s hp saved
  refine ⟨?_, fun hi => ?_⟩
  · rintro ⟨comment, rfl⟩
    have hentry := takeException_of_keepsF (k := .swi) rfl s.fetchAddr s
    rw [exec_swi, conditionally_of_passes hp]
    exact congrArg Host.Outcome.next hentry
  · have hexec : exec i s = conditionally c s (.err .undefinedInstruction) := by
      obtain ⟨_, rfl⟩ | ⟨_, _, _, _, _, _, _, _, rfl⟩ | ⟨_, _, _, _, _, _, _, _, rfl⟩ | ⟨_, _, _, _, _, _, rfl⟩ |
        ⟨_, _, _, _, _, _, rfl⟩ | ⟨_, _, _, _, _, _, rfl⟩ := hi <;> rfl
    have hentry := takeException_of_keepsF (k := .undefined) rfl s.fetchAddr s
    rw [hexec, conditionally_of_passes hp]
    exact congrArg Host.Outcome.next hentry

/-- Settles O53: a row of the table holds the values of its kind, and for every kind they are those of the entry. -/
theorem exceptionEntryTable : Obligations.ExceptionEntryTable := by
  unfold Obligations.ExceptionEntryTable
  intro k vector link mode bank r14 setsF a s hrow t
  obtain ⟨rfl, rfl, rfl, rfl, rfl, rfl⟩ : vector = k.vector ∧ mode = k.mode ∧ bank = k.spsrBank ∧
      r14 = phys k.mode 14 ∧ link = a + k.linkOffset ∧ setsF = k.masksFiq := by
    obtain ⟨rfl, hrow⟩ | ⟨rfl, hrow⟩ | ⟨rfl, hrow⟩ | ⟨rfl, hrow⟩ | ⟨rfl, hrow⟩ | ⟨rfl, hrow⟩ := hrow <;> exact hrow
  have hspsr (b : SpsrBank) : t.spsr.get b = if b = k.spsrBank then s.cpsr.toSpsr else s.spsr.get b :=
    spsr_get_set _ _ _ _
  refine ⟨rfl, rfl, rfl, rfl, Bool.or_comm _ _, ⟨rfl, rfl, rfl, rfl⟩, get_set_self _ _ _,
    fun p hp => get_set_ne _ _ (by simpa using hp), ?_, fun b hb => ?_, rfl, rfl, rfl⟩
  · rw [hspsr, if_pos rfl, State.cpsrImage]
  · rw [hspsr, if_neg hb]

/-! ### Return from an exception (R205, R397) -/

/-- A restore by an operation that writes R15, with a legal PSR in the SPSR of the mode (R205). -/
theorem exec_dp_restore_of_legal {op : DpOp} {c : Cond} {rn : Reg} {o : Operand2} {s : State} {b : SpsrBank} {p : Cpsr}
    {x : Word} (hp : s.passes c = true) (hop : op.isCompare = false) (hb : s.cpsr.m.spsrBank = some b)
    (hsaved : (s.spsr.get b).toCpsr = some p) (hx : (alu op (s.readReg rn) (operand2 o s).1 s.cpsr.c).value = x) :
    exec (.ofDp op c true rn 15 o) s = .next { s.writePc x with cpsr := p, fetchAddr := alignWord x } := by
  rw [exec_dp_restore hp rfl, restoreCpsr_of_legal hb hsaved, hop, hx]
  exact environment_writePc s _ x

/-- The SPSR of the mode entered holds the CPSR of before (R391). -/
theorem saved_takeException (k : ExceptionKind) (a : Word) (s : State) :
    ((takeException k a s).spsr.get k.spsrBank).toCpsr = some s.cpsr := by
  rw [takeException_spsr, spsr_get_set, if_pos rfl, toCpsr_toSpsr]

/-- R14 of the mode entered holds the return address (R390). -/
theorem link_takeException (k : ExceptionKind) (a : Word) (s : State) :
    (takeException k a s).readReg 14 = a + k.linkOffset := get_set_self _ _ _

/-- A restore by data processing right after the entry of an exception undoes the entry and goes on at its result
(R205, R391, R397). -/
theorem return_undoes_entry {op : DpOp} {rn : Reg} {o : Operand2} {w : Word} {k : ExceptionKind} {a x : Word}
    {s : State} (hw : decodeWord w = .ofDp op .al true rn 15 o) (hop : op.isCompare = false)
    (hx : (alu op ((takeException k a s).readReg rn) (operand2 o (takeException k a s)).1 s.cpsr.c).value = x) :
    ∃ t, exec (decodeWord w) (takeException k a s) = .next t ∧ t.cpsr = s.cpsr ∧ t.fetchAddr = x &&& ~~~(3#32) ∧
      RegsSameExcept [.usr 15, phys k.mode 14] s t ∧ t.mem = s.mem := by
  have hexec := exec_dp_restore_of_legal (c := .al) rfl hop (spsrBank_mode k) (saved_takeException k a s) hx
  rw [← hw] at hexec
  refine ⟨_, hexec, rfl, rfl, fun p hp => ?_, rfl⟩
  simp only [List.mem_cons, List.not_mem_nil, or_false, not_or] at hp
  exact (get_set_ne _ _ hp.1).trans (get_set_ne _ _ hp.2)

/-- SUB in the ALU is subtraction (R201, R217). -/
theorem alu_sub_value (x y : Word) (cin : Bool) : (alu .sub x y cin).value = x - y := by
  have hsum : (alu .sub x y cin).value = BitVec.ofNat 32 (x.toNat + (~~~y).toNat + true.toNat) :=
    addWithCarry_result x (~~~y) true
  have hy := not_toNat_add_one y
  apply BitVec.eq_of_toNat_eq
  rw [hsum, BitVec.toNat_ofNat, BitVec.toNat_sub, Bool.toNat_true]
  congr 1
  omega

/-- SUB of an unrotated immediate from the link undoes the offset that the entry added (R390, R397). -/
theorem sub_from_link {k : ExceptionKind} {imm8 : BitVec 8} (h : k.linkOffset = imm8.zeroExtend 32) (a : Word)
    (s : State) (cin : Bool) :
    (alu .sub ((takeException k a s).readReg 14) (operand2 (.imm 0 imm8) (takeException k a s)).1 cin).value = a := by
  rw [alu_sub_value, operand2_imm_zero, link_takeException, h, BitVec.add_sub_cancel]

/-- Settles O54: each word decodes to a restore by MOV or SUB from R14, whose result is the link less the
immediate. -/
theorem exceptionReturnUndoesEntry : Obligations.ExceptionReturnUndoesEntry := by
  unfold Obligations.ExceptionReturnUndoesEntry
  intro k a s u back
  refine ⟨fun hk => ?_, fun hk => ?_, fun hk => ?_⟩
  · have hlink : u.readReg 14 = a + 4 := by
      obtain rfl | rfl := hk <;> exact link_takeException _ a s
    exact return_undoes_entry (op := .mov) (rn := 0) (o := .shiftImm 0 .lsl 14) rfl rfl hlink
  · have hoffset : k.linkOffset = (4#8).zeroExtend 32 := by obtain rfl | rfl | rfl := hk <;> rfl
    exact return_undoes_entry (rn := 14) (o := .imm 0 4) rfl rfl (sub_from_link hoffset a s _)
  · have hoffset : k.linkOffset = (8#8).zeroExtend 32 := by rw [hk]; rfl
    exact return_undoes_entry (rn := 14) (o := .imm 0 8) rfl rfl (sub_from_link hoffset a s _)

/-! ## Interrupts (R395, R396) -/

/-- A step is determined by the state in which the interrupts have been sampled (R149). -/
theorem step_congr {s t : State} (h : s.acceptInterrupt = t.acceptInterrupt) : step s = step t := by
  unfold step
  rw [h]

/-- The entry of a pending interrupt lets no other in: it masks IRQ, and FIQ is masked by its own entry or was not
pending (R390, R395). -/
theorem step_eq_step_takeException {s : State} {k : ExceptionKind} (hk : s.pendingInterrupt = some k)
    (hfiq : ¬ (s.fiqRequest = true ∧ (s.cpsr.f || k.masksFiq) = false)) :
    step s = step (takeException k s.fetchAddr s) := by
  have hnone : (takeException k s.fetchAddr s).pendingInterrupt = none :=
    pendingInterrupt_eq_none hfiq fun hirq => nomatch hirq.2
  exact step_congr ((acceptInterrupt_of_pending hk).trans (acceptInterrupt_of_none hnone).symm)

/-- Settles O5: FIQ is pending where it is requested and unmasked, IRQ where it is and FIQ is not. -/
theorem interruptEntersBeforeFetch : Obligations.InterruptEntersBeforeFetch := by
  unfold Obligations.InterruptEntersBeforeFetch
  intro s
  refine ⟨fun hreq hf => ?_, fun hno hreq hi => ?_⟩
  · have hpending : s.pendingInterrupt = some .fiq := if_pos (by simp [hreq, hf])
    exact step_eq_step_takeException hpending (by simp [ExceptionKind.masksFiq])
  · have hpending : s.pendingInterrupt = some .irq := by
      rw [State.pendingInterrupt, if_neg (by simpa using hno), if_pos (by simp [hreq, hi])]
    exact step_eq_step_takeException hpending (by simpa [ExceptionKind.masksFiq] using hno)

/-! ## Reset (R420, R421) -/

/-- Settles O1: every field of the reset state by computation, and R15 against the other registers by the law of the
register file. -/
theorem resetFixesModeMasksAndFetchOnly : Obligations.ResetFixesModeMasksAndFetchOnly := by
  unfold Obligations.ResetFixesModeMasksAndFetchOnly
  intro d s
  have hpc : (s.applyReset d).pc = 8 := get_set_self d.regs (.usr 15) (0 + Config.pcReadSkew)
  have hregs (p : PhysReg) (hp : p ≠ .usr 15) : (s.applyReset d).regs.get p = d.regs.get p := get_set_ne _ _ hp
  exact ⟨rfl, rfl, rfl, rfl, rfl, rfl, rfl, rfl, rfl, hpc, hregs, rfl, rfl⟩

/-- What a state holds where reset holds draws (R421). -/
def State.draws (s : State) : ResetDraws where
  regs := s.regs
  spsr := s.spsr
  n := s.cpsr.n
  z := s.cpsr.z
  c := s.cpsr.c
  v := s.cpsr.v

/-- Writing a register with its own content changes nothing. -/
theorem set_get_self (r : RegFile) (p : PhysReg) : r.set p (r.get p) = r := regFile_ext fun q => by
  rw [get_set]
  split
  · next h => rw [h]
  · rfl

/-- Reset with the content of `State.reset` as its draws gives `State.reset` again. -/
theorem applyReset_draws_reset : State.reset.applyReset State.reset.draws = State.reset := by
  have hregs : State.reset.regs.set (.usr 15) (0 + Config.pcReadSkew) = State.reset.regs :=
    set_get_self State.reset.regs (.usr 15)
  rw [State.applyReset, State.draws, hregs]
  rfl

/-- Settles O2: empty memory is canonical and 0 is a multiple of 4; the draws are read off `State.reset`. -/
theorem resetMeetsInvariant : Obligations.ResetMeetsInvariant := by
  unfold Obligations.ResetMeetsInvariant
  exact ⟨⟨rfl, rfl⟩, State.reset.draws, State.reset, rfl, rfl, rfl, applyReset_draws_reset.symm⟩

end Sys2Proof.Machine
